-- ==== Sys2Proof/Word.lean ====
section
/-! DEFINITION. The word types of the LsbCodec block (00_scope.md R10, 30_encoding.md R75, R76, R90). -/

namespace Sys2Proof

/-- PIXW = 32: one pixel word of the grid (R10, R75). -/
abbrev Pixel := BitVec 32

/-- CHW = 8: one character of the framed payload (R10, R76). -/
abbrev Ch := BitVec 8

/-- SYMW = 2: one symbol, a quarter of a character (R10, R76). -/
abbrev Symbol := BitVec 2

/-- The command word, the 2-bit value written to CMD (R90). -/
abbrev CmdWord := BitVec 2

end Sys2Proof
end

