-- ==== Sys2Proof/Config.lean ====
section
/-! DEFINITION. What the spec leaves to the implementation: the two OPEN parameters DW and LW (00_scope.md R12) and
the power-up contents of the two memories (93_implementation_defined.md U1), which are free values. -/

namespace Sys2Proof

/-- The two OPEN parameters (R12): `dw` is DW, the width of GW and GH; `lw` is LW, the width of PLEN and LEN.
They are fields of State (`State.cfg`) that no step changes, so a statement about every state holds for every choice. -/
structure Config where
  dw : Nat
  lw : Nat
  deriving DecidableEq, Repr

/-- LMAX = 2^LW - 1: the largest payload length, and the number of entries of PAY (R12). -/
def Config.lmax (c : Config) : Nat := 2 ^ c.lw - 1

/-- The values R12 suggests. DESIGN CHOICE (log 1): the machine `State.reset` has these; no rule depends on them. -/
def Config.suggested : Config := { dw := 16, lw := 31 }

/-- FREE VALUE (U1, R227; log 5): the word at (x, y) of PIX after power-up, until something writes it. -/
opaque Config.powerUpPix : Nat → Nat → Pixel

/-- FREE VALUE (U1, R227; log 5): the character at index i of PAY after power-up, until something writes it. -/
opaque Config.powerUpPay : Nat → Ch

end Sys2Proof
end

