-- ==== Sys2Proof/Syntax.lean ====
section
/-! DEFINITION. The instructions: the four operations of the block, one constructor per row of
spec/opcode_table.json (30_encoding.md R90, R92). They take no operand in the command word (R22, R90). -/

namespace Sys2Proof

/-- The block's four operations, which "stand where a processor spec has instructions" (R1). -/
inductive Instr where
  /-- ENCODE, OPC 0 (R120, R121). -/
  | encode
  /-- DETECT, OPC 1 (R135, R136). -/
  | detect
  /-- GETLEN, OPC 2 (R145, R146). -/
  | getlen
  /-- DECODE, OPC 3 (R160, R161). -/
  | decode
  deriving DecidableEq, Repr

end Sys2Proof
end

