-- ==== Sys2Proof/WellFormed.lean ====
section
/-! DEFINITION. What makes a term well formed: an operation has no operand, so every one is (30_encoding.md R91);
a configuration needs DW >= 1 and LW >= 1 (00_scope.md R12); a byte carries a command word when its upper six bits
are clear (30_encoding.md R90). -/

namespace Sys2Proof

/-- R91: "All four values of OPC are defined"; no operation has an operand that could be ill formed. -/
def Instr.wellFormed : Instr → Bool
  | .encode => true
  | .detect => true
  | .getlen => true
  | .decode => true

/-- R12: "DW >= 1", "LW >= 1". -/
def Config.wellFormed (c : Config) : Bool := decide (1 ≤ c.dw) && decide (1 ≤ c.lw)

/-- R90: the command word has the two bits 1:0 and no others. -/
def commandByteWellFormed (b : BitVec 8) : Bool := b.toNat < 4

end Sys2Proof
end

