-- ==== Sys2Proof/Decode.lean ====
section
/-! DEFINITION. The command word (30_encoding.md R90): decoder, total on any bytes and refusing by name, and encoder. -/

namespace Sys2Proof

/-- Why bytes are no command word. -/
inductive DecodeError where
  /-- there is no byte to read -/
  | noByte
  /-- a bit above bit 1 is set: a command word is 2 bits wide (R90; log 9) -/
  | widerThanCmd
  deriving DecidableEq, Repr

/-- R90: "0 = ENCODE, 1 = DETECT, 2 = GETLEN, 3 = DECODE". All four codes are defined (R91). -/
def decodeCmd (w : CmdWord) : Instr :=
  if w = 0#2 then .encode
  else if w = 1#2 then .detect
  else if w = 2#2 then .getlen
  else .decode

/-- The operation of a byte whose bits 1:0 are the command word and whose other bits are clear (log 9). -/
def decodeByte (b : BitVec 8) : Except DecodeError Instr :=
  if b.extractLsb' 2 6 = 0#6 then .ok (decodeCmd (b.extractLsb' 0 2)) else .error .widerThanCmd

/-- One command word from the front of a byte list, with the rest of the list. -/
def decodeBytes : List (BitVec 8) → Except DecodeError (Instr × List (BitVec 8))
  | [] => .error .noByte
  | b :: rest =>
    match decodeByte b with
    | .ok i => .ok (i, rest)
    | .error e => .error e

/-- The OPC of an operation (R90, R92). -/
def encodeCmd : Instr → CmdWord
  | .encode => 0b00#2
  | .detect => 0b01#2
  | .getlen => 0b10#2
  | .decode => 0b11#2

/-- The words of an operation: one command word, in the low bits of one byte (log 9). -/
def encode (i : Instr) : List (BitVec 8) := [(encodeCmd i).setWidth 8]

/-- What the decoder reads from a row of spec/opcode_table.json whose bits are `w`, of `nbits` bits. A command is one
byte long, so a number that does not fit one byte, or that has a bit at or above `nbits`, is no command. -/
def decodeTableWord (nbits w : Nat) : Option Instr :=
  if w < 2 ^ nbits ∧ w < 256 then
    match decodeBytes [BitVec.ofNat 8 w] with
    | .ok (i, _) => some i
    | .error _ => none
  else none

end Sys2Proof
end

