-- ==== Sys2Proof/Machine/State.lean ====
section
/-! DEFINITION. The state of the LsbCodec block (10_state.md), the host's moves as data, and the reasons a step can
stop. State is plain data. -/

namespace Sys2Proof.Machine

/-- PHASE (10_state.md R32): which part of an operation is running. -/
inductive Phase where
  | idle
  | eCheck
  | eWrite
  | dMark
  | dLen
  | dBound
  | dXtr
  deriving DecidableEq, Repr

/-- STATUS.RESULT (60_exceptions.md R196); codes 4 to 7 are never produced. -/
inductive Result where
  | ok
  | notEncoded
  | insufficientCapacity
  | parseError
  deriving DecidableEq, Repr

/-- STATUS.CAUSE (60_exceptions.md R197); codes 6 and 7 are never produced. `noCause` is NONE, code 0. -/
inductive Cause where
  | noCause
  | exhausted
  | empty
  | notDecimal
  | range
  | overrun
  deriving DecidableEq, Repr

/-- The pseudo-instructions of a host script (30_encoding.md R93); each expands into port moves. -/
inductive HostLine where
  /-- `SETDIM w, h` -/
  | setDim (w h : Nat)
  /-- `LOADPAY "text"` -/
  | loadPay (text : List Ch)
  /-- `FILL v` -/
  | fill (v : Pixel)
  /-- `SETPIX n, v` -/
  | setPix (n : Nat) (v : Pixel)
  /-- `XORPIX n, m` -/
  | xorPix (n : Nat) (m : Pixel)
  deriving DecidableEq, Repr

/-- One move of the host (45_host_collaborators.md R188; ports: 92_eei_decisions.md D2), and how long the host leaves
the block to itself. The list of moves to come stands in `State.host` (log 3). -/
inductive HostMove where
  /-- a command line of R93: write the command word in this byte to CMD, then read STATUS until DONE = 1 -/
  | command (w : BitVec 8)
  /-- `CsrWrite(k, v)` (R23); k = 3 is the bare CMD write of R34 -/
  | csrWrite (k v : Nat)
  /-- `CsrRead(k)` (R23) -/
  | csrRead (k : Nat)
  /-- `PixWrite(x, y, v)` (R51) -/
  | pixWrite (x y : Nat) (v : Pixel)
  /-- `PixRead(x, y)` (R51) -/
  | pixRead (x y : Nat)
  /-- `PayWrite(i, c)` (R54) -/
  | payWrite (i : Nat) (c : Ch)
  /-- `PayRead(i)` (R54) -/
  | payRead (i : Nat)
  /-- the reset event (R225) -/
  | reset
  /-- read STATUS until DONE = 1 (R93): the block takes steps meanwhile -/
  | waitDone
  /-- the host lets the block take one step before its own next move -/
  | letRun
  /-- a pseudo-instruction (R93) -/
  | line (l : HostLine)
  deriving DecidableEq, Repr

/-- What a port read returned to the host (log 4). -/
inductive Reply where
  | csr (k v : Nat)
  | pixel (v : Pixel)
  | char (c : Ch)
  deriving DecidableEq, Repr

/-- Why a step stops with a fault. Each is SAFE: the model stops where a wider reading might go on. The block itself
raises none of them from a state that a run reaches (`Safety.lean`; log 12). -/
inductive Fault where
  /-- a block access to PIX[n] with n >= NPIX; R61 says the block never issues one. Raised by `State.readPixel` and
  `State.writePixel`, and by a SETPIX or XORPIX line that names such an n. Safe. -/
  | pixelOutsideGrid
  /-- an access to PAY[i] with i >= LMAX, which does not exist (R54). Raised by `State.readPay`, `State.writePay`. Safe. -/
  | payOutsideBuffer
  /-- a host access to a pair (x, y) that no GW and GH of DW bits make valid (R24, R50). Raised by the host's port moves. Safe. -/
  | pairOutsideSpace
  /-- BUSY = 1 in a PHASE that the operation in OP does not pass through (R32): no step rule applies. Raised by the step
  functions of the operations, in states no run reaches. Safe. -/
  | noStepRule
  deriving DecidableEq, Repr

/-- Why a step is refused. Each is SAFE but the second, see there. -/
inductive Refusal where
  /-- an instruction without a meaning yet; raised by no arm of `exec` any more. Safe. -/
  | notModelled (mnemonic : String)
  /-- a host access to PIX or PAY while BUSY = 1: U4 gives it the treatment `refuse` (R231). Raised by the host's port
  moves. UNSAFE if a real host breaks the rule: the model has no run for it (log 7). -/
  | hostAccessWhileBusy
  /-- a CSR write of a value that does not fit the register's width (R23: "a write takes exactly that many"). Raised by
  `csrWrite`. Safe (log 8). -/
  | valueTooWide (k v : Nat)
  /-- a command line whose byte is no 2-bit command word (R90). Raised by `step`. Safe (log 9). -/
  | badCommand (e : DecodeError)
  deriving DecidableEq, Repr

/-- The state of the block, its two memories, and the host's moves to come. -/
structure State where
  /-- the parameters DW and LW (R12); no step changes them (log 1) -/
  cfg : Config
  /-- GW, CSR 0: W, the grid width (R23, R24) -/
  gw : Nat
  /-- GH, CSR 1: H, the grid height (R23, R24) -/
  gh : Nat
  /-- PLEN, CSR 2: L for ENCODE (R23, R25) -/
  plen : Nat
  /-- LEN, CSR 5: the decoded length field (R23, R26) -/
  len : Nat
  /-- STATUS bit 0, BUSY (R27) -/
  busy : Bool
  /-- STATUS bit 1, DONE (R27) -/
  done : Bool
  /-- STATUS bit 2, ENC (R27) -/
  enc : Bool
  /-- STATUS bits 5:3, RESULT (R27, R196) -/
  result : Result
  /-- STATUS bits 8:6, CAUSE (R27, R197) -/
  cause : Cause
  /-- OP, the latched operation code (R31) -/
  op : CmdWord
  /-- PHASE (R31, R32) -/
  phase : Phase
  /-- N, the pixel cursor (R29) -/
  n : Nat
  /-- ACC, the character being reassembled (R33) -/
  acc : Ch
  /-- MATCH: every marker character compared so far was equal (R31) -/
  matched : Bool
  /-- DCNT: characters accumulated in the length field so far (R31) -/
  dcnt : Nat
  /-- LACC: value of the digits accumulated so far (R31, R109) -/
  lacc : Nat
  /-- LOVF: the accumulated value has exceeded LMAX (R31, R109) -/
  lovf : Bool
  /-- LBAD: the accumulated string is not a canonical numeral (R31, R110) -/
  lbad : Bool
  /-- LZ: the first accumulated character was `0` (R31, R110) -/
  lz : Bool
  /-- HDR: header size in pixels (R31, R168) -/
  hdr : Nat
  /-- PIX: the words that something has written, by coordinates, in raster order of the pairs (R50, R52; log 5, log 6) -/
  pix : List ((Nat × Nat) × Pixel)
  /-- PAY: the characters that something has written, by rising index (R54; log 5) -/
  pay : List Host.Cell
  /-- the host's moves still to come (log 3) -/
  host : List HostMove
  /-- what the host's last port read returned (log 4) -/
  reply : Option Reply
  deriving DecidableEq, Repr

/-- The machine right after power-up and reset (10_state.md R41) for given parameters: every register at 0, PHASE = IDLE,
neither memory written, the host with nothing to do. -/
def State.resetWith (c : Config) : State :=
  { cfg := c
    gw := 0, gh := 0, plen := 0, len := 0
    busy := false, done := false, enc := false, result := .ok, cause := .noCause
    op := 0#2, phase := .idle, n := 0, acc := 0#8, matched := false
    dcnt := 0, lacc := 0, lovf := false, lbad := false, lz := false, hdr := 0
    pix := [], pay := [], host := [], reply := none }

/-- The machine right after reset (R41), with the parameters R12 suggests (log 1). -/
def State.reset : State := State.resetWith Config.suggested

end Sys2Proof.Machine
end

