-- ==== Sys2Proof/Machine/Ops.lean ====
section
/-! DEFINITION. The operations every meaning shares: the two memories and their ports (20_memory.md), command start
(10_state.md R35), the end of an operation (60_exceptions.md R205: the block's "trap entry"), the reset event
(70_reset_and_hazards.md R225), and running an operation's step rules to its end. -/

namespace Sys2Proof.Machine

/-! ## Memories: lists of (address, value) in one canonical form -/

/-- The value listed at key `k`; `none` if nothing has written it. -/
def Memory.find {κ ν : Type} [DecidableEq κ] (k : κ) : List (κ × ν) → Option ν
  | [] => none
  | (a, v) :: rest => if a = k then some v else Memory.find k rest

/-- Write `v` at `k`, keeping the list in the order of `lt`. -/
def Memory.put {κ ν : Type} [DecidableEq κ] (lt : κ → κ → Bool) (k : κ) (v : ν) :
    List (κ × ν) → List (κ × ν)
  | [] => [(k, v)]
  | (a, w) :: rest =>
    if a = k then (k, v) :: rest
    else if lt k a then (k, v) :: (a, w) :: rest
    else (a, w) :: Memory.put lt k v rest

/-- The canonical form: keys strictly rising in `lt`, so each key is listed at most once. An unlisted key is one nothing
has written (`Memory.find` gives `none`), so no entry can equal what an unlisted key reads as. -/
abbrev Memory.wf {κ ν : Type} (lt : κ → κ → Bool) (m : List (κ × ν)) : Prop :=
  m.Pairwise (fun a b => lt a.1 b.1 = true)

/-- The order of coordinate pairs in PIX: x outer, y inner, as raster order has it (R52). -/
def pairLt (a b : Nat × Nat) : Bool :=
  decide (a.1 < b.1) || (decide (a.1 = b.1) && decide (a.2 < b.2))

/-- The order of indices in PAY. -/
def indexLt (a b : Nat) : Bool := decide (a < b)

/-- Both memories are in canonical form. -/
abbrev State.memoriesWf (s : State) : Prop := Memory.wf pairLt s.pix ∧ Memory.wf indexLt s.pay

/-- The word at (x, y): the one last written, or the free power-up word (R67, U1; log 5). -/
def State.pixAt (s : State) (x y : Nat) : Pixel :=
  (Memory.find (x, y) s.pix).getD (Config.powerUpPix x y)

/-- The character at index i of PAY: the one last written, or the free power-up character (R67, U1; log 5). -/
def State.payAt (s : State) (i : Nat) : Ch :=
  (Memory.find i s.pay).getD (Config.powerUpPay i)

/-- Put the word v at (x, y). -/
def State.setPix (s : State) (x y : Nat) (v : Pixel) : State :=
  { s with pix := Memory.put pairLt (x, y) v s.pix }

/-- Put the character c at index i of PAY. -/
def State.setPay (s : State) (i : Nat) (c : Ch) : State :=
  { s with pay := Memory.put indexLt i c s.pay }

/-! ## The grid (R11, R24, R52) -/

/-- NPIX = W x H (R11, R50), exact (R112). -/
def State.npix (s : State) : Nat := s.gw * s.gh

/-- LMAX of this machine (R12). -/
def State.lmax (s : State) : Nat := s.cfg.lmax

/-- R50: (x, y) is valid when 0 <= x < W and 0 <= y < H. -/
def State.validPair (s : State) (x y : Nat) : Bool := decide (x < s.gw) && decide (y < s.gh)

/-- IDX(x, y) = x * H + y (R52). -/
def State.idx (s : State) (x y : Nat) : Nat := x * s.gh + y

/-- COORD(n) = (n div H, n mod H) (R52). -/
def State.coord (s : State) (n : Nat) : Nat × Nat := (n / s.gh, n % s.gh)

/-- The cursor kept as a coordinate pair (CX, CY), one pixel on (R30). -/
def State.nextCoord (s : State) (c : Nat × Nat) : Nat × Nat :=
  if c.2 + 1 = s.gh then (c.1 + 1, 0) else (c.1, c.2 + 1)

/-- PIX[n], the word at COORD(n) (R14, R52). -/
def State.pixel (s : State) (n : Nat) : Pixel := s.pixAt (s.coord n).1 (s.coord n).2

/-! ## The block's accesses (R51, R54, R61) -/

/-- The block's PixRead of PIX[n]; it exists only for n < NPIX (R61). -/
def State.readPixel (s : State) (n : Nat) : Except Fault Pixel :=
  if n < s.npix then .ok (s.pixel n) else .error .pixelOutsideGrid

/-- The block's PixWrite of PIX[n]; it exists only for n < NPIX (R61). -/
def State.writePixel (s : State) (n : Nat) (v : Pixel) : Except Fault State :=
  if n < s.npix then .ok (s.setPix (s.coord n).1 (s.coord n).2 v) else .error .pixelOutsideGrid

/-- PayRead(i), 0 <= i < LMAX (R54). -/
def State.readPay (s : State) (i : Nat) : Except Fault Ch :=
  if i < s.lmax then .ok (s.payAt i) else .error .payOutsideBuffer

/-- PayWrite(i, c), 0 <= i < LMAX (R54). -/
def State.writePay (s : State) (i : Nat) (c : Ch) : Except Fault State :=
  if i < s.lmax then .ok (s.setPay i c) else .error .payOutsideBuffer

/-! ## Start, end, reset -/

/-- The first phase of an operation (R35). -/
def firstPhase (c : CmdWord) : Phase :=
  match decodeCmd c with
  | .encode => .eCheck
  | .detect => .dMark
  | .getlen => .dLen
  | .decode => .dMark

/-- The cursor at command start: 0, "and also N <- 36" for GETLEN (R35). -/
def firstCursor (c : CmdWord) : Nat :=
  match decodeCmd c with
  | .encode => 0
  | .detect => 0
  | .getlen => 36
  | .decode => 0

/-- Command start, one step (R35). -/
def State.start (s : State) (c : CmdWord) : State :=
  { s with
    op := c, busy := true, done := false, enc := false, result := .ok, cause := .noCause, len := 0
    n := firstCursor c, acc := 0#8, matched := true
    dcnt := 0, lacc := 0, lovf := false, lbad := false, lz := false, hdr := 0
    phase := firstPhase c }

/-- `finish(r, c)`, one step, ends the operation whatever its result (R205). "Nothing else is written." -/
def State.finish (s : State) (r : Result) (c : Cause) : State :=
  { s with result := r, cause := c, done := true, busy := false, phase := .idle }

/-- The reset event (R225, R41): every register to its reset value; PIX and PAY, the parameters and the host's own list
of moves are not the block's registers and stay. -/
def State.resetRegisters (s : State) : State :=
  { s with
    gw := 0, gh := 0, plen := 0, len := 0
    busy := false, done := false, enc := false, result := .ok, cause := .noCause
    op := 0#2, phase := .idle, n := 0, acc := 0#8, matched := false
    dcnt := 0, lacc := 0, lovf := false, lbad := false, lz := false, hdr := 0 }

/-! ## The host's own fields (log 3, log 4) -/

/-- The same block, the host having `moves` to come. -/
def State.setHost (s : State) (moves : List HostMove) : State := { s with host := moves }

/-- The same block, the host having received `r` from its last port read. -/
def State.setReply (s : State) (r : Reply) : State := { s with reply := some r }

/-! ## Running an operation -/

/-- One step of an operation as an outcome. -/
def outcomeOf : Except Fault State → Host.Outcome State Fault Refusal
  | .ok t => .next t
  | .error f => .fault f

/-- Take steps by `rule` while BUSY = 1 (R20), at most `k` of them. -/
def runOp (rule : State → Except Fault State) : Nat → State → Host.Outcome State Fault Refusal
  | 0, s => .next s
  | k + 1, s =>
    if s.busy then
      match rule s with
      | .ok t => runOp rule k t
      | .error f => .fault f
    else .next s

/-- The command `c` given to the block: ignored with BUSY = 1 (R34); else command start (R35) and then the operation's
steps until it ends, which is within `bound` of them (R209; log 2). -/
def State.issue (s : State) (c : CmdWord) (rule : State → Except Fault State) (bound : Nat) :
    Host.Outcome State Fault Refusal :=
  if s.busy then .next s else runOp rule bound (s.start c)

end Sys2Proof.Machine
end

