-- ==== Sys2Proof/Machine/Operands.lean ====
section
/-! DEFINITION. The primitive functions of 40_primitives.md: symbols and characters, decimal numerals, the frame. All
counts are naturals and exact (R112). -/

namespace Sys2Proof.Machine

/-! ## Constants (R10, R16, R40) -/

/-- MARKER, the 9 characters `!encoded!` (R16: 21 65 6E 63 6F 64 65 64 21; log 10). -/
def marker : List Ch := [0x21#8, 0x65#8, 0x6E#8, 0x63#8, 0x6F#8, 0x64#8, 0x65#8, 0x64#8, 0x21#8]

/-- DELIM, the character `!` (R10, R16). -/
def delim : Ch := 0x21#8

/-- MARKER[k] (R113, R136). MARKER takes MPIX = 9 x 4 = 36 pixels (R10). -/
def markerChar (k : Nat) : Ch := marker.getD k 0#8

/-! ## Symbols and characters (R100 to R104, R33) -/

/-- SPLIT: four symbols, most significant pair first (R100). -/
def split (c : Ch) : List Symbol :=
  [c.extractLsb' 6 2, c.extractLsb' 4 2, c.extractLsb' 2 2, c.extractLsb' 0 2]

/-- SPLIT(c)[j] = (c >> (6 - 2j)) & 3, for j = 0 .. 3 (R100). -/
def symOf (c : Ch) (j : Nat) : Symbol := ((c >>> (6 - 2 * j)) &&& 3#8).setWidth 2

/-- JOIN: the first symbol read is the most significant pair (R101). -/
def join (s0 s1 s2 s3 : Symbol) : Ch := s0 ++ s1 ++ s2 ++ s3

/-- EMBED(p, s) = (p & 0xFFFFFFFC) | zext_32(s) (R102). -/
def embed (p : Pixel) (s : Symbol) : Pixel := (p &&& 0xFFFFFFFC#32) ||| s.setWidth 32

/-- EXTRACT(p) = p[1:0] (R103). -/
def extract (p : Pixel) : Symbol := p.extractLsb' 0 2

/-- ACC <- {ACC[5:0], s} (R33). -/
def shiftIn (acc : Ch) (s : Symbol) : Ch := acc.extractLsb' 0 6 ++ s

/-- CHARAT(k), the character reassembled from pixels 4k .. 4k+3; meant for 4k + 3 < NPIX (R104). -/
def State.charAt (s : State) (k : Nat) : Ch :=
  join (extract (s.pixel (4 * k))) (extract (s.pixel (4 * k + 1)))
    (extract (s.pixel (4 * k + 2))) (extract (s.pixel (4 * k + 3)))

/-! ## Decimal numerals (R106 to R110) -/

/-- The digit character of a value below 10 (R106). -/
def digitChar (d : Nat) : Ch := BitVec.ofNat 8 (0x30 + d)

/-- R110, R115: the character is in 0x30 .. 0x39. -/
def isDigit (c : Ch) : Bool := decide (0x30 ≤ c.toNat) && decide (c.toNat ≤ 0x39)

/-- c - 0x30, for a digit (R109, R114). -/
def digitVal (c : Ch) : Nat := c.toNat - 0x30

/-- R106 on `fuel` digits; `fuel` above the number of digits changes nothing. -/
def decFuel : Nat → Nat → List Ch
  | 0, _ => []
  | fuel + 1, l => if l < 10 then [digitChar l] else decFuel fuel (l / 10) ++ [digitChar (l % 10)]

/-- DEC(L), the decimal numeral, most significant digit first, no leading zeros; `0` for L = 0 (R106). -/
def dec (l : Nat) : List Ch := decFuel (l + 1) l

/-- DIGITS(L) = |DEC(L)| (R107). -/
def digits (l : Nat) : Nat := (dec l).length

/-- VAL of a string of digits: the decimal positional value, exact (R109). -/
def val (s : List Ch) : Nat := s.foldl (fun a c => 10 * a + digitVal c) 0

/-- CANON of a non-empty string: digits only, and no leading `0` unless it is the whole string (R110). -/
def canon (s : List Ch) : Bool :=
  !s.isEmpty && s.all isDigit && (decide (s.length ≤ 1) || decide (s.head? ≠ some 0x30#8))

/-- PARSE: EMPTY, then NOT_DECIMAL, then RANGE, else the value (R108). -/
def parse (lmax : Nat) (s : List Ch) : Except Cause Nat :=
  if s.isEmpty then .error .empty
  else if !canon s then .error .notDecimal
  else if lmax < val s then .error .range
  else .ok (val s)

/-! ## The frame (R77, R80, R82, R113) -/

/-- F = 10 + d + L, the characters of the frame (R82). -/
def frameChars (l : Nat) : Nat := 10 + digits l + l

/-- REQ = 4 F, the pixels the frame needs (R82, R122). -/
def reqPixels (l : Nat) : Nat := 4 * frameChars l

/-- HDR = 36 + 4 (d + 1), the pixels before the payload (R82, R164). -/
def hdrPixels (l : Nat) : Nat := 36 + 4 * (digits l + 1)

/-- FRAME(P) = MARKER ++ DEC(L) ++ "!" ++ P (R80). -/
def frame (p : List Ch) : List Ch := marker ++ dec p.length ++ [delim] ++ p

/-- STREAM(S)[m] = SPLIT(S[m div 4])[m mod 4] (R77). -/
def streamAt (s : List Ch) (m : Nat) : Symbol := symOf (s.getD (m / 4) 0#8) (m % 4)

/-- The payload text P = PAY[0 .. l-1] (R121). -/
def State.payText (s : State) (l : Nat) : List Ch := (List.range l).map s.payAt

/-- FCHAR(k), the k-th character of the frame of PAY[0 .. PLEN-1], without building the string; meant for
k < 10 + d + L (R113). -/
def State.fchar (s : State) (k : Nat) : Ch :=
  if k < 9 then markerChar k
  else if k < 9 + digits s.plen then (dec s.plen).getD (k - 9) 0#8
  else if k = 9 + digits s.plen then delim
  else s.payAt (k - 10 - digits s.plen)

/-- FSYM(n) = SPLIT(FCHAR(n div 4))[n mod 4], meant for n < REQ (R113). -/
def State.fsym (s : State) (n : Nat) : Symbol := symOf (s.fchar (n / 4)) (n % 4)

/-- FCHAR(k) as E_WRITE gets it: it "reads PAY[k - 10 - d] when k >= 10 + d; else a constant or a digit of DEC(PLEN)"
(R126), and the read exists only inside PAY (R54). -/
def State.readFchar (s : State) (k : Nat) : Except Fault Ch :=
  if k < 10 + digits s.plen then .ok (s.fchar k) else s.readPay (k - 10 - digits s.plen)

end Sys2Proof.Machine
end

