-- ==== Sys2Proof/Machine/Flags.lean ====
section
/-! DEFINITION. The flags: the STATUS word (10_state.md R27) and its codes (60_exceptions.md R196, R197), the marker
flag MATCH (R138) and the numeral flags LBAD, LZ, LOVF with the accumulator LACC (40_primitives.md R109, R110). -/

namespace Sys2Proof.Machine

/-- RESULT codes (R196). -/
def Result.code : Result → BitVec 3
  | .ok => 0#3
  | .notEncoded => 1#3
  | .insufficientCapacity => 2#3
  | .parseError => 3#3

/-- CAUSE codes (R197). -/
def Cause.code : Cause → BitVec 3
  | .noCause => 0#3
  | .exhausted => 1#3
  | .empty => 2#3
  | .notDecimal => 3#3
  | .range => 4#3
  | .overrun => 5#3

/-- One bit. -/
def bit (b : Bool) : BitVec 1 := BitVec.ofBool b

/-- STATUS: CAUSE 8:6, RESULT 5:3, ENC 2, DONE 1, BUSY 0 (R27). -/
def State.statusWord (s : State) : BitVec 9 :=
  s.cause.code ++ s.result.code ++ bit s.enc ++ bit s.done ++ bit s.busy

/-- D_MARK on a complete character, number k, in ACC: "if ACC /= MARKER[k] then MATCH <- 0" (R138, R115). -/
def State.matchChar (s : State) (k : Nat) : State :=
  if s.acc ≠ markerChar k then { s with matched := false } else s

/-- 10 x LACC + digit, exact (R109, R114). -/
def State.nextValue (s : State) : Nat := 10 * s.lacc + digitVal s.acc

/-- LZ after the character in ACC: the first accumulated character was `0` (R110, R151). -/
def State.nextLz (s : State) : Bool :=
  s.lz || (isDigit s.acc && decide (s.dcnt = 0) && decide (s.acc = 0x30#8))

/-- LBAD after the character in ACC: it is no digit, or it follows a leading `0` (R110, R151). -/
def State.nextLbad (s : State) : Bool :=
  s.lbad || !isDigit s.acc || (decide (1 ≤ s.dcnt) && s.nextLz)

/-- LOVF after the character in ACC: sticky, the value has exceeded LMAX (R109, R151). -/
def State.nextLovf (s : State) : Bool :=
  s.lovf || (isDigit s.acc && decide (s.lmax < s.nextValue))

/-- LACC after the character in ACC: t mod 2^LW on a digit (R109, R151). -/
def State.nextLacc (s : State) : Nat :=
  if isDigit s.acc then s.nextValue % 2 ^ s.cfg.lw else s.lacc

/-- D_LEN on a complete character other than the terminator: accumulate ACC (R151). -/
def State.accumulate (s : State) : State :=
  { s with
    lbad := s.nextLbad, lz := s.nextLz, lovf := s.nextLovf, lacc := s.nextLacc, dcnt := s.dcnt + 1 }

/-- Read the pixel at the cursor: shift its symbol into ACC and advance N (R138, R151, R169). -/
def State.readSymbol (s : State) : Except Fault State :=
  match s.readPixel s.n with
  | .ok p => .ok { s with acc := shiftIn s.acc (extract p), n := s.n + 1 }
  | .error f => .error f

end Sys2Proof.Machine
end

