-- ==== Sys2Proof/Machine/Encode.lean ====
section
/-! DEFINITION. ENCODE (41_encode.md). -/

namespace Sys2Proof.Machine

/-- Step E_CHECK (R125): the capacity test, before any pixel is touched (R123). -/
def encodeCheck (s : State) : State :=
  if s.npix < reqPixels s.plen then s.finish .insufficientCapacity .noCause
  else { s with phase := .eWrite }

/-- Step E_WRITE (R126): one pixel, read and written back with the next symbol; or the closing step. -/
def encodeWrite (s : State) : Except Fault State :=
  if s.n < reqPixels s.plen then
    match s.readFchar (s.n / 4) with
    | .error f => .error f
    | .ok c =>
      match s.readPixel s.n with
      | .error f => .error f
      | .ok p =>
        match s.writePixel s.n (embed p (symOf c (s.n % 4))) with
        | .error f => .error f
        | .ok t => .ok { t with n := s.n + 1 }
  else .ok (s.finish .ok .noCause)

/-- The steps of ENCODE by phase (R32, R210). -/
def encodeStep (s : State) : Except Fault State :=
  match s.phase with
  | .eCheck => .ok (encodeCheck s)
  | .eWrite => encodeWrite s
  | .idle => .error .noStepRule
  | .dMark => .error .noStepRule
  | .dLen => .error .noStepRule
  | .dBound => .error .noStepRule
  | .dXtr => .error .noStepRule

/-- ENCODE takes at most REQ + 2 steps (R127, R209). -/
def encodeBound (s : State) : Nat := reqPixels s.plen + 2

/-- ENCODE (R120, R121), command word 0. -/
def execEncode (s : State) : Host.Outcome State Fault Refusal :=
  s.issue (encodeCmd .encode) encodeStep (encodeBound s)

end Sys2Proof.Machine
end

