-- ==== Sys2Proof/Machine/Detect.lean ====
section
/-! DEFINITION. DETECT (42_detect.md), and its phase D_MARK, which DECODE shares. -/

namespace Sys2Proof.Machine

/-- The closing part of D_MARK (R138). -/
def markClose (s : State) : State :=
  let t := { s with enc := s.matched }
  if decodeCmd s.op = .detect then t.finish .ok .noCause
  else if s.matched = false then t.finish .notEncoded .noCause
  else { t with phase := .dLen }

/-- Step D_MARK (R138): one pixel of the marker; or the closing step, at once when NPIX < 36. -/
def markStep (s : State) : Except Fault State :=
  if s.npix < 36 then .ok (markClose { s with matched := false })
  else if s.n < 36 then
    match s.readSymbol with
    | .error f => .error f
    | .ok t => .ok (if t.n % 4 = 0 then t.matchChar (t.n / 4 - 1) else t)
  else .ok (markClose s)

/-- The steps of DETECT by phase (R32, R210). -/
def detectStep (s : State) : Except Fault State :=
  match s.phase with
  | .dMark => markStep s
  | .idle => .error .noStepRule
  | .eCheck => .error .noStepRule
  | .eWrite => .error .noStepRule
  | .dLen => .error .noStepRule
  | .dBound => .error .noStepRule
  | .dXtr => .error .noStepRule

/-- DETECT takes at most 37 steps (R139, R209). -/
def detectBound (_ : State) : Nat := 37

/-- DETECT (R135, R136), command word 1. -/
def execDetect (s : State) : Host.Outcome State Fault Refusal :=
  s.issue (encodeCmd .detect) detectStep (detectBound s)

end Sys2Proof.Machine
end

