-- ==== Sys2Proof/Machine/Getlen.lean ====
section
/-! DEFINITION. GETLEN (43_getlen.md), and its phase D_LEN, which DECODE shares. -/

namespace Sys2Proof.Machine

/-- D_LEN at the terminator (R151): EMPTY, then NOT_DECIMAL, then RANGE, else the parse is good. -/
def lenTerminator (s : State) : State :=
  if s.dcnt = 0 then s.finish .parseError .empty
  else if s.lbad then s.finish .parseError .notDecimal
  else if s.lovf then s.finish .parseError .range
  else
    let t := { s with len := s.lacc }
    if decodeCmd s.op = .getlen then t.finish .ok .noCause else { t with phase := .dBound }

/-- Step D_LEN (R151): one pixel of the length field; or EXHAUSTED when none is left. -/
def lenStep (s : State) : Except Fault State :=
  if s.npix ≤ s.n then .ok (s.finish .parseError .exhausted)
  else
    match s.readSymbol with
    | .error f => .error f
    | .ok t =>
      .ok (if t.n % 4 = 0 then (if t.acc = delim then lenTerminator t else t.accumulate) else t)

/-- The steps of GETLEN by phase (R32, R210). -/
def getlenStep (s : State) : Except Fault State :=
  match s.phase with
  | .dLen => lenStep s
  | .idle => .error .noStepRule
  | .eCheck => .error .noStepRule
  | .eWrite => .error .noStepRule
  | .dMark => .error .noStepRule
  | .dBound => .error .noStepRule
  | .dXtr => .error .noStepRule

/-- GETLEN takes at most max(NPIX - 36, 0) + 1 steps (R152, R209). -/
def getlenBound (s : State) : Nat := (s.npix - 36) + 1

/-- GETLEN (R145, R146), command word 2. -/
def execGetlen (s : State) : Host.Outcome State Fault Refusal :=
  s.issue (encodeCmd .getlen) getlenStep (getlenBound s)

end Sys2Proof.Machine
end

