-- ==== Sys2Proof/Machine/Extract.lean ====
section
/-! DEFINITION. DECODE (44_decode.md): the phases D_MARK and D_LEN, then D_BOUND and D_XTR. -/

namespace Sys2Proof.Machine

/-- Step D_BOUND (R168): the header size, and the overrun test before any payload pixel is read (R165). -/
def boundStep (s : State) : State :=
  let t := { s with hdr := hdrPixels s.len }
  if s.npix < hdrPixels s.len + 4 * s.len then t.finish .parseError .overrun
  else { t with n := hdrPixels s.len, phase := .dXtr }

/-- Step D_XTR (R169): one payload pixel, and at each fourth the character to PAY; or the closing step. -/
def extractStep (s : State) : Except Fault State :=
  if s.n < s.hdr + 4 * s.len then
    match s.readSymbol with
    | .error f => .error f
    | .ok t => if t.n % 4 = 0 then t.writePay ((t.n - t.hdr) / 4 - 1) t.acc else .ok t
  else .ok (s.finish .ok .noCause)

/-- The steps of DECODE by phase (R32, R167, R210). -/
def decodeStep (s : State) : Except Fault State :=
  match s.phase with
  | .dMark => markStep s
  | .dLen => lenStep s
  | .dBound => .ok (boundStep s)
  | .dXtr => extractStep s
  | .idle => .error .noStepRule
  | .eCheck => .error .noStepRule
  | .eWrite => .error .noStepRule

/-- DECODE takes at most NPIX + 4 steps (R171, R209). -/
def decodeBound (s : State) : Nat := s.npix + 4

/-- DECODE (R160, R161), command word 3. -/
def execDecode (s : State) : Host.Outcome State Fault Refusal :=
  s.issue (encodeCmd .decode) decodeStep (decodeBound s)

end Sys2Proof.Machine
end

