-- ==== Sys2Proof/Machine/Dispatch.lean ====
section
/-! DEFINITION. The meaning of each instruction: one arm per constructor, one direct call. -/

namespace Sys2Proof.Machine

def exec (i : Instr) (s : State) : Host.Outcome State Fault Refusal :=
  match i with
  | .encode => Sys2Proof.Machine.execEncode s
  | .detect => Sys2Proof.Machine.execDetect s
  | .getlen => Sys2Proof.Machine.execGetlen s
  | .decode => Sys2Proof.Machine.execDecode s

end Sys2Proof.Machine
end

