-- ==== Sys2Proof/Machine/Block.lean ====
section
/-! DEFINITION. The block's own turn: one step of the operation in progress (10_state.md R20, R31, R32). -/

namespace Sys2Proof.Machine

/-- One step of the operation latched in OP (R31, R32). -/
def blockStep (s : State) : Except Fault State :=
  match decodeCmd s.op with
  | .encode => encodeStep s
  | .detect => detectStep s
  | .getlen => getlenStep s
  | .decode => decodeStep s

/-- The block's turn: it "has steps only while BUSY = 1" (R20); idle, it does nothing (R41, R225). -/
def blockTurn (s : State) : Host.Outcome State Fault Refusal :=
  if s.busy then outcomeOf (blockStep s) else .next s

end Sys2Proof.Machine
end

