-- ==== Sys2Proof/Machine/Host.lean ====
section
/-! DEFINITION. The host's moves: the CSR port (10_state.md R23, R34, R36), the pixel and payload ports, the reset
event, polling, and the pseudo-instructions of a host script (30_encoding.md R93). -/

namespace Sys2Proof.Machine

/-- The width of register number k, 0 where k selects no register (R23). -/
def State.csrWidth (s : State) (k : Nat) : Nat :=
  match k with
  | 0 => s.cfg.dw
  | 1 => s.cfg.dw
  | 2 => s.cfg.lw
  | 3 => 2
  | 4 => 9
  | 5 => s.cfg.lw
  | _ => 0

/-- What a read of STATUS returns: the word of R27, and while BUSY = 1 "the values set by rule R35 (BUSY = 1, all else
0)" (R36; log 16). -/
def State.statusRead (s : State) : BitVec 9 := if s.busy then 1#9 else s.statusWord

/-- What a read of LEN returns: the register, and while BUSY = 1 the 0 that R35 set (R36; log 16). -/
def State.lenRead (s : State) : Nat := if s.busy then 0 else s.len

/-- CsrRead(k) (R23): CMD reads 0, numbers 6 and above read 0. No side effect, at any time (R36). -/
def State.csrRead (s : State) (k : Nat) : Nat :=
  match k with
  | 0 => s.gw
  | 1 => s.gh
  | 2 => s.plen
  | 3 => 0
  | 4 => s.statusRead.toNat
  | 5 => s.lenRead
  | _ => 0

/-- What a CSR write does to the registers, BUSY being 0 (R23, R34, R36). -/
def State.csrWriteIdle (s : State) (k v : Nat) : State :=
  match k with
  | 0 => { s with gw := v }
  | 1 => { s with gh := v }
  | 2 => { s with plen := v }
  | 3 => s.start (BitVec.ofNat 2 v)
  | _ => s

/-- CsrWrite(k, v): a value wider than the register is refused (R23; log 8); a write to a number that selects no
register is ignored (R23), and so is every write while BUSY = 1 (R34, R36). -/
def State.csrWrite (s : State) (k v : Nat) : Host.Outcome State Fault Refusal :=
  if k < 6 ∧ 2 ^ s.csrWidth k ≤ v then .refused (.valueTooWide k v)
  else if s.busy then .next s
  else .next (s.csrWriteIdle k v)

/-- A pair that some GW and GH of DW bits make valid: both below 2^DW - 1 (R24, R50; log 6). -/
def State.pairInSpace (s : State) (x y : Nat) : Bool :=
  decide (x + 1 < 2 ^ s.cfg.dw) && decide (y + 1 < 2 ^ s.cfg.dw)

/-- The host's PixRead: not while BUSY = 1 (R231, U4; log 7). -/
def State.hostPixRead (s : State) (x y : Nat) : Host.Outcome State Fault Refusal :=
  if s.busy then .refused .hostAccessWhileBusy
  else if s.pairInSpace x y then .next (s.setReply (.pixel (s.pixAt x y)))
  else .fault .pairOutsideSpace

/-- The host's PixWrite: not while BUSY = 1 (R231, U4; log 7). -/
def State.hostPixWrite (s : State) (x y : Nat) (v : Pixel) : Host.Outcome State Fault Refusal :=
  if s.busy then .refused .hostAccessWhileBusy
  else if s.pairInSpace x y then .next (s.setPix x y v)
  else .fault .pairOutsideSpace

/-- The host's PayRead: not while BUSY = 1 (R231, U4; log 7). -/
def State.hostPayRead (s : State) (i : Nat) : Host.Outcome State Fault Refusal :=
  if s.busy then .refused .hostAccessWhileBusy
  else
    match s.readPay i with
    | .ok c => .next (s.setReply (.char c))
    | .error f => .fault f

/-- The host's PayWrite: not while BUSY = 1 (R231, U4; log 7). -/
def State.hostPayWrite (s : State) (i : Nat) (c : Ch) : Host.Outcome State Fault Refusal :=
  if s.busy then .refused .hostAccessWhileBusy
  else outcomeOf (s.writePay i c)

/-- Set the dimensions: two register writes (R93's SETDIM, R178 step 2). -/
def dimMoves (w h : Nat) : List HostMove := [.csrWrite 0 w, .csrWrite 1 h]

/-- Load a text: PAY[i] <- text[i], then PLEN <- |text| (R93's LOADPAY, R178 step 3). -/
def textMoves (text : List Ch) : List HostMove :=
  (List.range text.length).map (fun i => HostMove.payWrite i (text.getD i 0#8)) ++ [.csrWrite 2 text.length]

/-- The port moves that a pseudo-instruction stands for (R93); SETPIX and XORPIX need n < NPIX (R14). -/
def State.expandLine (s : State) : HostLine → Except Fault (List HostMove)
  | .setDim w h => .ok (dimMoves w h)
  | .loadPay text => .ok (textMoves text)
  | .fill v =>
    .ok ((List.range s.npix).map (fun n => HostMove.pixWrite (s.coord n).1 (s.coord n).2 v))
  | .setPix n v =>
    if n < s.npix then .ok [.pixWrite (s.coord n).1 (s.coord n).2 v] else .error .pixelOutsideGrid
  | .xorPix n m =>
    if n < s.npix then
      .ok [.pixRead (s.coord n).1 (s.coord n).2,
        .pixWrite (s.coord n).1 (s.coord n).2 (s.pixel n ^^^ m)]
    else .error .pixelOutsideGrid

/-- Poll STATUS until DONE = 1 (R93): at "BUSY = 0 and DONE = 1" (R209) the poll ends and the host goes on with `after`;
else the block takes its turn and the host polls again. -/
def State.poll (s : State) (after : List HostMove) : Host.Outcome State Fault Refusal :=
  if s.done && !s.busy then
    .next ((s.setHost after).setReply (.csr 4 (s.csrRead 4)))
  else blockTurn s

/-- A host move in state s, whose list of moves to come is `m :: after`. (`step` runs a command line itself, as the
operation it decodes to; here the line is only spelled out, R93: the CMD write, then the poll.) -/
def hostTurn (s : State) (m : HostMove) (after : List HostMove) : Host.Outcome State Fault Refusal :=
  let t := s.setHost after
  match m with
  | .command w => .next (t.setHost (.csrWrite 3 w.toNat :: .waitDone :: after))
  | .csrWrite k v => t.csrWrite k v
  | .csrRead k => .next (t.setReply (.csr k (t.csrRead k)))
  | .pixWrite x y v => t.hostPixWrite x y v
  | .pixRead x y => t.hostPixRead x y
  | .payWrite i c => t.hostPayWrite i c
  | .payRead i => t.hostPayRead i
  | .reset => .next t.resetRegisters
  | .waitDone => s.poll after
  | .letRun => blockTurn t
  | .line l =>
    match t.expandLine l with
    | .ok moves => .next (t.setHost (moves ++ after))
    | .error f => .fault f

/-- The next step when the host's next move is no command line: the host's move if there is one, else the block's turn. -/
def otherTurn (s : State) : Host.Outcome State Fault Refusal :=
  match s.host with
  | [] => blockTurn s
  | m :: after => hostTurn s m after

/-- Fetching: when the host's next move is a command line, the operation its byte decodes to, with the state in which
it runs: the host then polls until DONE = 1 (R93). -/
def State.fetchCommand (s : State) : Option (Except DecodeError Instr × State) :=
  match s.host with
  | .command w :: after => some (decodeByte w, s.setHost (.waitDone :: after))
  | _ => none

/-- The host's moves with a command line for the byte w in front (`State.withFetchWord`). -/
def State.withCommand (s : State) (w : BitVec 8) : State := s.setHost (.command w :: s.host)

end Sys2Proof.Machine
end

