-- ==== Sys2Proof/Machine/Step.lean ====
section
/-! DEFINITION. One step of the machine: a command line runs its operation, any other move of the host is made, and with
no move to make the block takes its turn. -/

namespace Sys2Proof.Machine

/-- One step (log 3): a command line in front of the host's moves runs the operation it decodes to. -/
def step (s : State) : Host.Outcome State Fault Refusal :=
  match s.fetchCommand with
  | some (.ok i, t) => exec i t
  | some (.error e, _) => .refused (.badCommand e)
  | none => otherTurn s

/-- The same state with a command line for the table's word as the host's next move (log 13). -/
def State.withFetchWord (s : State) (_nbits w : Nat) : State := s.withCommand (BitVec.ofNat 8 w)

end Sys2Proof.Machine
end

