-- ==== Sys2Proof/Machine/FunctionLevel.lean ====
section
/-! DEFINITION. The function level of the four operations (00_scope.md R15: "normative"), as the spec writes it: what each
reports and where it writes, from the state at its start. The meanings run the step rules; the statements say that they
end where these functions say. -/

namespace Sys2Proof.Machine

/-- What an operation leaves in the result registers (R37). -/
structure Report where
  result : Result
  cause : Cause
  enc : Bool
  len : Nat
  deriving DecidableEq, Repr

/-- ISENC: at least 36 pixels, and characters 0 .. 8 are MARKER (R136). -/
def State.isEncoded (s : State) : Bool :=
  decide (36 ≤ s.npix) && (List.range 9).all (fun k => decide (s.charAt k = markerChar k))

/-- avail(k): character k lies wholly inside the grid (R146). -/
def State.avail (s : State) (k : Nat) : Bool := decide (4 * k + 3 < s.npix)

/-- The loop of R146 from character k with the string `acc` so far; `none` is "grid exhausted". The grid has fewer
characters than pixels, so NPIX rounds are enough. -/
def State.scanFrom (s : State) : Nat → Nat → List Ch → Option (List Ch)
  | 0, _, _ => none
  | fuel + 1, k, acc =>
    if s.avail k then
      if s.charAt k = delim then some acc
      else State.scanFrom s fuel (k + 1) (acc ++ [s.charAt k])
    else none

/-- The scan of R146: the characters from character 9 up to the terminator, or `none` (EXHAUSTED). -/
def State.scan (s : State) : Option (List Ch) := s.scanFrom s.npix 9 []

/-- The scan and parse of R146: the length, or the cause of the PARSE_ERROR. -/
def State.lengthField (s : State) : Except Cause Nat :=
  match s.scan with
  | none => .error .exhausted
  | some str => parse s.lmax str

/-- ENCODE's report (R121). -/
def State.encodeReport (s : State) : Report :=
  if s.npix < reqPixels s.plen then ⟨.insufficientCapacity, .noCause, false, 0⟩
  else ⟨.ok, .noCause, false, 0⟩

/-- DETECT's report (R136). -/
def State.detectReport (s : State) : Report := ⟨.ok, .noCause, s.isEncoded, 0⟩

/-- GETLEN's report (R146). -/
def State.getlenReport (s : State) : Report :=
  match s.lengthField with
  | .ok l => ⟨.ok, .noCause, false, l⟩
  | .error c => ⟨.parseError, c, false, 0⟩

/-- DECODE's report (R161, R172). -/
def State.decodeReport (s : State) : Report :=
  if s.isEncoded then
    match s.lengthField with
    | .error c => ⟨.parseError, c, true, 0⟩
    | .ok l =>
      if s.npix < hdrPixels l + 4 * l then ⟨.parseError, .overrun, true, l⟩
      else ⟨.ok, .noCause, true, l⟩
  else ⟨.notEncoded, .noCause, false, 0⟩

/-- The grid after an ENCODE (R121), word by word. -/
def State.encodedPixel (s : State) (n : Nat) : Pixel :=
  if s.npix < reqPixels s.plen then s.pixel n
  else if n < reqPixels s.plen then embed (s.pixel n) (s.fsym n)
  else s.pixel n

/-- PAY after a DECODE (R161), character by character. -/
def State.decodedChar (s : State) (i : Nat) : Ch :=
  if s.decodeReport.result = .ok ∧ i < s.decodeReport.len then
    s.charAt (hdrPixels s.decodeReport.len / 4 + i)
  else s.payAt i

end Sys2Proof.Machine
end

