-- ==== Sys2Proof/Machine/Sequences.lean ====
section
/-! DEFINITION. The host's sequences around the block (45_host_collaborators.md R178, R179): the document's `encode` and
`decode` on a PixelGrid, run move by move through the block's ports, with the document's error names (60_exceptions.md
R218). The cipher is outside the block (00_scope.md R7): two uninterpreted functions (93_implementation_defined.md U7),
with the IV an explicit argument (U6). -/

namespace Sys2Proof.Machine

/-! ## The caller's grid (R184, R185) -/

/-- The document's PixelGrid: it "must expose `width`, `height`, `getPixel(x,y) -> int32`, `setPixel(x,y,int32)`" (R184).
It is the caller's object, no part of State; `getPixel` means nothing outside `width` and `height`. -/
structure PixelGrid where
  width : Nat
  height : Nat
  getPixel : Nat → Nat → Pixel

/-- `setPixel(x, y, v)` (R184). -/
def PixelGrid.setPixel (g : PixelGrid) (x y : Nat) (v : Pixel) : PixelGrid :=
  { g with getPixel := fun a b => if a = x ∧ b = y then v else g.getPixel a b }

/-- R178 step 2: "GW <- width; GH <- height; PIX[IDX(x, y)] <- getPixel(x, y) for every valid (x, y)", in raster order. -/
def gridMoves (g : PixelGrid) : List HostMove :=
  dimMoves g.width g.height ++
  (List.range (g.width * g.height)).map (fun n =>
    HostMove.pixWrite (n / g.height) (n % g.height) (g.getPixel (n / g.height) (n % g.height)))

/-- R178 step 5: "read the grid back: setPixel(x, y, PIX[IDX(x, y)])" for every valid (x, y), in raster order. -/
def PixelGrid.readBack (g : PixelGrid) (s : State) : PixelGrid :=
  (List.range (g.width * g.height)).foldl
    (fun r n => r.setPixel (n / g.height) (n % g.height) (s.pixAt (n / g.height) (n % g.height))) g

/-! ## What a host reports -/

/-- What a host reports that is no normal return (R218, R202). The last three are the model's own and not the document's:
MODEL'S CHOICE (log 23), because R178 and R179 give the host's report only for what they foresee. -/
inductive HostError where
  /-- `NotEncodedResult`: "no data encoded" (R179 step 3) -/
  | notEncodedResult
  /-- `InsufficientCapacityError` (R178 step 5) -/
  | insufficientCapacityError
  /-- `ParseError`, "with CAUSE" (R179 step 3) -/
  | parseError (cause : Cause)
  /-- `CryptoError`, of the host's cipher, on encrypt or on decrypt (R178 step 1, R179 step 5, R202) -/
  | cryptoError
  /-- MODEL'S CHOICE (log 23): a move of the sequence is an access that does not exist. The case the spec leaves open is
  a text longer than LMAX, which fits neither PAY nor PLEN: its character LMAX is `payOutsideBuffer`. -/
  | machineFault (f : Fault)
  /-- MODEL'S CHOICE (log 23): a move of the sequence is no move of the host: a grid dimension that does not fit GW or GH
  is `valueTooWide` (R23); a sequence begun while BUSY = 1 is `hostAccessWhileBusy` (R231). -/
  | machineRefused (r : Refusal)
  /-- MODEL'S CHOICE (log 23): DONE = 1 was not seen within the number of steps that any operation in progress needs
  (R209). No sequence begun in a state of the invariant reports it. -/
  | noEnd
  deriving DecidableEq, Repr

/-- R218: the report of a RESULT with its CAUSE; `none` is a normal return. -/
def resultReport : Result → Cause → Option HostError
  | .ok, _ => none
  | .notEncoded, _ => some .notEncodedResult
  | .insufficientCapacity, _ => some .insufficientCapacityError
  | .parseError, c => some (.parseError c)

/-! ## Running a sequence -/

/-- Take steps of the machine until the host has no move left, at most `k` of them. -/
def runScript : Nat → State → Except HostError State
  | 0, s => if s.host = [] then .ok s else .error .noEnd
  | k + 1, s =>
    if s.host = [] then .ok s
    else
      match step s with
      | .next t => runScript k t
      | .fault f => .error (.machineFault f)
      | .refused r => .error (.machineRefused r)

/-- Steps enough for a script of moves and one command: one for each move, the end of the wait, and the steps of an
operation that is still in progress when the script begins (R209). -/
def scriptBound (s : State) (moves : List HostMove) : Nat :=
  moves.length + 1 + (reqPixels s.plen + s.npix + 40)

/-- Make the moves and give the operation, through the ports; "wait until DONE = 1"; then read STATUS and report (R178
steps 2 to 5, R179 steps 1 to 3). The end state is that of the normal return. -/
def runSequence (moves : List HostMove) (i : Instr) (s : State) : Except HostError State :=
  let script := moves ++ [.command ((encodeCmd i).setWidth 8)]
  match runScript (scriptBound s script) (s.setHost script) with
  | .error e => .error e
  | .ok t =>
    match resultReport t.result t.cause with
    | none => .ok t
    | some e => .error e

/-- The cipher as U7 has it, with R178's "may fail with CryptoError (cipher initialisation)" on encrypt as well (R202; log
21): `none` is a CryptoError, and nothing else is known of it. -/
structure Cipher (Msg Pwd Iv : Type) where
  encrypt : Msg → Pwd → Iv → Option (List Ch)
  decrypt : List Ch → Pwd → Iv → Option Msg

/-- The one law assumed of a cipher (R182, U7): decrypt undoes an encrypt that succeeded, under the same password and IV. -/
def Cipher.Inverse {Msg Pwd Iv : Type} (cipher : Cipher Msg Pwd Iv) : Prop :=
  ∀ m p iv text, cipher.encrypt m p iv = some text → cipher.decrypt text p iv = some m

/-- R178 from step 2 on, the text T given: load the grid, load the text, give ENCODE, wait, report, read the grid back. A
text longer than LMAX ends as `machineFault .payOutsideBuffer`: MODEL'S CHOICE (log 23), the spec does not say what the
host reports. -/
def hostEncodeText (g : PixelGrid) (text : List Ch) (s : State) : Except HostError PixelGrid :=
  match runSequence (gridMoves g ++ textMoves text) .encode s with
  | .error e => .error e
  | .ok t => .ok (g.readBack t)

/-- The document's `encode(pixelGrid, message, password)` (R178), from any state of the block. -/
def hostEncode {Msg Pwd Iv : Type} (cipher : Cipher Msg Pwd Iv) (g : PixelGrid) (m : Msg) (p : Pwd) (iv : Iv)
    (s : State) : Except HostError PixelGrid :=
  match cipher.encrypt m p iv with
  | none => .error .cryptoError
  | some text => hostEncodeText g text s

/-- The document's `decode(pixelGrid, password)` (R179), from any state of the block. -/
def hostDecode {Msg Pwd Iv : Type} (cipher : Cipher Msg Pwd Iv) (g : PixelGrid) (p : Pwd) (iv : Iv) (s : State) :
    Except HostError Msg :=
  match runSequence (gridMoves g) .decode s with
  | .error e => .error e
  | .ok t =>
    match cipher.decrypt (t.payText t.len) p iv with
    | some m => .ok m
    | none => .error .cryptoError

end Sys2Proof.Machine
end

