-- ==== Sys2Proof/Safety.lean ====
section
/-! DEFINITION. What the statements are said in: the invariant of the machine (what holds of every state a run reaches)
and the end of an operation. -/

namespace Sys2Proof.Machine

/-- Every register holds a value of its width (10_state.md R23, R31; 00_scope.md R12). -/
def State.registersFit (s : State) : Prop :=
  1 ≤ s.cfg.dw ∧ 1 ≤ s.cfg.lw ∧ s.gw < 2 ^ s.cfg.dw ∧ s.gh < 2 ^ s.cfg.dw ∧
  s.plen < 2 ^ s.cfg.lw ∧ s.len < 2 ^ s.cfg.lw ∧ s.lacc < 2 ^ s.cfg.lw

/-- Only places that exist are listed: pairs below 2^DW - 1 (R24, R50) and indices below LMAX (R54). -/
def State.placesExist (s : State) : Prop :=
  (∀ e ∈ s.pix, s.pairInSpace e.1.1 e.1.2 = true) ∧ (∀ e ∈ s.pay, e.1 < s.lmax)

/-- STATUS (R27, R36, R197): a cause with PARSE_ERROR and only then; while BUSY = 1, DONE, RESULT and CAUSE are as
command start left them. -/
def State.statusCoherent (s : State) : Prop :=
  (s.result = .parseError ↔ s.cause ≠ .noCause) ∧
  (s.busy = true → s.done = false ∧ s.result = .ok ∧ s.cause = .noCause)

/-- What DCNT, LACC, LOVF, LBAD and LZ say of the characters accumulated so far (R109, R110, R152): with LBAD = 0 and
LOVF = 0 they are the DCNT digits of LACC. -/
def State.numeralCoherent (s : State) : Prop :=
  (s.dcnt = 0 → s.lacc = 0 ∧ s.lovf = false ∧ s.lbad = false ∧ s.lz = false) ∧
  (s.lbad = false → s.lz = true → s.dcnt = 1 ∧ s.lacc = 0 ∧ s.lovf = false) ∧
  (s.lbad = false → s.lz = false → s.lovf = false → 1 ≤ s.dcnt → 1 ≤ s.lacc ∧ digits s.lacc = s.dcnt)

/-- What holds in each PHASE (R32, R210): BUSY, the operation in OP, the cursor and the bounds that keep every access
inside the grid (R61), the length field's registers, and HDR = N at the payload (R164). -/
def State.phaseCoherent (s : State) : Prop :=
  match s.phase with
  | .idle => s.busy = false
  | .eCheck => s.busy = true ∧ decodeCmd s.op = .encode ∧ s.n = 0 ∧ s.enc = false ∧ s.len = 0
  | .eWrite =>
    s.busy = true ∧ decodeCmd s.op = .encode ∧ s.n ≤ reqPixels s.plen ∧ reqPixels s.plen ≤ s.npix ∧
    s.enc = false ∧ s.len = 0
  | .dMark =>
    s.busy = true ∧ (decodeCmd s.op = .detect ∨ decodeCmd s.op = .decode) ∧ s.n ≤ 36 ∧
    (s.npix < 36 → s.n = 0) ∧ s.dcnt = 0 ∧ s.numeralCoherent ∧ s.enc = false ∧ s.len = 0
  | .dLen =>
    s.busy = true ∧
    (decodeCmd s.op = .getlen ∧ s.enc = false ∨ decodeCmd s.op = .decode ∧ s.enc = true ∧ 36 ≤ s.npix) ∧
    36 + 4 * s.dcnt ≤ s.n ∧ s.n < 36 + 4 * s.dcnt + 4 ∧ (s.n = 36 ∨ s.n ≤ s.npix) ∧
    s.numeralCoherent ∧ s.len = 0
  | .dBound =>
    s.busy = true ∧ decodeCmd s.op = .decode ∧ s.enc = true ∧ s.n = hdrPixels s.len ∧ s.n ≤ s.npix
  | .dXtr =>
    s.busy = true ∧ decodeCmd s.op = .decode ∧ s.enc = true ∧ s.hdr = hdrPixels s.len ∧ s.hdr ≤ s.n ∧
    s.n ≤ s.hdr + 4 * s.len ∧ s.hdr + 4 * s.len ≤ s.npix

/-- The invariant: what every state that a run reaches satisfies. -/
def State.Inv (s : State) : Prop :=
  s.registersFit ∧ s.memoriesWf ∧ s.placesExist ∧ s.statusCoherent ∧ s.phaseCoherent

/-- A state in which a command is accepted: the invariant holds and BUSY = 0 (R34). -/
def State.Ready (s : State) : Prop := s.Inv ∧ s.busy = false

/-- The end of an operation (R209), with the result registers of `r` (R37) and everything an operation never writes as
it was in `s`: GW, GH, PLEN (R23), the parameters and the host's own fields. -/
def EndsWith (s t : State) (r : Report) : Prop :=
  t.busy = false ∧ t.done = true ∧ t.phase = .idle ∧
  t.result = r.result ∧ t.cause = r.cause ∧ t.enc = r.enc ∧ t.len = r.len ∧
  t.gw = s.gw ∧ t.gh = s.gh ∧ t.plen = s.plen ∧ t.cfg = s.cfg ∧ t.host = s.host ∧ t.reply = s.reply

/-- The end of an operation as `finish(r, c)` makes it (R205, R210): nothing is said of the hidden registers, which U8 leaves
open at BUSY = 0 (log 11). -/
def State.Finished (t : State) (r : Result) (c : Cause) : Prop :=
  t.phase = .idle ∧ t.busy = false ∧ t.done = true ∧ t.result = r ∧ t.cause = c

/-- The first pixel after the characters that the length field's scan reads: past the terminator, or the end of the grid
when there is none (R64's N_end, R152). -/
def State.scanEnd (s : State) : Nat :=
  match s.scan with
  | some str => 36 + 4 * (str.length + 1)
  | none => s.npix

/-- The caller's grid fits the registers GW and GH (R23, R24). -/
def PixelGrid.Fits (g : PixelGrid) (s : State) : Prop := g.width < 2 ^ s.cfg.dw ∧ g.height < 2 ^ s.cfg.dw

/-- The grid behind the port is the caller's grid (R178 step 2, R185). -/
def State.Holds (s : State) (g : PixelGrid) : Prop :=
  s.gw = g.width ∧ s.gh = g.height ∧ ∀ x y, x < g.width → y < g.height → s.pixAt x y = g.getPixel x y

/-- PIX and PAY read the same at every place. -/
def SamePix (s t : State) : Prop := ∀ x y, t.pixAt x y = s.pixAt x y

def SamePay (s t : State) : Prop := ∀ i, t.payAt i = s.payAt i

end Sys2Proof.Machine
end

