-- ==== Sys2Proof/Certificates/Slice0/Obligations.lean ====
section
/-! DEFINITION. The statements about the LsbCodec block, one definition each; the rules they formalise are in the docstrings. -/

open Sys2Proof Sys2Proof.Machine

/-! ## Reset, registers, commands -/

/-- R225, R41: the reset event, at any time, is one step that puts every register into its reset value, writes neither
PIX nor PAY, and leaves a block that does nothing until the host moves again. -/
def Obligations.ResetEventLeavesResetValues : Prop :=
  ∀ (s : State) (rest : List HostMove), s.host = .reset :: rest →
    ∃ t, step s = .next t ∧
      t.gw = 0 ∧ t.gh = 0 ∧ t.plen = 0 ∧ t.len = 0 ∧
      t.busy = false ∧ t.done = false ∧ t.enc = false ∧ t.result = .ok ∧ t.cause = .noCause ∧
      t.op = 0#2 ∧ t.phase = .idle ∧ t.n = 0 ∧ t.acc = 0#8 ∧ t.matched = false ∧ t.dcnt = 0 ∧ t.lacc = 0 ∧
      t.lovf = false ∧ t.lbad = false ∧ t.lz = false ∧ t.hdr = 0 ∧
      t.pix = s.pix ∧ t.pay = s.pay ∧ t.cfg = s.cfg ∧ t.host = rest ∧
      (rest = [] → step t = .next t)

/-- The state right after power-up and reset meets the invariant, for every DW and LW of at least 1; so does
`State.reset`. (The parameters of `State.reset` are the model's choice, log 1; the register values are R41's.) -/
def Obligations.ResetStateMeetsTheInvariant : Prop :=
  (∀ c : Config, c.wellFormed = true → (State.resetWith c).Ready) ∧ State.reset.Ready

/-- R34, R35: a CMD write with BUSY = 0 applies the command start and changes nothing else; with BUSY = 1 it changes
nothing, and so does a command given to the block as an instruction. -/
def Obligations.CommandIssueStartsOrIsIgnored : Prop :=
  (∀ (s : State) (c : CmdWord) (rest : List HostMove), s.host = .csrWrite 3 c.toNat :: rest → s.busy = false →
    ∃ t, step s = .next t ∧
      t.op = c ∧ t.busy = true ∧ t.done = false ∧ t.enc = false ∧ t.result = .ok ∧ t.cause = .noCause ∧ t.len = 0 ∧
      t.n = (if c = 2#2 then 36 else 0) ∧ t.acc = 0#8 ∧ t.matched = true ∧ t.dcnt = 0 ∧ t.lacc = 0 ∧
      t.lovf = false ∧ t.lbad = false ∧ t.lz = false ∧ t.hdr = 0 ∧
      t.phase = (if c = 0#2 then .eCheck else if c = 2#2 then .dLen else .dMark) ∧
      t.gw = s.gw ∧ t.gh = s.gh ∧ t.plen = s.plen ∧ t.pix = s.pix ∧ t.pay = s.pay ∧ t.cfg = s.cfg ∧
      t.host = rest ∧ t.reply = s.reply) ∧
  (∀ (s : State) (c : CmdWord) (rest : List HostMove), s.host = .csrWrite 3 c.toNat :: rest → s.busy = true →
    step s = .next (s.setHost rest)) ∧
  (∀ (i : Instr) (s : State), s.busy = true → exec i s = .next s)

/-- R23, R36: what a read of each register number returns, with no side effect on the block; writes to GW, GH and PLEN
take effect only with BUSY = 0; writes to STATUS and LEN, and to numbers that select no register, are ignored. -/
def Obligations.RegisterPortFollowsTheMap : Prop :=
  (∀ (s : State) (k : Nat) (rest : List HostMove), s.host = .csrRead k :: rest →
    step s = .next ((s.setHost rest).setReply (.csr k
        (if k = 0 then s.gw else if k = 1 then s.gh else if k = 2 then s.plen
         else if k = 4 then (if s.busy then 1 else s.statusWord.toNat)
         else if k = 5 then (if s.busy then 0 else s.len) else 0)))) ∧
  (∀ (s : State) (k v : Nat) (rest : List HostMove), s.host = .csrWrite k v :: rest → k ≠ 3 →
    (k < 6 → v < 2 ^ s.csrWidth k) →
    step s = .next (
      if s.busy then s.setHost rest
      else if k = 0 then { s.setHost rest with gw := v }
      else if k = 1 then { s.setHost rest with gh := v }
      else if k = 2 then { s.setHost rest with plen := v }
      else s.setHost rest))

/-- The fields of the STATUS word by bit position (R27), with the codes of R196 and R197. -/
def Obligations.StatusWordLayout : Prop :=
  ∀ s : State,
    s.statusWord.getLsbD 0 = s.busy ∧ s.statusWord.getLsbD 1 = s.done ∧ s.statusWord.getLsbD 2 = s.enc ∧
    (s.statusWord.extractLsb' 3 3).toNat =
      (match s.result with | .ok => 0 | .notEncoded => 1 | .insufficientCapacity => 2 | .parseError => 3) ∧
    (s.statusWord.extractLsb' 6 3).toNat =
      (match s.cause with
        | .noCause => 0 | .exhausted => 1 | .empty => 2 | .notDecimal => 3 | .range => 4 | .overrun => 5)

/-! ## The command word and the step -/

/-- OPC 0 is ENCODE, 1 DETECT, 2 GETLEN, 3 DECODE (R90), as words written out bit by bit, and all four values of OPC are
defined (R91). That the two bits stand in the low end of a byte whose other bits are clear is the model's choice (log 9). -/
def Obligations.CommandWordsDecode : Prop :=
  decodeByte 0b00000000#8 = .ok .encode ∧ decodeByte 0b00000001#8 = .ok .detect ∧
  decodeByte 0b00000010#8 = .ok .getlen ∧ decodeByte 0b00000011#8 = .ok .decode ∧
  (∀ w : CmdWord, encodeCmd (decodeCmd w) = w)

/-- Decode and encode agree: a well-formed operation's bytes decode to it with the rest of the bytes left over, and a byte
that decodes to an operation is that operation's only byte. -/
def Obligations.DecodeAndEncodeAgree : Prop :=
  (∀ (i : Instr) (rest : List (BitVec 8)), i.wellFormed = true → decodeBytes (encode i ++ rest) = .ok (i, rest)) ∧
  (∀ (b : BitVec 8) (i : Instr), decodeByte b = .ok i → encode i = [b] ∧ commandByteWellFormed b = true)

/-- A step runs the decoded instruction: with a command line in front of the host's moves, step is exec of the operation
its byte decodes to, the host then polling STATUS (R93); a byte that is no command word is refused by name (log 9). The
interface's `withFetchWord` puts exactly that instruction there. -/
def Obligations.StepRunsTheDecodedOperation : Prop :=
  (∀ (s : State) (w : BitVec 8) (rest : List HostMove) (i : Instr), s.host = .command w :: rest →
    decodeByte w = .ok i → step s = exec i (s.setHost (.waitDone :: rest))) ∧
  (∀ (s : State) (w : BitVec 8) (rest : List HostMove) (e : DecodeError), s.host = .command w :: rest →
    decodeByte w = .error e → step s = .refused (.badCommand e)) ∧
  (∀ (s : State) (i : Instr), step (s.withFetchWord 8 (encodeCmd i).toNat) =
    exec i (s.setHost (.waitDone :: s.host)))

/-- Whose turn it is (R20, R41, R93): with no host move to come a busy block takes one step and an idle one does nothing;
`letRun` is the same with the host's list one shorter; a poll takes block steps until BUSY = 0 and DONE = 1, and then ends
with the STATUS word. (The list of host moves is the model's own, log 3.) -/
def Obligations.BlockMovesWhileBusy : Prop :=
  (∀ s : State, s.host = [] → step s = if s.busy then outcomeOf (blockStep s) else .next s) ∧
  (∀ (s : State) (rest : List HostMove), s.host = .letRun :: rest →
    step s = if s.busy then outcomeOf (blockStep (s.setHost rest)) else .next (s.setHost rest)) ∧
  (∀ (s : State) (rest : List HostMove), s.host = .waitDone :: rest →
    step s =
      if s.busy then outcomeOf (blockStep s)
      else if s.done then .next ((s.setHost rest).setReply (.csr 4 s.statusWord.toNat))
      else .next s)

/-! ## Memory -/

/-- R52: IDX and COORD are inverse bijections between the valid pairs and 0 .. NPIX-1; PIX[n] is the word at COORD(n);
pixel 0 is (0, 0), pixel 1 is (0, 1) when H > 1, pixel H is (1, 0). -/
def Obligations.RasterOrderIsABijection : Prop :=
  ∀ s : State,
    (∀ n, n < s.npix → s.validPair (s.coord n).1 (s.coord n).2 = true ∧ s.idx (s.coord n).1 (s.coord n).2 = n ∧
      s.pixel n = s.pixAt (n / s.gh) (n % s.gh)) ∧
    (∀ x y, s.validPair x y = true → s.idx x y = x * s.gh + y ∧ s.idx x y < s.npix ∧ s.coord (s.idx x y) = (x, y)) ∧
    s.coord 0 = (0, 0) ∧ (1 < s.gh → s.coord 1 = (0, 1)) ∧ (0 < s.gh → s.coord s.gh = (1, 0))

/-- R30: the cursor kept as the pair (CX, CY): the pair of N has CY < H and N = CX * H + CY; one pixel on it is
CY + 1, or (CX + 1, 0) when CY + 1 = H; the grid is exhausted when CX = W. -/
def Obligations.CursorAsCoordinatePair : Prop :=
  ∀ (s : State) (n : Nat), 0 < s.gh →
    (s.coord n).2 < s.gh ∧ n = (s.coord n).1 * s.gh + (s.coord n).2 ∧
    s.coord (n + 1) =
      (if (s.coord n).2 + 1 = s.gh then ((s.coord n).1 + 1, 0) else ((s.coord n).1, (s.coord n).2 + 1)) ∧
    (n ≤ s.npix → ((s.coord n).1 = s.gw ↔ n = s.npix))

/-- The block's accesses (R51, R54, R61): for n < NPIX a write of PIX[n] replaces that word and no other, for i < LMAX a
write of PAY[i] replaces that character and no other, and reads give what was last written; outside, the access faults. -/
def Obligations.PortAccessesHitOnePlace : Prop :=
  (∀ (s : State) (n : Nat) (v : Pixel), n < s.npix →
    s.readPixel n = .ok (s.pixel n) ∧
    ∃ t, s.writePixel n v = .ok t ∧ t.readPixel n = .ok v ∧
      (∀ x y, (x, y) ≠ s.coord n → t.pixAt x y = s.pixAt x y) ∧ t = { s with pix := t.pix }) ∧
  (∀ (s : State) (i : Nat) (c : Ch), i < s.lmax →
    s.readPay i = .ok (s.payAt i) ∧
    ∃ t, s.writePay i c = .ok t ∧ t.readPay i = .ok c ∧ (∀ j, j ≠ i → t.payAt j = s.payAt j) ∧
      t = { s with pay := t.pay }) ∧
  (∀ (s : State) (n : Nat) (v : Pixel), s.npix ≤ n →
    s.readPixel n = .error .pixelOutsideGrid ∧ s.writePixel n v = .error .pixelOutsideGrid) ∧
  (∀ (s : State) (i : Nat) (c : Ch), s.lmax ≤ i →
    s.readPay i = .error .payOutsideBuffer ∧ s.writePay i c = .error .payOutsideBuffer)

/-- The host's port moves with BUSY = 0 (D2, R188): a write is followed by a read that returns it, and every other place
of both memories and every register stays. (Which pairs exist for the host is the model's reading, log 6.) -/
def Obligations.HostWritesThenReadsBack : Prop :=
  (∀ (s : State) (x y : Nat) (v : Pixel) (rest : List HostMove),
    s.host = .pixWrite x y v :: .pixRead x y :: rest → s.busy = false → s.pairInSpace x y = true →
    ∃ t u, step s = .next t ∧ step t = .next u ∧ u.reply = some (.pixel v) ∧ u.host = rest ∧
      (∀ a b, (a, b) ≠ (x, y) → u.pixAt a b = s.pixAt a b) ∧
      u = { s with pix := u.pix, host := rest, reply := u.reply }) ∧
  (∀ (s : State) (i : Nat) (c : Ch) (rest : List HostMove),
    s.host = .payWrite i c :: .payRead i :: rest → s.busy = false → i < s.lmax →
    ∃ t u, step s = .next t ∧ step t = .next u ∧ u.reply = some (.char c) ∧ u.host = rest ∧
      (∀ j, j ≠ i → u.payAt j = s.payAt j) ∧
      u = { s with pay := u.pay, host := rest, reply := u.reply })

/-- While BUSY = 1 the host has no move on PIX or PAY (R231, U4 `refuse`; log 7), and a CSR write wider than its register
is no move either (R23; log 8): the model refuses each by name. -/
def Obligations.HostMovesThatAreRefused : Prop :=
  (∀ (s : State) (m : HostMove) (rest : List HostMove), s.host = m :: rest → s.busy = true →
    ((∃ x y v, m = .pixWrite x y v) ∨ (∃ x y, m = .pixRead x y) ∨ (∃ i c, m = .payWrite i c) ∨
      (∃ i, m = .payRead i)) →
    step s = .refused .hostAccessWhileBusy) ∧
  (∀ (s : State) (k v : Nat) (rest : List HostMove), s.host = .csrWrite k v :: rest → k < 6 →
    2 ^ s.csrWidth k ≤ v → step s = .refused (.valueTooWide k v))

/-! ## Primitive functions -/

/-- R105 with R100's two forms of SPLIT: the laws of SPLIT, JOIN, EMBED and EXTRACT. -/
def Obligations.SymbolAndPixelLaws : Prop :=
  (∀ c : Ch, split c = [symOf c 0, symOf c 1, symOf c 2, symOf c 3]) ∧
  (∀ c : Ch, join (symOf c 0) (symOf c 1) (symOf c 2) (symOf c 3) = c) ∧
  (∀ a b c d : Symbol, split (join a b c d) = [a, b, c, d]) ∧
  (∀ (p : Pixel) (s : Symbol), extract (embed p s) = s) ∧
  (∀ (p : Pixel) (s : Symbol), (embed p s).extractLsb' 2 30 = p.extractLsb' 2 30) ∧
  (∀ p : Pixel, embed p (extract p) = p) ∧
  (∀ (p : Pixel) (s t : Symbol), embed (embed p s) t = embed p t)

/-- R106, R107: DEC and DIGITS by their recursions. -/
def Obligations.DecimalNumeralRecursion : Prop :=
  dec 0 = [0x30#8] ∧
  (∀ l, 1 ≤ l → l ≤ 9 → dec l = [BitVec.ofNat 8 (0x30 + l)]) ∧
  (∀ l, 10 ≤ l → dec l = dec (l / 10) ++ [BitVec.ofNat 8 (0x30 + l % 10)]) ∧
  (∀ l, digits l = (dec l).length) ∧ digits 0 = 1 ∧ (∀ l, l ≤ 9 → digits l = 1) ∧
  (∀ l, 10 ≤ l → digits l = 1 + digits (l / 10))

/-- R111: the laws of DEC, VAL, CANON, PARSE and DIGITS. -/
def Obligations.DecimalNumeralLaws : Prop :=
  (∀ l, canon (dec l) = true) ∧
  (∀ l, val (dec l) = l) ∧
  (∀ lmax l, l ≤ lmax → parse lmax (dec l) = .ok l) ∧
  (∀ s : List Ch, canon s = true → dec (val s) = s ∧ digits (val s) = s.length) ∧
  (∀ (l : Nat) (c : Ch), c ∈ dec l → c ≠ 0x21#8)

/-- R108, R110: PARSE by cases: EMPTY on the empty string; NOT_DECIMAL on a string that is DEC of no natural; RANGE on
DEC of a value above LMAX; the value otherwise. -/
def Obligations.ParseIsDecidedByTheNumeral : Prop :=
  ∀ lmax : Nat,
    parse lmax [] = .error .empty ∧
    (∀ s : List Ch, s ≠ [] → (∀ v, s ≠ dec v) → parse lmax s = .error .notDecimal) ∧
    (∀ v, lmax < v → parse lmax (dec v) = .error .range) ∧
    (∀ v, v ≤ lmax → parse lmax (dec v) = .ok v)

/-- R82: the lengths of the frame, and R122's "always a multiple of 4 and at least 44". -/
def Obligations.FrameLengths : Prop :=
  (∀ p : List Ch, (frame p).length = 10 + digits p.length + p.length) ∧
  (∀ l, reqPixels l = 4 * (10 + digits l + l) ∧ reqPixels l = hdrPixels l + 4 * l ∧
    hdrPixels l = 4 * (10 + digits l) ∧ reqPixels l % 4 = 0 ∧ 44 ≤ reqPixels l)

/-- R113: FCHAR(k) is the k-th character of FRAME(PAY[0 .. L-1]), and FSYM(n) is SPLIT(FCHAR(n div 4))[n mod 4], the
n-th symbol of the frame's stream. -/
def Obligations.FrameCharacterByCharacter : Prop :=
  ∀ s : State,
    (∀ k, k < frameChars s.plen → (frame (s.payText s.plen))[k]? = some (s.fchar k)) ∧
    (∀ k, k < 9 → s.fchar k = markerChar k) ∧
    (∀ k, 9 ≤ k → k < 9 + digits s.plen → (dec s.plen)[k - 9]? = some (s.fchar k)) ∧
    s.fchar (9 + digits s.plen) = 0x21#8 ∧
    (∀ i, i < s.plen → s.fchar (10 + digits s.plen + i) = s.payAt i) ∧
    (∀ n, n < reqPixels s.plen →
      s.fsym n = symOf (s.fchar (n / 4)) (n % 4) ∧ s.fsym n = streamAt (frame (s.payText s.plen)) n)

/-- R84: the 36 symbols of MARKER, and a grid "is encoded" exactly when NPIX >= 36 and PIX[n][1:0] is the n-th of them for
every n in 0 .. 35. -/
def Obligations.MarkerOnTheGrid : Prop :=
  let symbols : List Symbol :=
    [0, 2, 0, 1, 1, 2, 1, 1, 1, 2, 3, 2, 1, 2, 0, 3, 1, 2, 3, 3, 1, 2, 1, 0, 1, 2, 1, 1, 1, 2, 1, 0, 0, 2, 0, 1]
  (List.range 36).map (streamAt marker) = symbols ∧
  ∀ s : State, s.isEncoded = true ↔
    36 ≤ s.npix ∧ ∀ n, n < 36 → symbols[n]? = some ((s.pixel n).extractLsb' 0 2)

/-! ## The four operations at the function level (R15) -/

/-- R121: ENCODE, from every state that accepts it, completes, and leaves exactly what the rule says: nothing written and
INSUFFICIENT_CAPACITY when NPIX < REQ; else pixel n embeds FSYM(n) for n < REQ, everything else as before, and OK. -/
def Obligations.EncodeIsItsFunction : Prop :=
  ∀ s : State, s.Ready → ∃ t, exec .encode s = .next t ∧
    EndsWith s t
      (if s.npix < reqPixels s.plen then ⟨.insufficientCapacity, .noCause, false, 0⟩ else ⟨.ok, .noCause, false, 0⟩) ∧
    (s.npix < reqPixels s.plen → t.pix = s.pix) ∧
    (reqPixels s.plen ≤ s.npix → ∀ n, n < s.npix →
      t.pixel n = if n < reqPixels s.plen then embed (s.pixel n) (s.fsym n) else s.pixel n) ∧
    (∀ x y, s.validPair x y = false → t.pixAt x y = s.pixAt x y) ∧
    t.pay = s.pay

/-- R136: DETECT, from every state that accepts it, completes with RESULT = OK and ENC = ISENC, and writes no memory. -/
def Obligations.DetectIsItsFunction : Prop :=
  ∀ s : State, s.Ready → ∃ t, exec .detect s = .next t ∧
    EndsWith s t ⟨.ok, .noCause,
      decide (36 ≤ s.npix) && (List.range 9).all (fun k => decide (s.charAt k = markerChar k)), 0⟩ ∧
    t.pix = s.pix ∧ t.pay = s.pay

/-- R146: GETLEN, from every state that accepts it, completes: LEN is the parsed value of the characters from character 9
up to the first terminator, or the result is PARSE_ERROR with its cause; no memory is written. -/
def Obligations.GetlenIsItsFunction : Prop :=
  ∀ s : State, s.Ready → ∃ t, exec .getlen s = .next t ∧
    EndsWith s t
      (match s.scan with
        | none => ⟨.parseError, .exhausted, false, 0⟩
        | some str =>
          match parse s.lmax str with
          | .ok l => ⟨.ok, .noCause, false, l⟩
          | .error c => ⟨.parseError, c, false, 0⟩) ∧
    t.pix = s.pix ∧ t.pay = s.pay

/-- R146's scan in closed form: it yields the characters 9 .. k-1 for the first character k that is `!`, all characters up
to k lying inside the grid; and EXHAUSTED when there is none. -/
def Obligations.ScanStopsAtTheFirstTerminator : Prop :=
  ∀ s : State,
    (∀ str, s.scan = some str ↔
      ∃ k, 9 ≤ k ∧ 4 * k + 3 < s.npix ∧ s.charAt k = 0x21#8 ∧ (∀ j, 9 ≤ j → j < k → s.charAt j ≠ 0x21#8) ∧
        str = (List.range (k - 9)).map (fun i => s.charAt (9 + i))) ∧
    (s.scan = none ↔ ∀ k, 9 ≤ k → 4 * k + 3 < s.npix → s.charAt k ≠ 0x21#8)

/-- R161: DECODE, from every state that accepts it, completes: NOT_ENCODED without the marker; GETLEN's PARSE_ERROR with
the marker; OVERRUN with LEN = L when HDR + 4 L > NPIX; else OK, LEN = L and PAY[i] = CHARAT(HDR div 4 + i) for i < L,
every other character of PAY as before. PIX is not written. -/
def Obligations.DecodeIsItsFunction : Prop :=
  ∀ s : State, s.Ready → ∃ t, exec .decode s = .next t ∧ t.pix = s.pix ∧
    (s.isEncoded = false → EndsWith s t ⟨.notEncoded, .noCause, false, 0⟩ ∧ t.pay = s.pay) ∧
    (s.isEncoded = true →
      match s.lengthField with
      | .error c => EndsWith s t ⟨.parseError, c, true, 0⟩ ∧ t.pay = s.pay
      | .ok l =>
        if s.npix < hdrPixels l + 4 * l then EndsWith s t ⟨.parseError, .overrun, true, l⟩ ∧ t.pay = s.pay
        else EndsWith s t ⟨.ok, .noCause, true, l⟩ ∧
          (∀ i, i < l → t.payAt i = s.charAt (hdrPixels l / 4 + i)) ∧
          (∀ i, l ≤ i → t.payAt i = s.payAt i))

/-- R37: what each operation can leave in ENC, RESULT, CAUSE and LEN. -/
def Obligations.ResultTable : Prop :=
  ∀ (i : Instr) (s t : State), s.Ready → exec i s = .next t →
    t.done = true ∧ t.busy = false ∧
    match i with
    | .encode =>
      t.enc = false ∧ (t.result = .ok ∨ t.result = .insufficientCapacity) ∧ t.cause = .noCause ∧ t.len = 0
    | .detect => t.enc = s.isEncoded ∧ t.result = .ok ∧ t.cause = .noCause ∧ t.len = 0
    | .getlen =>
      t.enc = false ∧
      (t.result = .ok ∧ t.cause = .noCause ∧ s.lengthField = .ok t.len ∨
        t.result = .parseError ∧ t.len = 0 ∧
          (t.cause = .exhausted ∨ t.cause = .empty ∨ t.cause = .notDecimal ∨ t.cause = .range))
    | .decode =>
      t.enc = s.isEncoded ∧
      (t.result = .notEncoded ∧ t.cause = .noCause ∧ t.len = 0 ∨
        t.result = .parseError ∧ t.len = 0 ∧
          (t.cause = .exhausted ∨ t.cause = .empty ∨ t.cause = .notDecimal ∨ t.cause = .range) ∨
        t.result = .parseError ∧ t.cause = .overrun ∧ s.lengthField = .ok t.len ∨
        t.result = .ok ∧ t.cause = .noCause ∧ s.lengthField = .ok t.len)

/-- R122: the capacity boundary: REQ = 4 (9 + d + 1 + L), always a multiple of 4 and at least 44; a grid with exactly REQ
pixels is enough, one pixel less is not; the test is NPIX < REQ. -/
def Obligations.CapacityBoundary : Prop :=
  ∀ s t : State, s.Ready → exec .encode s = .next t →
    (t.result = .insufficientCapacity ↔ s.npix < 4 * (9 + digits s.plen + 1 + s.plen)) ∧
    (s.npix = 4 * (9 + digits s.plen + 1 + s.plen) → t.result = .ok) ∧
    (s.npix + 1 = 4 * (9 + digits s.plen + 1 + s.plen) → t.result = .insufficientCapacity ∧ t.pix = s.pix) ∧
    reqPixels s.plen = 4 * (9 + digits s.plen + 1 + s.plen) ∧ reqPixels s.plen % 4 = 0 ∧ 44 ≤ reqPixels s.plen

/-- R206: an operation that ends with an error, or with NOT_ENCODED, has written neither PIX nor PAY. -/
def Obligations.ResultsArePrecise : Prop :=
  ∀ (i : Instr) (s t : State), s.Ready → exec i s = .next t → t.result ≠ .ok → t.pix = s.pix ∧ t.pay = s.pay

/-- Bits [31:2] of every pixel are unchanged by every operation, and by every step of one (R60). -/
def Obligations.UpperPixelBitsNeverChange : Prop :=
  (∀ (i : Instr) (s t : State), s.Ready → exec i s = .next t →
    ∀ x y, (t.pixAt x y).extractLsb' 2 30 = (s.pixAt x y).extractLsb' 2 30) ∧
  (∀ s t : State, s.Inv → blockStep s = .ok t →
    ∀ x y, (t.pixAt x y).extractLsb' 2 30 = (s.pixAt x y).extractLsb' 2 30)

/-- R63: DETECT and GETLEN write neither memory, and re-running them on the unmodified grid yields identical results;
DECODE writes PAY only, ENCODE writes PIX only; a second ENCODE leaves the grid as the first left it. -/
def Obligations.RerunningChangesNothing : Prop :=
  (∀ (i : Instr) (s t u : State), s.Ready → i = .detect ∨ i = .getlen → exec i s = .next t → exec i t = .next u →
    t.pix = s.pix ∧ t.pay = s.pay ∧ u.pix = s.pix ∧ u.pay = s.pay ∧
    u.result = t.result ∧ u.cause = t.cause ∧ u.enc = t.enc ∧ u.len = t.len) ∧
  (∀ s t : State, s.Ready → exec .decode s = .next t → t.pix = s.pix) ∧
  (∀ s t u : State, s.Ready → exec .encode s = .next t → exec .encode t = .next u →
    t.pay = s.pay ∧ u.pay = s.pay ∧ SamePix t u ∧ u.result = t.result)

/-- DETECT, GETLEN and DECODE see only W, H, LMAX and bits [1:0] of the grid's pixels: two states that agree there end
alike, whatever PLEN (R25), PAY, the upper pixel bits (R88) and the working registers (R21) hold. -/
def Obligations.ReadersDependOnLowBitsOnly : Prop :=
  ∀ (i : Instr) (s s' t t' : State), s.Ready → s'.Ready → i ≠ .encode →
    s'.cfg = s.cfg → s'.gw = s.gw → s'.gh = s.gh → (∀ n, n < s.npix → extract (s'.pixel n) = extract (s.pixel n)) →
    exec i s = .next t → exec i s' = .next t' →
    t'.result = t.result ∧ t'.cause = t.cause ∧ t'.enc = t.enc ∧ t'.len = t.len ∧
    (i = .decode → t.result = .ok → ∀ k, k < t.len → t'.payAt k = t.payAt k)

/-- What an operation's outcome depends on (R64, the columns of what is read): pixels 0 .. REQ-1 and PAY[0 .. PLEN-1] for
ENCODE, and only NPIX and PLEN when it ends INSUFFICIENT_CAPACITY; pixels 0 .. 35 for DETECT, and none when NPIX < 36;
pixels 36 .. N_end-1 for GETLEN; for DECODE pixels 0 .. 35 when it ends NOT_ENCODED, 0 .. N_end-1 when it ends
PARSE_ERROR, 0 .. HDR+4L-1 when it ends OK. -/
def Obligations.OutcomeDependsOnItsFootprint : Prop :=
  ∀ s s' t t' : State, s.Ready → s'.Ready → s'.cfg = s.cfg → s'.gw = s.gw → s'.gh = s.gh →
    (exec .encode s = .next t → exec .encode s' = .next t' → s'.plen = s.plen →
      t'.result = t.result ∧
      (t.result = .ok → (∀ n, n < reqPixels s.plen → s'.pixel n = s.pixel n) →
        (∀ i, i < s.plen → s'.payAt i = s.payAt i) → ∀ n, n < reqPixels s.plen → t'.pixel n = t.pixel n)) ∧
    ((36 ≤ s.npix → ∀ n, n < 36 → s'.pixel n = s.pixel n) →
      exec .detect s = .next t → exec .detect s' = .next t' → t'.enc = t.enc ∧ t'.result = t.result) ∧
    ((∀ n, 36 ≤ n → n < s.scanEnd → s'.pixel n = s.pixel n) →
      exec .getlen s = .next t → exec .getlen s' = .next t' →
      t'.result = t.result ∧ t'.cause = t.cause ∧ t'.len = t.len) ∧
    (exec .decode s = .next t → exec .decode s' = .next t' → t.result = .notEncoded →
      (36 ≤ s.npix → ∀ n, n < 36 → s'.pixel n = s.pixel n) →
      t'.result = .notEncoded ∧ t'.cause = t.cause ∧ t'.enc = t.enc ∧ t'.len = t.len) ∧
    (exec .decode s = .next t → exec .decode s' = .next t' → t.result = .parseError →
      (∀ n, n < s.scanEnd → s'.pixel n = s.pixel n) →
      t'.result = .parseError ∧ t'.cause = t.cause ∧ t'.enc = t.enc ∧ t'.len = t.len) ∧
    (exec .decode s = .next t → exec .decode s' = .next t' → t.result = .ok →
      (∀ n, n < hdrPixels t.len + 4 * t.len → s'.pixel n = s.pixel n) →
      t'.result = .ok ∧ t'.enc = true ∧ t'.len = t.len ∧ ∀ i, i < t.len → t'.payAt i = t.payAt i)

/-! ## Writer and reader -/

/-- R130: after an ENCODE that ended OK, on any state with the same GH whose grid still holds the pixels 0 .. REQ-1 that it
left: CHARAT(k) = FCHAR(k) for every character of the frame; characters 0 .. 8 are MARKER, 9 .. 9+d-1 are DEC(L), 9+d is
`!`, and 10+d .. 10+d+L-1 are P. -/
def Obligations.GridSpellsTheFrame : Prop :=
  ∀ s t s' : State, s.Ready → exec .encode s = .next t → t.result = .ok → s'.gh = s.gh →
    (∀ n, n < reqPixels s.plen → s'.pixel n = t.pixel n) →
    (∀ k, k < frameChars s.plen → s'.charAt k = s.fchar k) ∧
    (∀ k, k < 9 → s'.charAt k = markerChar k) ∧
    (∀ i, i < digits s.plen → (dec s.plen)[i]? = some (s'.charAt (9 + i))) ∧
    s'.charAt (9 + digits s.plen) = 0x21#8 ∧
    (∀ i, i < s.plen → s'.charAt (10 + digits s.plen + i) = s.payAt i)

/-- R147, with R89's DETECT: after an ENCODE that ended OK, on any state whose grid still holds the same pixels 0 .. REQ-1
under the same GW and GH, GETLEN ends OK with LEN the PLEN of that ENCODE, and DETECT ends with ENC = 1. -/
def Obligations.LengthFidelity : Prop :=
  ∀ s t s' : State, s.Ready → exec .encode s = .next t → t.result = .ok →
    s'.Ready → s'.cfg = s.cfg → s'.gw = s.gw → s'.gh = s.gh →
    (∀ n, n < reqPixels s.plen → s'.pixel n = t.pixel n) →
    (∃ u, exec .getlen s' = .next u ∧ u.result = .ok ∧ u.len = s.plen) ∧
    (∃ u, exec .detect s' = .next u ∧ u.result = .ok ∧ u.enc = true)

/-- R170: the round trip: after an ENCODE that ended OK, on any state whose grid still holds the same pixels 0 .. REQ-1
under the same GW and GH, DECODE ends OK with ENC = 1, LEN = L and PAY[0 .. L-1] = P. -/
def Obligations.DecodeAfterEncodeGivesTheText : Prop :=
  ∀ s t s' : State, s.Ready → exec .encode s = .next t → t.result = .ok →
    s'.Ready → s'.cfg = s.cfg → s'.gw = s.gw → s'.gh = s.gh →
    (∀ n, n < reqPixels s.plen → s'.pixel n = t.pixel n) →
    ∃ u, exec .decode s' = .next u ∧ u.result = .ok ∧ u.enc = true ∧ u.len = s.plen ∧
      ∀ i, i < s.plen → u.payAt i = s.payAt i

/-- Corruption of one payload pixel (R173 item 6, the document's scenario S7): DECODE still ends OK with the same LEN, and
PAY differs in that one character, in exactly the two bits the pixel carries. -/
def Obligations.OneFlippedPayloadPixel : Prop :=
  ∀ (s t : State) (i j : Nat) (m : Symbol), s.Ready → exec .decode s = .next t → t.result = .ok → i < t.len → j < 4 →
    let n := hdrPixels t.len + 4 * i + j
    let s' := s.setPix (s.coord n).1 (s.coord n).2 (s.pixel n ^^^ m.setWidth 32)
    ∃ u, exec .decode s' = .next u ∧ u.result = .ok ∧ u.enc = true ∧ u.len = t.len ∧
      u.payAt i = t.payAt i ^^^ (m.setWidth 8 <<< (6 - 2 * j)) ∧
      ∀ k, k ≠ i → u.payAt k = t.payAt k

/-! ## The host's sequences around the cipher -/

/-- The host's encode sequence (R178) from a state that accepts commands, for a grid that fits GW and GH: a failed encrypt is
CryptoError; with a text T that fits PAY, InsufficientCapacityError when the grid has fewer than REQ pixels, else the
caller's grid with the frame's symbols in its first REQ pixels in raster order and everything else as it was. -/
def Obligations.EncodeSequenceReports : Prop :=
  ∀ (Msg Pwd Iv : Type) (cipher : Cipher Msg Pwd Iv) (g : PixelGrid) (m : Msg) (p : Pwd) (iv : Iv) (s : State),
    (cipher.encrypt m p iv = none → hostEncode cipher g m p iv s = .error .cryptoError) ∧
    (∀ text, cipher.encrypt m p iv = some text → s.Ready → g.Fits s → text.length ≤ s.lmax →
      (g.width * g.height < reqPixels text.length →
        hostEncode cipher g m p iv s = .error .insufficientCapacityError) ∧
      (reqPixels text.length ≤ g.width * g.height →
        ∃ g', hostEncode cipher g m p iv s = .ok g' ∧ g'.width = g.width ∧ g'.height = g.height ∧
          ∀ x y, g'.getPixel x y =
            if x < g.width ∧ y < g.height ∧ x * g.height + y < reqPixels text.length then
              embed (g.getPixel x y) (streamAt (frame text) (x * g.height + y))
            else g.getPixel x y))

/-- The host's decode sequence (R179) from a state that accepts commands, for a grid that fits GW and GH, in terms of any
state u that holds that grid: NotEncodedResult without the marker; ParseError with its CAUSE, that of the length field or
OVERRUN; else decrypt of the recovered text, and CryptoError when that fails. -/
def Obligations.DecodeSequenceReports : Prop :=
  ∀ (Msg Pwd Iv : Type) (cipher : Cipher Msg Pwd Iv) (g : PixelGrid) (p : Pwd) (iv : Iv) (s u : State),
    s.Ready → g.Fits s → u.Holds g → u.cfg = s.cfg →
    (u.isEncoded = false → hostDecode cipher g p iv s = .error .notEncodedResult) ∧
    (∀ c, u.isEncoded = true → u.lengthField = .error c → hostDecode cipher g p iv s = .error (.parseError c)) ∧
    (∀ l, u.isEncoded = true → u.lengthField = .ok l → u.npix < hdrPixels l + 4 * l →
      hostDecode cipher g p iv s = .error (.parseError .overrun)) ∧
    (∀ l, u.isEncoded = true → u.lengthField = .ok l → hdrPixels l + 4 * l ≤ u.npix →
      hostDecode cipher g p iv s =
        match cipher.decrypt ((List.range l).map (fun i => u.charAt (hdrPixels l / 4 + i))) p iv with
        | some m => .ok m
        | none => .error .cryptoError)

/-- Where a sequence stops short of the block's result, with the model's own reports (MODEL'S CHOICE, log 23: the spec does
not say what the host reports there): the encode sequence at a text longer than LMAX; both sequences at a width or a height
that does not fit its register, and, with a pixel to load, when begun while BUSY = 1. -/
def Obligations.SequencesThatStop : Prop :=
  (∀ (g : PixelGrid) (text : List Ch) (s : State), s.Ready → g.Fits s → s.lmax < text.length →
    hostEncodeText g text s = .error (.machineFault .payOutsideBuffer)) ∧
  ∀ (Msg Pwd Iv : Type) (cipher : Cipher Msg Pwd Iv) (g : PixelGrid) (text : List Ch) (p : Pwd) (iv : Iv) (s : State),
    (2 ^ s.cfg.dw ≤ g.width →
      hostEncodeText g text s = .error (.machineRefused (.valueTooWide 0 g.width)) ∧
      hostDecode cipher g p iv s = .error (.machineRefused (.valueTooWide 0 g.width))) ∧
    (g.width < 2 ^ s.cfg.dw → 2 ^ s.cfg.dw ≤ g.height →
      hostEncodeText g text s = .error (.machineRefused (.valueTooWide 1 g.height)) ∧
      hostDecode cipher g p iv s = .error (.machineRefused (.valueTooWide 1 g.height))) ∧
    (g.Fits s → s.busy = true → 0 < g.width * g.height →
      hostEncodeText g text s = .error (.machineRefused .hostAccessWhileBusy) ∧
      hostDecode cipher g p iv s = .error (.machineRefused .hostAccessWhileBusy))

/-- The round trip of the whole system (R182): with a cipher whose decrypt undoes its encrypt (U7), a grid that fits the
registers and has the pixels the text needs, and a text that fits PAY, the host's decode of the grid that the host's encode
gives back is the message; the decode may run on another block, in any state that accepts commands. -/
def Obligations.WholeSystemRoundTrip : Prop :=
  ∀ (Msg Pwd Iv : Type) (cipher : Cipher Msg Pwd Iv), cipher.Inverse →
    ∀ (g : PixelGrid) (m : Msg) (p : Pwd) (iv : Iv) (text : List Ch) (s s' : State),
      cipher.encrypt m p iv = some text → s.Ready → s'.Ready → g.Fits s → g.Fits s' →
      text.length ≤ s.lmax → text.length ≤ s'.lmax → reqPixels text.length ≤ g.width * g.height →
      ∃ g', hostEncode cipher g m p iv s = .ok g' ∧ hostDecode cipher g' p iv s' = .ok m

/-! ## The step level -/

/-- The control flow, row by row of R210's table: out of IDLE by a CMD write; then, from a state of the invariant with
BUSY = 1, each block step takes one of the transitions out of its PHASE, under its condition, and a transition to IDLE is a
`finish` with the RESULT and CAUSE the row names (R151 has the order of the terminator's tests). The conditions are on the
state before the step: `c` is the character that the step completes when (N + 1) mod 4 = 0. At IDLE no hidden register
but PHASE is named (U8, log 11). -/
def Obligations.PhaseTransitions : Prop :=
  (∀ (s : State) (w : CmdWord) (rest : List HostMove), s.host = .csrWrite 3 w.toNat :: rest → s.busy = false →
    ∃ t, step s = .next t ∧ t.busy = true ∧
      match decodeCmd w with
      | .encode => t.phase = .eCheck
      | .detect => t.phase = .dMark
      | .getlen => t.phase = .dLen ∧ t.n = 36
      | .decode => t.phase = .dMark) ∧
  ∀ s t : State, s.Inv → s.busy = true → blockStep s = .ok t →
    let c := shiftIn s.acc (extract (s.pixel s.n))
    let terminator := s.n < s.npix ∧ (s.n + 1) % 4 = 0 ∧ c = 0x21#8
    let parseGood := 1 ≤ s.dcnt ∧ s.lbad = false ∧ s.lovf = false
    let closing := s.npix < 36 ∨ s.n = 36
    match s.phase with
    | .idle => False
    | .eCheck =>
      s.npix < reqPixels s.plen ∧ t.Finished .insufficientCapacity .noCause ∨
      reqPixels s.plen ≤ s.npix ∧ t.phase = .eWrite ∧ t.n = s.n
    | .eWrite =>
      s.n < reqPixels s.plen ∧ t.phase = .eWrite ∧ t.n = s.n + 1 ∨
      s.n = reqPixels s.plen ∧ t.Finished .ok .noCause
    | .dMark =>
      36 ≤ s.npix ∧ s.n < 36 ∧ t.phase = .dMark ∧ t.n = s.n + 1 ∨
      closing ∧ decodeCmd s.op = .detect ∧ t.Finished .ok .noCause ∧
        t.enc = (decide (36 ≤ s.npix) && s.matched) ∨
      (s.npix < 36 ∨ s.n = 36 ∧ s.matched = false) ∧ decodeCmd s.op = .decode ∧ t.Finished .notEncoded .noCause ∧
        t.enc = false ∨
      36 ≤ s.npix ∧ s.n = 36 ∧ s.matched = true ∧ decodeCmd s.op = .decode ∧ t.phase = .dLen ∧ t.n = 36 ∧ t.enc = true
    | .dLen =>
      s.n < s.npix ∧ ((s.n + 1) % 4 ≠ 0 ∨ c ≠ 0x21#8) ∧ t.phase = .dLen ∧ t.n = s.n + 1 ∨
      s.npix ≤ s.n ∧ t.Finished .parseError .exhausted ∨
      terminator ∧ s.dcnt = 0 ∧ t.Finished .parseError .empty ∨
      terminator ∧ 1 ≤ s.dcnt ∧ s.lbad = true ∧ t.Finished .parseError .notDecimal ∨
      terminator ∧ 1 ≤ s.dcnt ∧ s.lbad = false ∧ s.lovf = true ∧ t.Finished .parseError .range ∨
      terminator ∧ parseGood ∧ decodeCmd s.op = .getlen ∧ t.Finished .ok .noCause ∧ t.len = s.lacc ∨
      terminator ∧ parseGood ∧ decodeCmd s.op = .decode ∧ t.phase = .dBound ∧ t.len = s.lacc
    | .dBound =>
      s.npix < hdrPixels s.len + 4 * s.len ∧ t.Finished .parseError .overrun ∨
      hdrPixels s.len + 4 * s.len ≤ s.npix ∧ t.phase = .dXtr ∧ t.n = hdrPixels s.len ∧ t.hdr = hdrPixels s.len
    | .dXtr =>
      s.n < s.hdr + 4 * s.len ∧ t.phase = .dXtr ∧ t.n = s.n + 1 ∨
      s.n = s.hdr + 4 * s.len ∧ t.Finished .ok .noCause

/-- Where D_LEN hands over to D_BOUND, the cursor is already at HDR, which is a multiple of 4; D_BOUND then goes on to D_XTR
with HDR that cursor (R164, R152). -/
def Obligations.CursorReachesTheHeaderEnd : Prop :=
  ∀ s t : State, s.Inv → s.busy = true → blockStep s = .ok t →
    (t.phase = .dBound → t.n = 36 + 4 * (digits t.len + 1) ∧ t.n = 36 + 4 * (s.dcnt + 1)) ∧
    (s.phase = .dBound → t.phase = .dXtr → t.hdr = s.n ∧ t.hdr % 4 = 0 ∧ t.hdr / 4 = 10 + digits s.len)

/-- The invariant is kept by every step: registers of their widths (R23), memories in canonical form, PHASE = IDLE exactly
when BUSY = 0 (R32), the cursor inside its bounds (R29, R61), HDR = N at the payload (R164). -/
def Obligations.EveryStepKeepsTheInvariant : Prop :=
  ∀ s t : State, s.Inv → step s = .next t → t.Inv

/-- R61: the block never issues an access outside the grid: from a state that meets the invariant, the block's step and
every operation go on to a next state, so none ends in the model's fault for such an access (nor in any other). -/
def Obligations.NoAccessFaultInTheBlock : Prop :=
  (∀ s : State, s.Inv → s.busy = true → ∃ t, blockStep s = .ok t) ∧
  (∀ s : State, s.Inv → s.host = [] → ∃ t, step s = .next t) ∧
  (∀ (i : Instr) (s : State), s.Inv → ∃ t, exec i s = .next t)

/-- R209: every operation, started and left to the block, reaches BUSY = 0 and DONE = 1 within the rule's number of block
steps. -/
def Obligations.EveryOperationEnds : Prop :=
  ∀ (s : State) (i : Instr), s.Ready → s.host = [] →
    ∃ k t,
      k ≤ (match i with
        | .encode => reqPixels s.plen + 2
        | .detect => 37
        | .getlen => (s.npix - 36) + 1
        | .decode => s.npix + 4) ∧
      Host.Core.run Sys2Proof.core k (s.start (encodeCmd i)) = .next t ∧ t.busy = false ∧ t.done = true

/-- The step level refines the function level (R127, R139, R152, R171): a bare CMD write, followed by block steps alone,
reaches exactly the state that the operation as an instruction gives. -/
def Obligations.CmdWriteAndStepsReachTheSameEnd : Prop :=
  ∀ (s : State) (i : Instr), s.Ready → s.host = [] →
    ∃ k t, Host.Core.run Sys2Proof.core k (s.setHost [.csrWrite 3 (encodeCmd i).toNat]) = .next t ∧
      exec i s = .next t

/-- What a reset in mid-operation leaves (R226): after any number of steps of a started ENCODE that has not ended, the
pixels below the cursor carry their new symbols, the others and every word outside the grid are as before, and PAY is
untouched; of a DECODE, PIX is untouched and a prefix of at most LEN characters of PAY is written; of a DETECT or a GETLEN,
neither memory is touched; and the reset itself keeps both memories and leaves DONE = 0. -/
def Obligations.ResetInMidOperation : Prop :=
  (∀ (s t : State) (k : Nat), s.Ready → s.host = [] →
    Host.Core.run Sys2Proof.core k (s.start 0#2) = .next t → t.busy = true →
    (∀ n, n < s.npix → t.pixel n = if n < t.n then embed (s.pixel n) (s.fsym n) else s.pixel n) ∧
    (∀ x y, s.validPair x y = false → t.pixAt x y = s.pixAt x y) ∧ t.pay = s.pay) ∧
  (∀ (s t : State) (k : Nat), s.Ready → s.host = [] →
    Host.Core.run Sys2Proof.core k (s.start 3#2) = .next t → t.busy = true →
    t.pix = s.pix ∧
    ∃ i, i ≤ t.len ∧ (∀ j, j < i → t.payAt j = s.charAt (hdrPixels t.len / 4 + j)) ∧
      ∀ j, i ≤ j → t.payAt j = s.payAt j) ∧
  (∀ (s t : State) (c : CmdWord) (k : Nat), s.Ready → s.host = [] → c = 1#2 ∨ c = 2#2 →
    Host.Core.run Sys2Proof.core k (s.start c) = .next t → t.pix = s.pix ∧ t.pay = s.pay) ∧
  (∀ (t : State) (rest : List HostMove), t.host = .reset :: rest →
    ∃ u, step t = .next u ∧ u.pix = t.pix ∧ u.pay = t.pay ∧ u.done = false ∧ u.busy = false)

/-- No step changes the parameters DW and LW (R12; that they stand in State is the model's choice, log 1). -/
def Obligations.ParametersNeverChange : Prop :=
  ∀ s t : State, step s = .next t → t.cfg = s.cfg

/-- The pseudo-instructions of a host script (R93), run to their end from an idle block: SETDIM sets GW and GH; LOADPAY
sets PAY[0 .. |text|-1] and PLEN; FILL sets every pixel of the grid; SETPIX and XORPIX set one. Nothing else of the state
changes. (That a line is one host move which expands is the model's, log 3; XORPIX's read leaves the reply, log 4.) -/
def Obligations.ScriptLinesDoWhatTheySay : Prop :=
  (∀ (s : State) (w h : Nat), s.Ready → s.host = [.line (.setDim w h)] → w < 2 ^ s.cfg.dw → h < 2 ^ s.cfg.dw →
    Host.Core.run Sys2Proof.core 3 s = .next { s with gw := w, gh := h, host := [] }) ∧
  (∀ (s : State) (text : List Ch), s.Ready → s.host = [.line (.loadPay text)] → text.length ≤ s.lmax →
    ∃ t, Host.Core.run Sys2Proof.core (text.length + 2) s = .next t ∧
      t = { s with pay := t.pay, plen := text.length, host := [] } ∧
      (∀ i, i < text.length → text[i]? = some (t.payAt i)) ∧ (∀ i, text.length ≤ i → t.payAt i = s.payAt i)) ∧
  (∀ (s : State) (v : Pixel), s.Ready → s.host = [.line (.fill v)] →
    ∃ t, Host.Core.run Sys2Proof.core (s.npix + 1) s = .next t ∧ t = { s with pix := t.pix, host := [] } ∧
      ∀ x y, t.pixAt x y = if s.validPair x y then v else s.pixAt x y) ∧
  (∀ (s : State) (n : Nat) (v : Pixel), s.Ready → s.host = [.line (.setPix n v)] → n < s.npix →
    ∃ t, Host.Core.run Sys2Proof.core 2 s = .next t ∧ t = { s with pix := t.pix, host := [] } ∧
      t.pixel n = v ∧ ∀ x y, (x, y) ≠ s.coord n → t.pixAt x y = s.pixAt x y) ∧
  (∀ (s : State) (n : Nat) (m : Pixel), s.Ready → s.host = [.line (.xorPix n m)] → n < s.npix →
    ∃ t, Host.Core.run Sys2Proof.core 3 s = .next t ∧ t = { s with pix := t.pix, host := [], reply := t.reply } ∧
      t.pixel n = s.pixel n ^^^ m ∧ ∀ x y, (x, y) ≠ s.coord n → t.pixAt x y = s.pixAt x y)
end

