-- ==== Sys2Proof/Laws/State.lean ====
section
/-! SUPPORT. What each named update of State writes and leaves: one lemma per field, true by definition, for simp. -/

namespace Sys2Proof.Machine

section Start
variable (s : State) (c : CmdWord)
@[simp] theorem State.start_cfg : (s.start c).cfg = s.cfg := rfl
@[simp] theorem State.start_gw : (s.start c).gw = s.gw := rfl
@[simp] theorem State.start_gh : (s.start c).gh = s.gh := rfl
@[simp] theorem State.start_plen : (s.start c).plen = s.plen := rfl
@[simp] theorem State.start_len : (s.start c).len = 0 := rfl
@[simp] theorem State.start_busy : (s.start c).busy = true := rfl
@[simp] theorem State.start_done : (s.start c).done = false := rfl
@[simp] theorem State.start_enc : (s.start c).enc = false := rfl
@[simp] theorem State.start_result : (s.start c).result = .ok := rfl
@[simp] theorem State.start_cause : (s.start c).cause = .noCause := rfl
@[simp] theorem State.start_op : (s.start c).op = c := rfl
@[simp] theorem State.start_phase : (s.start c).phase = firstPhase c := rfl
@[simp] theorem State.start_n : (s.start c).n = firstCursor c := rfl
@[simp] theorem State.start_acc : (s.start c).acc = 0#8 := rfl
@[simp] theorem State.start_matched : (s.start c).matched = true := rfl
@[simp] theorem State.start_dcnt : (s.start c).dcnt = 0 := rfl
@[simp] theorem State.start_lacc : (s.start c).lacc = 0 := rfl
@[simp] theorem State.start_lovf : (s.start c).lovf = false := rfl
@[simp] theorem State.start_lbad : (s.start c).lbad = false := rfl
@[simp] theorem State.start_lz : (s.start c).lz = false := rfl
@[simp] theorem State.start_hdr : (s.start c).hdr = 0 := rfl
@[simp] theorem State.start_pix : (s.start c).pix = s.pix := rfl
@[simp] theorem State.start_pay : (s.start c).pay = s.pay := rfl
@[simp] theorem State.start_host : (s.start c).host = s.host := rfl
@[simp] theorem State.start_reply : (s.start c).reply = s.reply := rfl
end Start

section Finish
variable (s : State) (r : Result) (c : Cause)
@[simp] theorem State.finish_cfg : (s.finish r c).cfg = s.cfg := rfl
@[simp] theorem State.finish_gw : (s.finish r c).gw = s.gw := rfl
@[simp] theorem State.finish_gh : (s.finish r c).gh = s.gh := rfl
@[simp] theorem State.finish_plen : (s.finish r c).plen = s.plen := rfl
@[simp] theorem State.finish_len : (s.finish r c).len = s.len := rfl
@[simp] theorem State.finish_busy : (s.finish r c).busy = false := rfl
@[simp] theorem State.finish_done : (s.finish r c).done = true := rfl
@[simp] theorem State.finish_enc : (s.finish r c).enc = s.enc := rfl
@[simp] theorem State.finish_result : (s.finish r c).result = r := rfl
@[simp] theorem State.finish_cause : (s.finish r c).cause = c := rfl
@[simp] theorem State.finish_op : (s.finish r c).op = s.op := rfl
@[simp] theorem State.finish_phase : (s.finish r c).phase = .idle := rfl
@[simp] theorem State.finish_n : (s.finish r c).n = s.n := rfl
@[simp] theorem State.finish_acc : (s.finish r c).acc = s.acc := rfl
@[simp] theorem State.finish_matched : (s.finish r c).matched = s.matched := rfl
@[simp] theorem State.finish_dcnt : (s.finish r c).dcnt = s.dcnt := rfl
@[simp] theorem State.finish_lacc : (s.finish r c).lacc = s.lacc := rfl
@[simp] theorem State.finish_lovf : (s.finish r c).lovf = s.lovf := rfl
@[simp] theorem State.finish_lbad : (s.finish r c).lbad = s.lbad := rfl
@[simp] theorem State.finish_lz : (s.finish r c).lz = s.lz := rfl
@[simp] theorem State.finish_hdr : (s.finish r c).hdr = s.hdr := rfl
@[simp] theorem State.finish_pix : (s.finish r c).pix = s.pix := rfl
@[simp] theorem State.finish_pay : (s.finish r c).pay = s.pay := rfl
@[simp] theorem State.finish_host : (s.finish r c).host = s.host := rfl
@[simp] theorem State.finish_reply : (s.finish r c).reply = s.reply := rfl
end Finish

section ResetRegisters
variable (s : State)
@[simp] theorem State.resetRegisters_cfg : (s.resetRegisters).cfg = s.cfg := rfl
@[simp] theorem State.resetRegisters_gw : (s.resetRegisters).gw = 0 := rfl
@[simp] theorem State.resetRegisters_gh : (s.resetRegisters).gh = 0 := rfl
@[simp] theorem State.resetRegisters_plen : (s.resetRegisters).plen = 0 := rfl
@[simp] theorem State.resetRegisters_len : (s.resetRegisters).len = 0 := rfl
@[simp] theorem State.resetRegisters_busy : (s.resetRegisters).busy = false := rfl
@[simp] theorem State.resetRegisters_done : (s.resetRegisters).done = false := rfl
@[simp] theorem State.resetRegisters_enc : (s.resetRegisters).enc = false := rfl
@[simp] theorem State.resetRegisters_result : (s.resetRegisters).result = .ok := rfl
@[simp] theorem State.resetRegisters_cause : (s.resetRegisters).cause = .noCause := rfl
@[simp] theorem State.resetRegisters_op : (s.resetRegisters).op = 0#2 := rfl
@[simp] theorem State.resetRegisters_phase : (s.resetRegisters).phase = .idle := rfl
@[simp] theorem State.resetRegisters_n : (s.resetRegisters).n = 0 := rfl
@[simp] theorem State.resetRegisters_acc : (s.resetRegisters).acc = 0#8 := rfl
@[simp] theorem State.resetRegisters_matched : (s.resetRegisters).matched = false := rfl
@[simp] theorem State.resetRegisters_dcnt : (s.resetRegisters).dcnt = 0 := rfl
@[simp] theorem State.resetRegisters_lacc : (s.resetRegisters).lacc = 0 := rfl
@[simp] theorem State.resetRegisters_lovf : (s.resetRegisters).lovf = false := rfl
@[simp] theorem State.resetRegisters_lbad : (s.resetRegisters).lbad = false := rfl
@[simp] theorem State.resetRegisters_lz : (s.resetRegisters).lz = false := rfl
@[simp] theorem State.resetRegisters_hdr : (s.resetRegisters).hdr = 0 := rfl
@[simp] theorem State.resetRegisters_pix : (s.resetRegisters).pix = s.pix := rfl
@[simp] theorem State.resetRegisters_pay : (s.resetRegisters).pay = s.pay := rfl
@[simp] theorem State.resetRegisters_host : (s.resetRegisters).host = s.host := rfl
@[simp] theorem State.resetRegisters_reply : (s.resetRegisters).reply = s.reply := rfl
end ResetRegisters

section SetPix
variable (s : State) (x y : Nat) (v : Pixel)
@[simp] theorem State.setPix_cfg : (s.setPix x y v).cfg = s.cfg := rfl
@[simp] theorem State.setPix_gw : (s.setPix x y v).gw = s.gw := rfl
@[simp] theorem State.setPix_gh : (s.setPix x y v).gh = s.gh := rfl
@[simp] theorem State.setPix_plen : (s.setPix x y v).plen = s.plen := rfl
@[simp] theorem State.setPix_len : (s.setPix x y v).len = s.len := rfl
@[simp] theorem State.setPix_busy : (s.setPix x y v).busy = s.busy := rfl
@[simp] theorem State.setPix_done : (s.setPix x y v).done = s.done := rfl
@[simp] theorem State.setPix_enc : (s.setPix x y v).enc = s.enc := rfl
@[simp] theorem State.setPix_result : (s.setPix x y v).result = s.result := rfl
@[simp] theorem State.setPix_cause : (s.setPix x y v).cause = s.cause := rfl
@[simp] theorem State.setPix_op : (s.setPix x y v).op = s.op := rfl
@[simp] theorem State.setPix_phase : (s.setPix x y v).phase = s.phase := rfl
@[simp] theorem State.setPix_n : (s.setPix x y v).n = s.n := rfl
@[simp] theorem State.setPix_acc : (s.setPix x y v).acc = s.acc := rfl
@[simp] theorem State.setPix_matched : (s.setPix x y v).matched = s.matched := rfl
@[simp] theorem State.setPix_dcnt : (s.setPix x y v).dcnt = s.dcnt := rfl
@[simp] theorem State.setPix_lacc : (s.setPix x y v).lacc = s.lacc := rfl
@[simp] theorem State.setPix_lovf : (s.setPix x y v).lovf = s.lovf := rfl
@[simp] theorem State.setPix_lbad : (s.setPix x y v).lbad = s.lbad := rfl
@[simp] theorem State.setPix_lz : (s.setPix x y v).lz = s.lz := rfl
@[simp] theorem State.setPix_hdr : (s.setPix x y v).hdr = s.hdr := rfl
@[simp] theorem State.setPix_pix : (s.setPix x y v).pix = Memory.put pairLt (x, y) v s.pix := rfl
@[simp] theorem State.setPix_pay : (s.setPix x y v).pay = s.pay := rfl
@[simp] theorem State.setPix_host : (s.setPix x y v).host = s.host := rfl
@[simp] theorem State.setPix_reply : (s.setPix x y v).reply = s.reply := rfl
end SetPix

section SetPay
variable (s : State) (i : Nat) (c : Ch)
@[simp] theorem State.setPay_cfg : (s.setPay i c).cfg = s.cfg := rfl
@[simp] theorem State.setPay_gw : (s.setPay i c).gw = s.gw := rfl
@[simp] theorem State.setPay_gh : (s.setPay i c).gh = s.gh := rfl
@[simp] theorem State.setPay_plen : (s.setPay i c).plen = s.plen := rfl
@[simp] theorem State.setPay_len : (s.setPay i c).len = s.len := rfl
@[simp] theorem State.setPay_busy : (s.setPay i c).busy = s.busy := rfl
@[simp] theorem State.setPay_done : (s.setPay i c).done = s.done := rfl
@[simp] theorem State.setPay_enc : (s.setPay i c).enc = s.enc := rfl
@[simp] theorem State.setPay_result : (s.setPay i c).result = s.result := rfl
@[simp] theorem State.setPay_cause : (s.setPay i c).cause = s.cause := rfl
@[simp] theorem State.setPay_op : (s.setPay i c).op = s.op := rfl
@[simp] theorem State.setPay_phase : (s.setPay i c).phase = s.phase := rfl
@[simp] theorem State.setPay_n : (s.setPay i c).n = s.n := rfl
@[simp] theorem State.setPay_acc : (s.setPay i c).acc = s.acc := rfl
@[simp] theorem State.setPay_matched : (s.setPay i c).matched = s.matched := rfl
@[simp] theorem State.setPay_dcnt : (s.setPay i c).dcnt = s.dcnt := rfl
@[simp] theorem State.setPay_lacc : (s.setPay i c).lacc = s.lacc := rfl
@[simp] theorem State.setPay_lovf : (s.setPay i c).lovf = s.lovf := rfl
@[simp] theorem State.setPay_lbad : (s.setPay i c).lbad = s.lbad := rfl
@[simp] theorem State.setPay_lz : (s.setPay i c).lz = s.lz := rfl
@[simp] theorem State.setPay_hdr : (s.setPay i c).hdr = s.hdr := rfl
@[simp] theorem State.setPay_pix : (s.setPay i c).pix = s.pix := rfl
@[simp] theorem State.setPay_pay : (s.setPay i c).pay = Memory.put indexLt i c s.pay := rfl
@[simp] theorem State.setPay_host : (s.setPay i c).host = s.host := rfl
@[simp] theorem State.setPay_reply : (s.setPay i c).reply = s.reply := rfl
end SetPay

section Accumulate
variable (s : State)
@[simp] theorem State.accumulate_cfg : (s.accumulate).cfg = s.cfg := rfl
@[simp] theorem State.accumulate_gw : (s.accumulate).gw = s.gw := rfl
@[simp] theorem State.accumulate_gh : (s.accumulate).gh = s.gh := rfl
@[simp] theorem State.accumulate_plen : (s.accumulate).plen = s.plen := rfl
@[simp] theorem State.accumulate_len : (s.accumulate).len = s.len := rfl
@[simp] theorem State.accumulate_busy : (s.accumulate).busy = s.busy := rfl
@[simp] theorem State.accumulate_done : (s.accumulate).done = s.done := rfl
@[simp] theorem State.accumulate_enc : (s.accumulate).enc = s.enc := rfl
@[simp] theorem State.accumulate_result : (s.accumulate).result = s.result := rfl
@[simp] theorem State.accumulate_cause : (s.accumulate).cause = s.cause := rfl
@[simp] theorem State.accumulate_op : (s.accumulate).op = s.op := rfl
@[simp] theorem State.accumulate_phase : (s.accumulate).phase = s.phase := rfl
@[simp] theorem State.accumulate_n : (s.accumulate).n = s.n := rfl
@[simp] theorem State.accumulate_acc : (s.accumulate).acc = s.acc := rfl
@[simp] theorem State.accumulate_matched : (s.accumulate).matched = s.matched := rfl
@[simp] theorem State.accumulate_dcnt : (s.accumulate).dcnt = s.dcnt + 1 := rfl
@[simp] theorem State.accumulate_lacc : (s.accumulate).lacc = s.nextLacc := rfl
@[simp] theorem State.accumulate_lovf : (s.accumulate).lovf = s.nextLovf := rfl
@[simp] theorem State.accumulate_lbad : (s.accumulate).lbad = s.nextLbad := rfl
@[simp] theorem State.accumulate_lz : (s.accumulate).lz = s.nextLz := rfl
@[simp] theorem State.accumulate_hdr : (s.accumulate).hdr = s.hdr := rfl
@[simp] theorem State.accumulate_pix : (s.accumulate).pix = s.pix := rfl
@[simp] theorem State.accumulate_pay : (s.accumulate).pay = s.pay := rfl
@[simp] theorem State.accumulate_host : (s.accumulate).host = s.host := rfl
@[simp] theorem State.accumulate_reply : (s.accumulate).reply = s.reply := rfl
end Accumulate

section SetHost
variable (s : State) (m : List HostMove)
@[simp] theorem State.setHost_cfg : (s.setHost m).cfg = s.cfg := rfl
@[simp] theorem State.setHost_gw : (s.setHost m).gw = s.gw := rfl
@[simp] theorem State.setHost_gh : (s.setHost m).gh = s.gh := rfl
@[simp] theorem State.setHost_plen : (s.setHost m).plen = s.plen := rfl
@[simp] theorem State.setHost_len : (s.setHost m).len = s.len := rfl
@[simp] theorem State.setHost_busy : (s.setHost m).busy = s.busy := rfl
@[simp] theorem State.setHost_done : (s.setHost m).done = s.done := rfl
@[simp] theorem State.setHost_enc : (s.setHost m).enc = s.enc := rfl
@[simp] theorem State.setHost_result : (s.setHost m).result = s.result := rfl
@[simp] theorem State.setHost_cause : (s.setHost m).cause = s.cause := rfl
@[simp] theorem State.setHost_op : (s.setHost m).op = s.op := rfl
@[simp] theorem State.setHost_phase : (s.setHost m).phase = s.phase := rfl
@[simp] theorem State.setHost_n : (s.setHost m).n = s.n := rfl
@[simp] theorem State.setHost_acc : (s.setHost m).acc = s.acc := rfl
@[simp] theorem State.setHost_matched : (s.setHost m).matched = s.matched := rfl
@[simp] theorem State.setHost_dcnt : (s.setHost m).dcnt = s.dcnt := rfl
@[simp] theorem State.setHost_lacc : (s.setHost m).lacc = s.lacc := rfl
@[simp] theorem State.setHost_lovf : (s.setHost m).lovf = s.lovf := rfl
@[simp] theorem State.setHost_lbad : (s.setHost m).lbad = s.lbad := rfl
@[simp] theorem State.setHost_lz : (s.setHost m).lz = s.lz := rfl
@[simp] theorem State.setHost_hdr : (s.setHost m).hdr = s.hdr := rfl
@[simp] theorem State.setHost_pix : (s.setHost m).pix = s.pix := rfl
@[simp] theorem State.setHost_pay : (s.setHost m).pay = s.pay := rfl
@[simp] theorem State.setHost_host : (s.setHost m).host = m := rfl
@[simp] theorem State.setHost_reply : (s.setHost m).reply = s.reply := rfl
@[simp] theorem State.setHost_npix : (s.setHost m).npix = s.npix := rfl
@[simp] theorem State.setHost_lmax : (s.setHost m).lmax = s.lmax := rfl
@[simp] theorem State.setHost_pixAt (x y : Nat) : (s.setHost m).pixAt x y = s.pixAt x y := rfl
@[simp] theorem State.setHost_payAt (i : Nat) : (s.setHost m).payAt i = s.payAt i := rfl
@[simp] theorem State.setHost_pixel (n : Nat) : (s.setHost m).pixel n = s.pixel n := rfl
@[simp] theorem State.setHost_coord (n : Nat) : (s.setHost m).coord n = s.coord n := rfl
@[simp] theorem State.setHost_csrWidth (k : Nat) : (s.setHost m).csrWidth k = s.csrWidth k := rfl
@[simp] theorem State.setHost_pairInSpace (x y : Nat) : (s.setHost m).pairInSpace x y = s.pairInSpace x y := rfl
@[simp] theorem State.setHost_statusWord : (s.setHost m).statusWord = s.statusWord := rfl
end SetHost

section SetReply
variable (s : State) (r : Reply)
@[simp] theorem State.setReply_cfg : (s.setReply r).cfg = s.cfg := rfl
@[simp] theorem State.setReply_gw : (s.setReply r).gw = s.gw := rfl
@[simp] theorem State.setReply_gh : (s.setReply r).gh = s.gh := rfl
@[simp] theorem State.setReply_plen : (s.setReply r).plen = s.plen := rfl
@[simp] theorem State.setReply_len : (s.setReply r).len = s.len := rfl
@[simp] theorem State.setReply_busy : (s.setReply r).busy = s.busy := rfl
@[simp] theorem State.setReply_done : (s.setReply r).done = s.done := rfl
@[simp] theorem State.setReply_enc : (s.setReply r).enc = s.enc := rfl
@[simp] theorem State.setReply_result : (s.setReply r).result = s.result := rfl
@[simp] theorem State.setReply_cause : (s.setReply r).cause = s.cause := rfl
@[simp] theorem State.setReply_op : (s.setReply r).op = s.op := rfl
@[simp] theorem State.setReply_phase : (s.setReply r).phase = s.phase := rfl
@[simp] theorem State.setReply_n : (s.setReply r).n = s.n := rfl
@[simp] theorem State.setReply_acc : (s.setReply r).acc = s.acc := rfl
@[simp] theorem State.setReply_matched : (s.setReply r).matched = s.matched := rfl
@[simp] theorem State.setReply_dcnt : (s.setReply r).dcnt = s.dcnt := rfl
@[simp] theorem State.setReply_lacc : (s.setReply r).lacc = s.lacc := rfl
@[simp] theorem State.setReply_lovf : (s.setReply r).lovf = s.lovf := rfl
@[simp] theorem State.setReply_lbad : (s.setReply r).lbad = s.lbad := rfl
@[simp] theorem State.setReply_lz : (s.setReply r).lz = s.lz := rfl
@[simp] theorem State.setReply_hdr : (s.setReply r).hdr = s.hdr := rfl
@[simp] theorem State.setReply_pix : (s.setReply r).pix = s.pix := rfl
@[simp] theorem State.setReply_pay : (s.setReply r).pay = s.pay := rfl
@[simp] theorem State.setReply_host : (s.setReply r).host = s.host := rfl
@[simp] theorem State.setReply_reply : (s.setReply r).reply = some r := rfl
@[simp] theorem State.setReply_npix : (s.setReply r).npix = s.npix := rfl
@[simp] theorem State.setReply_lmax : (s.setReply r).lmax = s.lmax := rfl
@[simp] theorem State.setReply_pixAt (x y : Nat) : (s.setReply r).pixAt x y = s.pixAt x y := rfl
@[simp] theorem State.setReply_payAt (i : Nat) : (s.setReply r).payAt i = s.payAt i := rfl
@[simp] theorem State.setReply_pixel (n : Nat) : (s.setReply r).pixel n = s.pixel n := rfl
@[simp] theorem State.setReply_coord (n : Nat) : (s.setReply r).coord n = s.coord n := rfl
@[simp] theorem State.setReply_csrWidth (k : Nat) : (s.setReply r).csrWidth k = s.csrWidth k := rfl
@[simp] theorem State.setReply_pairInSpace (x y : Nat) : (s.setReply r).pairInSpace x y = s.pairInSpace x y := rfl
@[simp] theorem State.setReply_statusWord : (s.setReply r).statusWord = s.statusWord := rfl
end SetReply

section WithCommand
variable (s : State) (w : BitVec 8)
@[simp] theorem State.withCommand_cfg : (s.withCommand w).cfg = s.cfg := rfl
@[simp] theorem State.withCommand_gw : (s.withCommand w).gw = s.gw := rfl
@[simp] theorem State.withCommand_gh : (s.withCommand w).gh = s.gh := rfl
@[simp] theorem State.withCommand_plen : (s.withCommand w).plen = s.plen := rfl
@[simp] theorem State.withCommand_len : (s.withCommand w).len = s.len := rfl
@[simp] theorem State.withCommand_busy : (s.withCommand w).busy = s.busy := rfl
@[simp] theorem State.withCommand_done : (s.withCommand w).done = s.done := rfl
@[simp] theorem State.withCommand_enc : (s.withCommand w).enc = s.enc := rfl
@[simp] theorem State.withCommand_result : (s.withCommand w).result = s.result := rfl
@[simp] theorem State.withCommand_cause : (s.withCommand w).cause = s.cause := rfl
@[simp] theorem State.withCommand_op : (s.withCommand w).op = s.op := rfl
@[simp] theorem State.withCommand_phase : (s.withCommand w).phase = s.phase := rfl
@[simp] theorem State.withCommand_n : (s.withCommand w).n = s.n := rfl
@[simp] theorem State.withCommand_acc : (s.withCommand w).acc = s.acc := rfl
@[simp] theorem State.withCommand_matched : (s.withCommand w).matched = s.matched := rfl
@[simp] theorem State.withCommand_dcnt : (s.withCommand w).dcnt = s.dcnt := rfl
@[simp] theorem State.withCommand_lacc : (s.withCommand w).lacc = s.lacc := rfl
@[simp] theorem State.withCommand_lovf : (s.withCommand w).lovf = s.lovf := rfl
@[simp] theorem State.withCommand_lbad : (s.withCommand w).lbad = s.lbad := rfl
@[simp] theorem State.withCommand_lz : (s.withCommand w).lz = s.lz := rfl
@[simp] theorem State.withCommand_hdr : (s.withCommand w).hdr = s.hdr := rfl
@[simp] theorem State.withCommand_pix : (s.withCommand w).pix = s.pix := rfl
@[simp] theorem State.withCommand_pay : (s.withCommand w).pay = s.pay := rfl
@[simp] theorem State.withCommand_host : (s.withCommand w).host = .command w :: s.host := rfl
@[simp] theorem State.withCommand_reply : (s.withCommand w).reply = s.reply := rfl
end WithCommand

section MatchChar
variable (s : State) (k : Nat)
@[simp] theorem State.matchChar_cfg : (s.matchChar k).cfg = s.cfg := by unfold State.matchChar; split <;> rfl
@[simp] theorem State.matchChar_gw : (s.matchChar k).gw = s.gw := by unfold State.matchChar; split <;> rfl
@[simp] theorem State.matchChar_gh : (s.matchChar k).gh = s.gh := by unfold State.matchChar; split <;> rfl
@[simp] theorem State.matchChar_plen : (s.matchChar k).plen = s.plen := by unfold State.matchChar; split <;> rfl
@[simp] theorem State.matchChar_len : (s.matchChar k).len = s.len := by unfold State.matchChar; split <;> rfl
@[simp] theorem State.matchChar_busy : (s.matchChar k).busy = s.busy := by unfold State.matchChar; split <;> rfl
@[simp] theorem State.matchChar_done : (s.matchChar k).done = s.done := by unfold State.matchChar; split <;> rfl
@[simp] theorem State.matchChar_enc : (s.matchChar k).enc = s.enc := by unfold State.matchChar; split <;> rfl
@[simp] theorem State.matchChar_result : (s.matchChar k).result = s.result := by unfold State.matchChar; split <;> rfl
@[simp] theorem State.matchChar_cause : (s.matchChar k).cause = s.cause := by unfold State.matchChar; split <;> rfl
@[simp] theorem State.matchChar_op : (s.matchChar k).op = s.op := by unfold State.matchChar; split <;> rfl
@[simp] theorem State.matchChar_phase : (s.matchChar k).phase = s.phase := by unfold State.matchChar; split <;> rfl
@[simp] theorem State.matchChar_n : (s.matchChar k).n = s.n := by unfold State.matchChar; split <;> rfl
@[simp] theorem State.matchChar_acc : (s.matchChar k).acc = s.acc := by unfold State.matchChar; split <;> rfl
theorem State.matchChar_matched :
    (s.matchChar k).matched = (s.matched && decide (s.acc = markerChar k)) := by
  unfold State.matchChar; split <;> simp_all
@[simp] theorem State.matchChar_dcnt : (s.matchChar k).dcnt = s.dcnt := by unfold State.matchChar; split <;> rfl
@[simp] theorem State.matchChar_lacc : (s.matchChar k).lacc = s.lacc := by unfold State.matchChar; split <;> rfl
@[simp] theorem State.matchChar_lovf : (s.matchChar k).lovf = s.lovf := by unfold State.matchChar; split <;> rfl
@[simp] theorem State.matchChar_lbad : (s.matchChar k).lbad = s.lbad := by unfold State.matchChar; split <;> rfl
@[simp] theorem State.matchChar_lz : (s.matchChar k).lz = s.lz := by unfold State.matchChar; split <;> rfl
@[simp] theorem State.matchChar_hdr : (s.matchChar k).hdr = s.hdr := by unfold State.matchChar; split <;> rfl
@[simp] theorem State.matchChar_pix : (s.matchChar k).pix = s.pix := by unfold State.matchChar; split <;> rfl
@[simp] theorem State.matchChar_pay : (s.matchChar k).pay = s.pay := by unfold State.matchChar; split <;> rfl
@[simp] theorem State.matchChar_host : (s.matchChar k).host = s.host := by unfold State.matchChar; split <;> rfl
@[simp] theorem State.matchChar_reply : (s.matchChar k).reply = s.reply := by unfold State.matchChar; split <;> rfl
end MatchChar

section PlacesAndWidths
variable (s : State) (x y i : Nat) (v : Pixel) (c : Ch)
@[simp] theorem State.setPix_npix : (s.setPix x y v).npix = s.npix := rfl
@[simp] theorem State.setPix_lmax : (s.setPix x y v).lmax = s.lmax := rfl
@[simp] theorem State.setPix_coord (n : Nat) : (s.setPix x y v).coord n = s.coord n := rfl
@[simp] theorem State.setPix_pairInSpace (a b : Nat) : (s.setPix x y v).pairInSpace a b = s.pairInSpace a b := rfl
@[simp] theorem State.setPay_npix : (s.setPay i c).npix = s.npix := rfl
@[simp] theorem State.setPay_lmax : (s.setPay i c).lmax = s.lmax := rfl
@[simp] theorem State.setPay_coord (n : Nat) : (s.setPay i c).coord n = s.coord n := rfl
@[simp] theorem State.setPay_pixel (n : Nat) : (s.setPay i c).pixel n = s.pixel n := rfl
@[simp] theorem State.setPay_pairInSpace (a b : Nat) : (s.setPay i c).pairInSpace a b = s.pairInSpace a b := rfl
end PlacesAndWidths

end Sys2Proof.Machine
end

