-- ==== Sys2Proof/Laws/Memory.lean ====
section
/-! SUPPORT. The laws of the two memories: read after write, every other place as before, the canonical form kept. -/

namespace Sys2Proof.Machine

variable {κ ν : Type} [DecidableEq κ]

theorem Memory.find_put_same (lt : κ → κ → Bool) (k : κ) (v : ν) (m : List (κ × ν)) :
    Memory.find k (Memory.put lt k v m) = some v := by
  induction m with
  | nil => simp [Memory.put, Memory.find]
  | cons e rest ih =>
    obtain ⟨a, w⟩ := e
    unfold Memory.put
    split
    · simp [Memory.find]
    · split
      · simp [Memory.find]
      · simp_all [Memory.find]

theorem Memory.find_put_other (lt : κ → κ → Bool) {j k : κ} (h : j ≠ k) (v : ν) (m : List (κ × ν)) :
    Memory.find j (Memory.put lt k v m) = Memory.find j m := by
  induction m with
  | nil => simp [Memory.put, Memory.find, Ne.symm h]
  | cons e rest ih =>
    obtain ⟨a, w⟩ := e
    unfold Memory.put
    split
    · rename_i hak; subst hak; simp [Memory.find, Ne.symm h]
    · split
      · simp [Memory.find, Ne.symm h]
      · simp [Memory.find, ih]

/-- A listed place after a write is one that was listed, or the place written. -/
theorem Memory.mem_put {lt : κ → κ → Bool} {k : κ} {v : ν} {m : List (κ × ν)} {e : κ × ν}
    (h : e ∈ Memory.put lt k v m) : e = (k, v) ∨ e ∈ m := by
  induction m with
  | nil => simpa [Memory.put] using h
  | cons b rest ih =>
    obtain ⟨a, w⟩ := b
    unfold Memory.put at h
    split at h
    · rcases List.mem_cons.1 h with h | h <;> simp [h]
    · split at h
      · rcases List.mem_cons.1 h with h | h <;> simp [h]
      · rcases List.mem_cons.1 h with h | h
        · simp [h]
        · rcases ih h with h | h <;> simp [h]

/-- A write keeps the canonical form, whenever `lt` is transitive and compares any two different keys. -/
theorem Memory.wf_put {lt : κ → κ → Bool} (trans : ∀ a b c, lt a b = true → lt b c = true → lt a c = true)
    (total : ∀ a b, a ≠ b → lt a b = false → lt b a = true) (k : κ) (v : ν) {m : List (κ × ν)}
    (h : Memory.wf lt m) : Memory.wf lt (Memory.put lt k v m) := by
  induction m with
  | nil => simp [Memory.put, Memory.wf]
  | cons b rest ih =>
    obtain ⟨a, w⟩ := b
    obtain ⟨hhead, htail⟩ := List.pairwise_cons.1 h
    unfold Memory.put
    split
    · rename_i hak; subst hak
      exact List.pairwise_cons.2 ⟨hhead, htail⟩
    · rename_i hak
      split
      · rename_i hlt
        refine List.pairwise_cons.2 ⟨?_, h⟩
        intro e he
        rcases List.mem_cons.1 he with rfl | he
        · exact hlt
        · exact trans _ _ _ hlt (hhead e he)
      · rename_i hlt
        refine List.pairwise_cons.2 ⟨?_, ih htail⟩
        intro e he
        rcases Memory.mem_put he with rfl | he
        · exact total _ _ (Ne.symm hak) (by simpa using hlt)
        · exact hhead e he

omit [DecidableEq κ] in
theorem pairLt_trans (a b c : Nat × Nat) (h : pairLt a b = true) (h' : pairLt b c = true) : pairLt a c = true := by
  simp only [pairLt, Bool.or_eq_true, Bool.and_eq_true, decide_eq_true_eq] at *
  omega

theorem pairLt_total (a b : Nat × Nat) (hne : a ≠ b) (h : pairLt a b = false) : pairLt b a = true := by
  have : ¬ (a.1 = b.1 ∧ a.2 = b.2) := fun hab => hne (Prod.ext hab.1 hab.2)
  simp only [pairLt, Bool.or_eq_true, Bool.and_eq_true, decide_eq_true_eq, Bool.or_eq_false_iff,
    Bool.and_eq_false_iff, decide_eq_false_iff_not] at *
  omega

theorem indexLt_trans (a b c : Nat) (h : indexLt a b = true) (h' : indexLt b c = true) : indexLt a c = true := by
  simp only [indexLt, decide_eq_true_eq] at *
  omega

theorem indexLt_total (a b : Nat) (hne : a ≠ b) (h : indexLt a b = false) : indexLt b a = true := by
  simp only [indexLt, decide_eq_true_eq, decide_eq_false_iff_not] at *
  omega

/-- Every memory operation keeps both memories in canonical form: the write of PIX. -/
theorem State.setPix_memoriesWf (s : State) (x y : Nat) (v : Pixel) (h : s.memoriesWf) :
    (s.setPix x y v).memoriesWf :=
  ⟨Memory.wf_put pairLt_trans pairLt_total _ _ h.1, h.2⟩

/-- Every memory operation keeps both memories in canonical form: the write of PAY. -/
theorem State.setPay_memoriesWf (s : State) (i : Nat) (c : Ch) (h : s.memoriesWf) : (s.setPay i c).memoriesWf :=
  ⟨h.1, Memory.wf_put indexLt_trans indexLt_total _ _ h.2⟩

theorem State.resetWith_memoriesWf (c : Config) : (State.resetWith c).memoriesWf :=
  ⟨List.Pairwise.nil, List.Pairwise.nil⟩

/-! ## Read after write -/

theorem State.setPix_pixAt_same (s : State) (x y : Nat) (v : Pixel) : (s.setPix x y v).pixAt x y = v := by
  simp [State.pixAt, State.setPix, Memory.find_put_same]

theorem State.setPix_pixAt_other (s : State) {x y a b : Nat} (h : (a, b) ≠ (x, y)) (v : Pixel) :
    (s.setPix x y v).pixAt a b = s.pixAt a b := by
  simp [State.pixAt, State.setPix, Memory.find_put_other _ h]

theorem State.setPay_payAt_same (s : State) (i : Nat) (c : Ch) : (s.setPay i c).payAt i = c := by
  simp [State.payAt, State.setPay, Memory.find_put_same]

theorem State.setPay_payAt_other (s : State) {i j : Nat} (h : j ≠ i) (c : Ch) :
    (s.setPay i c).payAt j = s.payAt j := by
  simp [State.payAt, State.setPay, Memory.find_put_other _ h]

/-! ## Reads see only the memory they read -/

/-- PIX reads depend on the list of PIX alone. -/
theorem State.pixAt_congr {s t : State} (h : t.pix = s.pix) (x y : Nat) : t.pixAt x y = s.pixAt x y := by
  simp [State.pixAt, h]

/-- PAY reads depend on the list of PAY alone. -/
theorem State.payAt_congr {s t : State} (h : t.pay = s.pay) (i : Nat) : t.payAt i = s.payAt i := by
  simp [State.payAt, h]

/-- PIX[n] depends on the list of PIX and on GH (R233). -/
theorem State.pixel_congr {s t : State} (h : t.pix = s.pix) (hg : t.gh = s.gh) (n : Nat) : t.pixel n = s.pixel n := by
  simp [State.pixel, State.coord, State.pixAt, h, hg]

@[simp] theorem State.setPix_payAt (s : State) (x y : Nat) (v : Pixel) (i : Nat) :
    (s.setPix x y v).payAt i = s.payAt i := rfl

@[simp] theorem State.setPay_pixAt (s : State) (i : Nat) (c : Ch) (x y : Nat) :
    (s.setPay i c).pixAt x y = s.pixAt x y := rfl

/-- Different linear indices have different coordinates (R52). -/
theorem State.coord_ne {s : State} {m n : Nat} (h : m ≠ n) : s.coord m ≠ s.coord n := by
  intro he
  apply h
  have h1 : m / s.gh = n / s.gh := congrArg Prod.fst he
  have h2 : m % s.gh = n % s.gh := congrArg Prod.snd he
  rw [← Nat.div_add_mod m s.gh, ← Nat.div_add_mod n s.gh, h1, h2]

theorem State.setPix_pixel_same (s : State) (n : Nat) (v : Pixel) :
    (s.setPix (s.coord n).1 (s.coord n).2 v).pixel n = v :=
  State.setPix_pixAt_same s _ _ v

theorem State.setPix_pixel_other (s : State) {m n : Nat} (h : m ≠ n) (v : Pixel) :
    (s.setPix (s.coord n).1 (s.coord n).2 v).pixel m = s.pixel m :=
  State.setPix_pixAt_other s (State.coord_ne h) v

end Sys2Proof.Machine
end

