-- ==== Sys2Proof/Laws/Primitives.lean ====
section
/-! SUPPORT. Small lemmas of the primitive functions: the bits of a symbol, a character, a pixel, and the numeral's
recursion on fuel. -/

namespace Sys2Proof.Machine

theorem shiftIn_getLsbD (a : Ch) (s : Symbol) (i : Nat) :
    (shiftIn a s).getLsbD i = if i < 2 then s.getLsbD i else (decide (i < 8) && a.getLsbD (i - 2)) := by
  unfold shiftIn
  rw [BitVec.getLsbD_append, BitVec.getLsbD_extractLsb']
  by_cases h : i < 2
  · simp [h]
  · have : (decide (i - 2 < 6)) = decide (i < 8) := by
      rcases Nat.lt_or_ge i 8 with h8 | h8 <;> simp <;> omega
    simp [h, this]

/-- Four symbols shifted in replace all eight bits of ACC (R33): the last shift in terms of `join`. -/
theorem shiftIn_join (a b c d : Ch) (s0 s1 s2 s3 : Symbol)
    (h0 : b = shiftIn a s0) (h1 : c = shiftIn b s1) (h2 : d = shiftIn c s2) : shiftIn d s3 = join s0 s1 s2 s3 := by
  subst h0 h1 h2
  apply BitVec.eq_of_getLsbD_eq
  intro i hi
  simp only [join, shiftIn_getLsbD, BitVec.getLsbD_append]
  rcases i with _ | _ | _ | _ | _ | _ | _ | _ | i <;> simp

theorem embed_getLsbD (p : Pixel) (s : Symbol) (i : Nat) :
    (embed p s).getLsbD i = if i < 2 then s.getLsbD i else p.getLsbD i := by
  rcases Nat.lt_or_ge i 32 with h | h
  · simp only [embed, BitVec.getLsbD_or, BitVec.getLsbD_and, BitVec.getLsbD_setWidth]
    interval_cases i <;> simp
  · have h2 : ¬ i < 2 := by omega
    rw [if_neg h2, BitVec.getLsbD_of_ge _ _ h, BitVec.getLsbD_of_ge _ _ h]

theorem extract_getLsbD (p : Pixel) (i : Nat) : (extract p).getLsbD i = (decide (i < 2) && p.getLsbD i) := by
  simp [extract, BitVec.getLsbD_extractLsb']

theorem symOf_getLsbD (c : Ch) (j i : Nat) (hj : j < 4) :
    (symOf c j).getLsbD i = (decide (i < 2) && c.getLsbD (6 - 2 * j + i)) := by
  simp only [symOf, BitVec.getLsbD_setWidth, BitVec.getLsbD_and, BitVec.getLsbD_ushiftRight]
  rcases Nat.lt_or_ge i 2 with h | h
  · interval_cases i <;> interval_cases j <;> simp
  · simp [show ¬ i < 2 by omega]

/-! ## Decimal numerals -/

/-- More fuel than digits changes nothing. -/
theorem decFuel_enough (f g l : Nat) (hf : l < f) (hg : l < g) : decFuel f l = decFuel g l := by
  induction f generalizing g l with
  | zero => omega
  | succ f ih =>
    cases g with
    | zero => omega
    | succ g =>
      unfold decFuel
      split
      · rfl
      · rename_i h
        rw [ih g (l / 10) (by omega) (by omega)]

theorem digitChar_toNat (d : Nat) (h : d < 10) : (digitChar d).toNat = 0x30 + d := by
  simp only [digitChar, BitVec.toNat_ofNat]
  omega

theorem digitChar_isDigit (d : Nat) (h : d < 10) : isDigit (digitChar d) = true := by
  simp only [isDigit, digitChar_toNat d h, Bool.and_eq_true, decide_eq_true_eq]
  omega

theorem digitVal_digitChar (d : Nat) (h : d < 10) : digitVal (digitChar d) = d := by
  simp only [digitVal, digitChar_toNat d h]
  omega

/-- A digit is the character of its value. -/
theorem digitChar_digitVal (c : Ch) (h : isDigit c = true) : digitChar (digitVal c) = c := by
  simp only [isDigit, Bool.and_eq_true, decide_eq_true_eq] at h
  apply BitVec.eq_of_toNat_eq
  rw [digitChar_toNat _ (by unfold digitVal; omega)]
  unfold digitVal
  omega

theorem digitVal_lt (c : Ch) (h : isDigit c = true) : digitVal c < 10 := by
  simp only [isDigit, Bool.and_eq_true, decide_eq_true_eq] at h
  unfold digitVal
  omega

/-- VAL(s ++ [c]) = 10 VAL(s) + (c - 0x30) (R109). -/
theorem val_append (s : List Ch) (c : Ch) : val (s ++ [c]) = 10 * val s + digitVal c := by
  simp [val, List.foldl_append]

theorem dec_small {l : Nat} (h : l < 10) : dec l = [digitChar l] := by simp [dec, decFuel, h]

theorem dec_big {l : Nat} (h : 10 ≤ l) : dec l = dec (l / 10) ++ [digitChar (l % 10)] := by
  have : ¬ l < 10 := by omega
  conv => lhs; unfold dec decFuel
  rw [if_neg this, decFuel_enough l (l/10+1) (l/10) (by omega) (by omega)]
  rfl

theorem digits_small {l : Nat} (h : l < 10) : digits l = 1 := by simp [digits, dec_small h]

theorem digits_big {l : Nat} (h : 10 ≤ l) : digits l = digits (l/10) + 1 := by simp [digits, dec_big h]

theorem canon_snoc {str : List Ch} (h : str ≠ []) (c : Ch) :
   canon (str ++ [c]) = (canon str && isDigit c && decide (str.head? ≠ some 0x30#8)) := by
  cases str with
  | nil => exact absurd rfl h
  | cons a r =>
    simp only [canon, List.isEmpty_cons, List.cons_append, List.all_cons, List.all_append, List.head?_cons,
        List.length_cons, List.length_append, List.all_nil, Bool.and_true]
    cases isDigit a <;> cases r.all isDigit <;> cases isDigit c <;> by_cases ha : a = 0x30#8 <;> simp [ha]

end Sys2Proof.Machine
end

