-- ==== Sys2Proof/Laws/Run.lean ====
section
/-! SUPPORT. Running an operation: how `runOp` composes, what one step of each phase does, and what four steps of a
reading phase do, so that no later proof unfolds a step rule. -/

namespace Sys2Proof.Machine

/-! ## runOp -/

theorem runOp_succ {f : State → Except Fault State} {s t : State} (k : Nat) (hb : s.busy = true) (h : f s = .ok t) :
    runOp f (k + 1) s = runOp f k t := by
  simp [runOp, hb, h]

theorem runOp_idle (f : State → Except Fault State) (k : Nat) {s : State} (hb : s.busy = false) :
    runOp f k s = .next s := by
  cases k <;> simp [runOp, hb]

theorem runOp_add {f : State → Except Fault State} {a : Nat} {s t : State} (b : Nat) (h : runOp f a s = .next t) :
    runOp f (a + b) s = runOp f b t := by
  induction a generalizing s with
  | zero => cases h; simp
  | succ a ih =>
    cases hb : s.busy with
    | false =>
      rw [runOp_idle f _ hb] at h ⊢
      cases h
      rw [runOp_idle f _ hb]
    | true =>
      rw [show a + 1 + b = (a + b) + 1 by omega]
      cases hf : f s with
      | error e => simp [runOp, hb, hf] at h
      | ok u =>
        rw [runOp_succ _ hb hf] at h ⊢
        exact ih h

/-- Once an operation has ended, more fuel changes nothing. -/
theorem runOp_enough {f : State → Except Fault State} {a b : Nat} {s t : State} (h : runOp f a s = .next t)
    (ht : t.busy = false) (hab : a ≤ b) : runOp f b s = .next t := by
  obtain ⟨c, rfl⟩ := Nat.exists_eq_add_of_le hab
  rw [runOp_add c h, runOp_idle f _ ht]

/-- What each step keeps, a run keeps. -/
theorem runOp_keeps {f : State → Except Fault State} (P : State → Prop)
    (hf : ∀ s t, P s → s.busy = true → f s = .ok t → P t) {k : Nat} {s t : State} (hs : P s)
    (h : runOp f k s = .next t) : P t := by
  induction k generalizing s with
  | zero => cases h; exact hs
  | succ k ih =>
    cases hb : s.busy with
    | false => rw [runOp_idle f _ hb] at h; cases h; exact hs
    | true =>
      cases hfs : f s with
      | error e => simp [runOp, hb, hfs] at h
      | ok u =>
        rw [runOp_succ _ hb hfs] at h
        exact ih (hf _ _ hs hb hfs) h

/-! ## One step of a reading phase -/

theorem State.readPixel_ok {s : State} {n : Nat} (h : n < s.npix) : s.readPixel n = .ok (s.pixel n) := by
  simp [State.readPixel, h]

/-- The state after reading one symbol at the cursor. -/
def State.afterSymbol (s : State) : State :=
  { s with acc := shiftIn s.acc (extract (s.pixel s.n)), n := s.n + 1 }

/-- The state after reading the four symbols of character k from its first pixel. -/
def State.afterChar (s : State) (k : Nat) : State := { s with acc := s.charAt k, n := 4 * k + 4 }

theorem State.readSymbol_ok {s : State} (h : s.n < s.npix) : s.readSymbol = .ok s.afterSymbol := by
  simp [State.readSymbol, State.readPixel_ok h, State.afterSymbol]

/-- `readSymbol` can do nothing else. -/
theorem State.readSymbol_cases {s t : State} (h : s.readSymbol = .ok t) : s.n < s.npix ∧ t = s.afterSymbol := by
  by_cases hn : s.n < s.npix
  · rw [State.readSymbol_ok hn] at h
    exact ⟨hn, (Except.ok.inj h).symm⟩
  · simp [State.readSymbol, State.readPixel, hn] at h

theorem State.afterSymbol_four {s : State} {k : Nat} (hn : s.n = 4 * k) :
    s.afterSymbol.afterSymbol.afterSymbol.afterSymbol = s.afterChar k := by
  unfold State.afterChar State.afterSymbol State.charAt
  rw [← shiftIn_join s.acc _ _ _ _ _ _ _ rfl rfl rfl]
  simp [hn, State.pixel, State.pixAt, State.coord]

theorem markStep_read {s : State} (h36 : 36 ≤ s.npix) (hn : s.n < 36) (h4 : (s.n + 1) % 4 ≠ 0) :
    markStep s = .ok s.afterSymbol := by
  unfold markStep
  rw [if_neg (show ¬ s.npix < 36 from Nat.not_lt.2 h36), if_pos (show s.n < 36 from hn),
    State.readSymbol_ok (by omega)]
  exact congrArg Except.ok (if_neg h4)

theorem markStep_char {s : State} (h36 : 36 ≤ s.npix) (hn : s.n < 36) (h4 : (s.n + 1) % 4 = 0) :
    markStep s = .ok (s.afterSymbol.matchChar ((s.n + 1) / 4 - 1)) := by
  unfold markStep
  rw [if_neg (show ¬ s.npix < 36 from Nat.not_lt.2 h36), if_pos (show s.n < 36 from hn),
    State.readSymbol_ok (by omega)]
  exact congrArg Except.ok (if_pos h4)

theorem markStep_close {s : State} (h36 : 36 ≤ s.npix) (hn : 36 ≤ s.n) : markStep s = .ok (markClose s) := by
  unfold markStep
  rw [if_neg (show ¬ s.npix < 36 from Nat.not_lt.2 h36), if_neg (show ¬ s.n < 36 from Nat.not_lt.2 hn)]

theorem markStep_small {s : State} (h36 : s.npix < 36) : markStep s = .ok (markClose { s with matched := false }) := by
  unfold markStep
  rw [if_pos (show s.npix < 36 from h36)]

theorem lenStep_read {s : State} (hn : s.n < s.npix) (h4 : (s.n + 1) % 4 ≠ 0) : lenStep s = .ok s.afterSymbol := by
  unfold lenStep
  rw [if_neg (Nat.not_le.2 hn), State.readSymbol_ok hn]
  exact congrArg Except.ok (if_neg h4)

theorem lenStep_char {s : State} (hn : s.n < s.npix) (h4 : (s.n + 1) % 4 = 0) :
    lenStep s = .ok (if s.afterSymbol.acc = delim then lenTerminator s.afterSymbol
      else s.afterSymbol.accumulate) := by
  unfold lenStep
  rw [if_neg (Nat.not_le.2 hn), State.readSymbol_ok hn]
  exact congrArg Except.ok (if_pos h4)

theorem lenStep_exhausted {s : State} (hn : s.npix ≤ s.n) : lenStep s = .ok (s.finish .parseError .exhausted) := by
  unfold lenStep
  rw [if_pos hn]

theorem extractStep_read {s : State} (hn : s.n < s.npix) (hl : s.n < s.hdr + 4 * s.len) (h4 : (s.n + 1) % 4 ≠ 0) :
    extractStep s = .ok s.afterSymbol := by
  unfold extractStep
  rw [if_pos hl, State.readSymbol_ok hn]
  exact if_neg h4

theorem extractStep_char {s : State} (hn : s.n < s.npix) (hl : s.n < s.hdr + 4 * s.len) (h4 : (s.n + 1) % 4 = 0)
    (hi : (s.n + 1 - s.hdr) / 4 - 1 < s.lmax) :
    extractStep s = .ok (s.afterSymbol.setPay ((s.n + 1 - s.hdr) / 4 - 1) s.afterSymbol.acc) := by
  unfold extractStep
  rw [if_pos hl, State.readSymbol_ok hn]
  exact (if_pos h4).trans (if_pos hi)

theorem extractStep_close {s : State} (hl : s.hdr + 4 * s.len ≤ s.n) :
    extractStep s = .ok (s.finish .ok .noCause) := by
  unfold extractStep
  rw [if_neg (Nat.not_lt.2 hl)]

/-! ## Four steps: one character -/

/-- Three steps that only read a symbol, then one that ends a character: `rule` is the operation's step function, `step`
the rule of its reading phase. -/
theorem runOp_char {rule step : State → Except Fault State} {ph : Phase} (hrule : ∀ u, u.phase = ph → rule u = step u)
    {s t : State} (hb : s.busy = true) (hp : s.phase = ph)
    (hread : ∀ u, u = s ∨ u = s.afterSymbol ∨ u = s.afterSymbol.afterSymbol → step u = .ok u.afterSymbol)
    (hchar : step s.afterSymbol.afterSymbol.afterSymbol = .ok t) : runOp rule 4 s = .next t := by
  rw [runOp_succ 3 hb (by rw [hrule s hp]; exact hread _ (.inl rfl)),
    runOp_succ 2 (by exact hb) (by rw [hrule _ (by exact hp)]; exact hread _ (.inr (.inl rfl))),
    runOp_succ 1 (by exact hb) (by rw [hrule _ (by exact hp)]; exact hread _ (.inr (.inr rfl))),
    runOp_succ 0 (by exact hb) (by rw [hrule _ (by exact hp)]; exact hchar)]
  rfl

/-- D_MARK over one character. -/
theorem runOp_mark_char {rule : State → Except Fault State} (hrule : ∀ u, u.phase = .dMark → rule u = markStep u)
    {s : State} {k : Nat} (hb : s.busy = true) (hp : s.phase = .dMark) (hn : s.n = 4 * k) (hk : k < 9)
    (h36 : 36 ≤ s.npix) : runOp rule 4 s = .next ((s.afterChar k).matchChar k) := by
  have hc : markStep s.afterSymbol.afterSymbol.afterSymbol =
      .ok ((s.afterChar k).matchChar k) := by
    rw [markStep_char (by exact h36) (by show s.n + 1 + 1 + 1 < 36; omega)
      (by show (s.n + 1 + 1 + 1 + 1) % 4 = 0; omega), State.afterSymbol_four hn]
    congr 2
    show (s.n + 1 + 1 + 1 + 1) / 4 - 1 = k
    omega
  refine runOp_char hrule hb hp ?_ hc
  rintro u (rfl | rfl | rfl)
  · exact markStep_read h36 (by omega) (by omega)
  · exact markStep_read (by exact h36) (by show s.n + 1 < 36; omega) (by show (s.n + 1 + 1) % 4 ≠ 0; omega)
  · exact markStep_read (by exact h36) (by show s.n + 1 + 1 < 36; omega) (by show (s.n + 1 + 1 + 1) % 4 ≠ 0; omega)

/-- D_LEN over one character that lies wholly inside the grid. -/
theorem runOp_len_char {rule : State → Except Fault State} (hrule : ∀ u, u.phase = .dLen → rule u = lenStep u)
    {s : State} {k : Nat} (hb : s.busy = true) (hp : s.phase = .dLen) (hn : s.n = 4 * k) (hk : 4 * k + 3 < s.npix) :
    runOp rule 4 s = .next (if s.charAt k = delim then lenTerminator (s.afterChar k)
      else (s.afterChar k).accumulate) := by
  have hc : lenStep s.afterSymbol.afterSymbol.afterSymbol =
      .ok (if s.charAt k = delim then lenTerminator (s.afterChar k) else (s.afterChar k).accumulate) := by
    rw [lenStep_char (by show s.n + 1 + 1 + 1 < s.npix; omega)
      (by show (s.n + 1 + 1 + 1 + 1) % 4 = 0; omega), State.afterSymbol_four hn]
    rfl
  refine runOp_char hrule hb hp ?_ hc
  rintro u (rfl | rfl | rfl)
  · exact lenStep_read (by omega) (by omega)
  · exact lenStep_read (by show s.n + 1 < s.npix; omega) (by show (s.n + 1 + 1) % 4 ≠ 0; omega)
  · exact lenStep_read (by show s.n + 1 + 1 < s.npix; omega) (by show (s.n + 1 + 1 + 1) % 4 ≠ 0; omega)

/-- D_XTR over one character of the payload. -/
theorem runOp_extract_char {rule : State → Except Fault State} (hrule : ∀ u, u.phase = .dXtr → rule u = extractStep u)
    {s : State} {i h : Nat} (hb : s.busy = true) (hp : s.phase = .dXtr) (hh : s.hdr = 4 * h) (hn : s.n = 4 * (h + i))
    (hi : i < s.len) (hfit : s.hdr + 4 * s.len ≤ s.npix) (hl : i < s.lmax) :
    runOp rule 4 s = .next ((s.afterChar (h + i)).setPay i (s.charAt (h + i))) := by
  have hidx : (s.n + 1 + 1 + 1 + 1 - s.hdr) / 4 - 1 = i := by omega
  have hc : extractStep s.afterSymbol.afterSymbol.afterSymbol =
      .ok ((s.afterChar (h + i)).setPay i (s.charAt (h + i))) := by
    rw [extractStep_char (by show s.n + 1 + 1 + 1 < s.npix; omega)
      (by show s.n + 1 + 1 + 1 < s.hdr + 4 * s.len; omega) (by show (s.n + 1 + 1 + 1 + 1) % 4 = 0; omega)
      (by show (s.n + 1 + 1 + 1 + 1 - s.hdr) / 4 - 1 < s.lmax; omega), State.afterSymbol_four hn]
    congr 2
  refine runOp_char hrule hb hp ?_ hc
  rintro u (rfl | rfl | rfl)
  · exact extractStep_read (by omega) (by omega) (by omega)
  · exact extractStep_read (by show s.n + 1 < s.npix; omega) (by show s.n + 1 < s.hdr + 4 * s.len; omega)
      (by show (s.n + 1 + 1) % 4 ≠ 0; omega)
  · exact extractStep_read (by show s.n + 1 + 1 < s.npix; omega) (by show s.n + 1 + 1 < s.hdr + 4 * s.len; omega)
      (by show (s.n + 1 + 1 + 1) % 4 ≠ 0; omega)

/-! ## The end of an operation, the end of a scan, the grid behind the port -/

@[simp] theorem State.finish_finished (s : State) (r : Result) (c : Cause) : (s.finish r c).Finished r c :=
  ⟨rfl, rfl, rfl, rfl, rfl⟩

theorem State.scanEnd_some {s : State} {str : List Ch} (h : s.scan = some str) :
    s.scanEnd = 36 + 4 * (str.length + 1) := by
  simp [State.scanEnd, h]

theorem State.scanEnd_none {s : State} (h : s.scan = none) : s.scanEnd = s.npix := by
  simp [State.scanEnd, h]

theorem State.Holds.npix {s : State} {g : PixelGrid} (h : s.Holds g) : s.npix = g.width * g.height := by
  rw [State.npix, h.1, h.2.1]

end Sys2Proof.Machine
end

