-- ==== Sys2Proof/Laws/Frame.lean ====
section
/-! SUPPORT. What no step of an operation changes: the parameters, GW, GH, PLEN, OP and the host's own fields. One lemma
per step rule, and one for a run. -/

namespace Sys2Proof.Machine

/-- What no block step changes. -/
def Kept (s t : State) : Prop :=
  t.cfg = s.cfg ∧ t.gw = s.gw ∧ t.gh = s.gh ∧ t.plen = s.plen ∧ t.op = s.op ∧ t.host = s.host ∧ t.reply = s.reply

theorem Kept.refl (s : State) : Kept s s := ⟨rfl, rfl, rfl, rfl, rfl, rfl, rfl⟩

theorem Kept.trans {s t u : State} (h : Kept s t) (k : Kept t u) : Kept s u := by
  obtain ⟨a1, a2, a3, a4, a5, a6, a7⟩ := h
  obtain ⟨b1, b2, b3, b4, b5, b6, b7⟩ := k
  exact ⟨b1.trans a1, b2.trans a2, b3.trans a3, b4.trans a4, b5.trans a5, b6.trans a6, b7.trans a7⟩

theorem markClose_kept (s : State) : Kept s (markClose s) := by
  unfold markClose; dsimp only; split
  · exact Kept.refl s
  · split
    · exact Kept.refl s
    · exact Kept.refl s

theorem matchChar_kept (s : State) (k : Nat) : Kept s (s.matchChar k) := by
  unfold State.matchChar; split
  · exact Kept.refl s
  · exact Kept.refl s

theorem markStep_kept {s t : State} (h : markStep s = .ok t) : Kept s t := by
  unfold markStep at h
  split at h
  · cases h; exact markClose_kept _
  · split at h
    · split at h
      · cases h
      · rename_i u hu
        obtain ⟨_, rfl⟩ := State.readSymbol_cases hu
        cases h
        split
        · exact (show Kept s s.afterSymbol from Kept.refl s).trans (matchChar_kept _ _)
        · exact Kept.refl s
    · cases h; exact markClose_kept _

theorem lenTerminator_kept (s : State) : Kept s (lenTerminator s) := by
  unfold lenTerminator; dsimp only
  split
  · exact Kept.refl s
  · split
    · exact Kept.refl s
    · split
      · exact Kept.refl s
      · split
        · exact Kept.refl s
        · exact Kept.refl s

theorem lenStep_kept {s t : State} (h : lenStep s = .ok t) : Kept s t := by
  unfold lenStep at h
  split at h
  · cases h; exact Kept.refl s
  · split at h
    · cases h
    · rename_i u hu
      obtain ⟨_, rfl⟩ := State.readSymbol_cases hu
      cases h
      split
      · split
        · exact (show Kept s s.afterSymbol from Kept.refl s).trans (lenTerminator_kept _)
        · exact Kept.refl s
      · exact Kept.refl s

theorem boundStep_kept (s : State) : Kept s (boundStep s) := by
  unfold boundStep; dsimp only
  split
  · exact Kept.refl s
  · exact Kept.refl s

theorem writePay_kept {s t : State} {i : Nat} {c : Ch} (h : s.writePay i c = .ok t) : Kept s t := by
  unfold State.writePay at h
  split at h
  · cases h; exact Kept.refl s
  · cases h

theorem writePixel_kept {s t : State} {i : Nat} {c : Pixel} (h : s.writePixel i c = .ok t) : Kept s t := by
  unfold State.writePixel at h
  split at h
  · cases h; exact Kept.refl s
  · cases h

theorem extractStep_kept {s t : State} (h : extractStep s = .ok t) : Kept s t := by
  unfold extractStep at h
  split at h
  · split at h
    · cases h
    · rename_i u hu
      obtain ⟨_, rfl⟩ := State.readSymbol_cases hu
      split at h
      · exact (show Kept s s.afterSymbol from Kept.refl s).trans (writePay_kept h)
      · cases h; exact Kept.refl s
  · cases h; exact Kept.refl s

theorem encodeWrite_kept {s t : State} (h : encodeWrite s = .ok t) : Kept s t := by
  unfold encodeWrite at h
  split at h
  · split at h
    · cases h
    · split at h
      · cases h
      · split at h
        · cases h
        · rename_i u hu
          cases h
          exact (writePixel_kept hu).trans (Kept.refl _)
  · cases h; exact Kept.refl s

theorem encodeStep_kept {s t : State} (h : encodeStep s = .ok t) : Kept s t := by
  unfold encodeStep at h
  cases hp : s.phase <;> rw [hp] at h <;> simp only at h <;> try cases h
  · unfold encodeCheck; split
    · exact Kept.refl s
    · exact Kept.refl s
  · exact encodeWrite_kept h

theorem detectStep_kept {s t : State} (h : detectStep s = .ok t) : Kept s t := by
  unfold detectStep at h
  cases hp : s.phase <;> rw [hp] at h <;> simp only at h <;> try cases h
  exact markStep_kept h

theorem getlenStep_kept {s t : State} (h : getlenStep s = .ok t) : Kept s t := by
  unfold getlenStep at h
  cases hp : s.phase <;> rw [hp] at h <;> simp only at h <;> try cases h
  exact lenStep_kept h

theorem decodeStep_kept {s t : State} (h : decodeStep s = .ok t) : Kept s t := by
  unfold decodeStep at h
  cases hp : s.phase <;> rw [hp] at h <;> simp only at h <;> try cases h
  · exact markStep_kept h
  · exact lenStep_kept h
  · exact boundStep_kept s
  · exact extractStep_kept h

theorem blockStep_kept {s t : State} (h : blockStep s = .ok t) : Kept s t := by
  unfold blockStep at h
  split at h
  · exact encodeStep_kept h
  · exact detectStep_kept h
  · exact getlenStep_kept h
  · exact decodeStep_kept h

theorem runOp_kept {f : State → Except Fault State} (hf : ∀ s t, f s = .ok t → Kept s t) {k : Nat} {s t : State}
   (h : runOp f k s = .next t) : Kept s t :=
  runOp_keeps (fun u => Kept s u) (fun _ _ hu _ hs => hu.trans (hf _ _ hs)) (Kept.refl s) h

end Sys2Proof.Machine
end

