-- ==== Sys2Proof/Laws/Invariant.lean ====
section
/-! SUPPORT. The invariant, piece by piece: what each named update and each step rule of a phase keeps, and that a step rule
goes on from a state that meets it. -/

namespace Sys2Proof.Machine

/-! ## The invariant apart from PHASE -/

theorem npix_pos_gh {s : State} {n : Nat} (h : n < s.npix) : 0 < s.gh := by
  unfold State.npix at h
  rcases Nat.eq_zero_or_pos s.gh with h' | h'
  · rw [h'] at h; omega
  · exact h'

theorem coord_inSpace {s : State} (hf : s.registersFit) {n : Nat} (h : n < s.npix) :
    s.pairInSpace (s.coord n).1 (s.coord n).2 = true := by
  obtain ⟨_, _, h1, h2, _⟩ := hf
  have hg := npix_pos_gh h
  have hy : n % s.gh < s.gh := Nat.mod_lt _ hg
  have hx : n / s.gh < s.gw := (Nat.div_lt_iff_lt_mul hg).2 h
  simp only [State.pairInSpace, State.coord, Bool.and_eq_true]
  exact ⟨decide_eq_true (Nat.lt_of_le_of_lt hx h1), decide_eq_true (Nat.lt_of_le_of_lt hy h2)⟩

theorem coord_valid {s : State} {n : Nat} (h : n < s.npix) : s.validPair (s.coord n).1 (s.coord n).2 = true := by
  have hg := npix_pos_gh h
  unfold State.npix at h
  have h1 : n / s.gh < s.gw := Nat.div_lt_of_lt_mul (by rw [Nat.mul_comm]; exact h)
  have h2 : n % s.gh < s.gh := Nat.mod_lt _ hg
  simp [State.validPair, State.coord, h1, h2]

theorem lmax_succ {s : State} : s.lmax + 1 = 2 ^ s.cfg.lw := by
  have : 0 < 2 ^ s.cfg.lw := Nat.two_pow_pos _
  unfold State.lmax Config.lmax; omega

/-- The invariant apart from PHASE. -/
def Base (s : State) : Prop := s.registersFit ∧ s.memoriesWf ∧ s.placesExist ∧ s.statusCoherent

theorem Inv_iff (s : State) : s.Inv ↔ Base s ∧ s.phaseCoherent := by
  unfold State.Inv Base; tauto

theorem Base.lacc {s : State} (h : Base s) : s.lacc < 2 ^ s.cfg.lw := h.1.2.2.2.2.2.2

theorem Base.len {s : State} (h : Base s) : s.len < 2 ^ s.cfg.lw := h.1.2.2.2.2.2.1

theorem Base.plen {s : State} (h : Base s) : s.plen < 2 ^ s.cfg.lw := h.1.2.2.2.2.1

theorem Base.of_same {s t : State} (h : Base s) (e1 : t.cfg = s.cfg) (e2 : t.gw = s.gw) (e3 : t.gh = s.gh)
    (e4 : t.plen = s.plen)
   (e5 : t.len < 2 ^ s.cfg.lw) (e6 : t.lacc < 2 ^ s.cfg.lw) (e7 : t.pix = s.pix) (e8 : t.pay = s.pay)
       (e9 : t.statusCoherent) : Base t := by
  obtain ⟨h1, h2, h3, h4⟩ := h
  refine ⟨?_, ?_, ?_, e9⟩
  · unfold State.registersFit at *; rw [e1, e2, e3, e4]; exact
      ⟨h1.1, h1.2.1, h1.2.2.1, h1.2.2.2.1, h1.2.2.2.2.1, e5, e6⟩
  · unfold State.memoriesWf at *; rw [e7, e8]; exact h2
  · refine ⟨?_, ?_⟩
    · rw [e7]; intro e he; have := h3.1 e he; unfold State.pairInSpace at *; rw [e1]; exact this
    · rw [e8]; intro e he; have := h3.2 e he; unfold State.lmax at *; rw [e1]; exact this

theorem Base.setPix {s : State} (h : Base s) {n : Nat} (hn : n < s.npix) (v : Pixel) : Base
    (s.setPix (s.coord n).1 (s.coord n).2 v) := by
  obtain ⟨h1, h2, h3, h4⟩ := h
  refine ⟨h1, State.setPix_memoriesWf s _ _ _ h2, ⟨?_, h3.2⟩, h4⟩
  intro e he
  rcases Memory.mem_put he with rfl | he
  · exact coord_inSpace h1 hn
  · exact h3.1 e he

theorem Base.setPay {s : State} (h : Base s) {i : Nat} (hi : i < s.lmax) (c : Ch) : Base (s.setPay i c) := by
  obtain ⟨h1, h2, h3, h4⟩ := h
  refine ⟨h1, State.setPay_memoriesWf s _ _ h2, ⟨h3.1, ?_⟩, h4⟩
  intro e he
  rcases Memory.mem_put he with rfl | he
  · exact hi
  · exact h3.2 e he

theorem Base.finish {s : State} (h : Base s) (r : Result) (c : Cause) (hrc : r = .parseError ↔ c ≠ .noCause) :
    (s.finish r c).Inv := by
  obtain ⟨h1, h2, h3, h4⟩ := h
  exact ⟨h1, h2, h3, ⟨hrc, by simp⟩, rfl⟩

theorem Base.start {s : State} (h : Base s) (c : CmdWord) : (s.start c).Inv := by
  obtain ⟨h1, h2, h3, h4⟩ := h
  have : 0 < 2 ^ s.cfg.lw := Nat.two_pow_pos _
  refine ⟨⟨h1.1, h1.2.1, h1.2.2.1, h1.2.2.2.1, h1.2.2.2.2.1, this, this⟩, h2, h3, ⟨by simp, by simp⟩, ?_⟩
  unfold State.phaseCoherent
  simp only [State.start_phase, State.start_busy, State.start_op, State.start_n, State.start_enc, State.start_len,
      State.start_dcnt, firstPhase, firstCursor]
  cases decodeCmd c <;> simp [State.numeralCoherent]

theorem afterSymbol_base {s : State} (h : Base s) : Base s.afterSymbol :=
    h.of_same rfl rfl rfl rfl h.len h.lacc rfl rfl h.2.2.2

theorem matchChar_base {s : State} (h : Base s) (k : Nat) : Base (s.matchChar k) := by
  unfold State.matchChar; split
  · exact h
  · exact h

theorem inv_idle_phase {s : State} (h : s.Inv) (hb : s.busy = false) : s.phase = .idle := by
  have hP := ((Inv_iff s).1 h).2
  unfold State.phaseCoherent at hP
  cases hp : s.phase <;> rw [hp] at hP <;> simp only at hP
  all_goals first | rfl | (rw [hb] at hP; exact absurd hP.1 (by decide))

/-! ## ENCODE -/

theorem readFchar_ok {s : State} (hp : s.plen < 2 ^ s.cfg.lw) {k : Nat} (hk : k < frameChars s.plen) :
    s.readFchar k = .ok (s.fchar k) := by
  have := @lmax_succ s
  unfold State.readFchar
  split
  · rfl
  · rename_i h
    unfold frameChars at hk
    have hl : k - 10 - digits s.plen < s.lmax := by omega
    simp only [State.readPay, hl, if_true]
    unfold State.fchar
    rw [if_neg (by omega), if_neg (by omega), if_neg (by omega)]

/-- E_WRITE's step on a pixel (R126). -/
theorem encodeWrite_ok {s : State} (hp : s.plen < 2 ^ s.cfg.lw) (hn : s.n < reqPixels s.plen)
    (hr : reqPixels s.plen ≤ s.npix) :
    encodeWrite s = .ok { (s.setPix (s.coord s.n).1 (s.coord s.n).2 (embed (s.pixel s.n) (s.fsym s.n))) with n :=
        s.n + 1 } := by
  have hk : s.n / 4 < frameChars s.plen := by unfold reqPixels at hn; omega
  unfold encodeWrite
  rw [if_pos hn, readFchar_ok hp hk, State.readPixel_ok (by omega)]
  simp [State.writePixel, show s.n < s.npix by omega, State.fsym]

theorem encodeWrite_close {s : State} (hn : reqPixels s.plen ≤ s.n) : encodeWrite s = .ok (s.finish .ok .noCause) := by
  unfold encodeWrite; rw [if_neg (Nat.not_lt.2 hn)]

theorem encodeStep_ok {s : State} (h : s.Inv) (hb : s.busy = true) (ho : decodeCmd s.op = .encode) : ∃ t,
    encodeStep s = .ok t ∧ t.Inv := by
  obtain ⟨hB, hP⟩ := (Inv_iff s).1 h
  unfold State.phaseCoherent at hP
  cases hp : s.phase <;> rw [hp] at hP <;> simp only at hP
  · simp_all
  · obtain ⟨_, _, hn, he, hl⟩ := hP
    refine ⟨encodeCheck s, by simp [encodeStep, hp], ?_⟩
    unfold encodeCheck; split
    · exact hB.finish _ _ (by decide)
    · rename_i hlt
      refine (Inv_iff _).2 ⟨hB, ?_⟩
      unfold State.phaseCoherent
      exact ⟨hb, ho, by show s.n ≤ _; omega, Nat.not_lt.1 hlt, he, hl⟩
  · obtain ⟨_, _, hn, hr, he, hl⟩ := hP
    by_cases hlt : s.n < reqPixels s.plen
    · refine ⟨_, by simp only [encodeStep, hp]; exact encodeWrite_ok hB.plen hlt hr, ?_⟩
      refine (Inv_iff _).2 ⟨hB.setPix (n := s.n) (by omega) _, ?_⟩
      unfold State.phaseCoherent
      simp only [State.setPix_phase, hp]
      exact ⟨hb, ho, hlt, hr, he, hl⟩
    · exact ⟨_, by simp only [encodeStep, hp]; exact encodeWrite_close (by omega), hB.finish _ _ (by decide)⟩
  all_goals (obtain ⟨_, hc⟩ := hP; simp_all)

/-! ## D_MARK -/

theorem numeral_start {s : State} (h : s.numeralCoherent) (t : State) (e1 : t.dcnt = s.dcnt) (e2 : t.lacc = s.lacc)
    (e3 : t.lovf = s.lovf) (e4 : t.lbad = s.lbad) (e5 : t.lz = s.lz) : t.numeralCoherent := by
  unfold State.numeralCoherent at *; rw [e1, e2, e3, e4, e5]; exact h

theorem markClose_inv {s : State} (h : s.Inv) (hb : s.busy = true) (hp : s.phase = .dMark)
    (hn : s.n = 36 ∨ s.matched = false)
   (hx : s.matched = true → 36 ≤ s.npix) : (markClose s).Inv := by
  obtain ⟨hB, hP⟩ := (Inv_iff s).1 h
  unfold State.phaseCoherent at hP
  rw [hp] at hP; simp only at hP
  obtain ⟨_, ho, hn', hz, hd, hnum, he, hl⟩ := hP
  have hB' : Base { s with enc := s.matched } := hB
  unfold markClose
  split
  · exact hB'.finish _ _ (by decide)
  · split
    · exact hB'.finish _ _ (by decide)
    · rename_i h1 h2
      simp only [Bool.not_eq_false] at h2
      refine (Inv_iff _).2 ⟨hB', ?_⟩
      unfold State.phaseCoherent
      have hn : s.n = 36 := by rcases hn with h | h; exact h; rw [h2] at h; cases h
      refine ⟨hb, .inr ⟨by rcases ho with h | h; exact absurd h h1; exact h, h2, hx h2⟩, ?_, ?_, .inl hn,
          numeral_start hnum _ rfl rfl rfl rfl rfl, hl⟩
      · show 36 + 4 * s.dcnt ≤ s.n; omega
      · show s.n < 36 + 4 * s.dcnt + 4; omega

theorem markStep_ok {s : State} (h : s.Inv) (hb : s.busy = true) (hp : s.phase = .dMark) : ∃ t, markStep s = .ok t ∧
    t.Inv := by
  obtain ⟨hB, hP⟩ := (Inv_iff s).1 h
  have hP0 := hP
  unfold State.phaseCoherent at hP
  rw [hp] at hP; simp only at hP
  obtain ⟨_, ho, hn', hz, hd, hnum, he, hl⟩ := hP
  by_cases h36 : s.npix < 36
  · refine ⟨_, markStep_small h36, markClose_inv ?_ hb hp (.inr rfl) (by simp)⟩
    refine (Inv_iff _).2 ⟨hB, ?_⟩
    unfold State.phaseCoherent at *
    rw [hp] at hP0
    simp only [hp] at *
    exact hP0
  · by_cases hn : s.n < 36
    · have key : s.afterSymbol.Inv := by
        refine (Inv_iff _).2 ⟨afterSymbol_base hB, ?_⟩
        unfold State.phaseCoherent
        rw [show s.afterSymbol.phase = .dMark from hp]
        exact ⟨hb, ho, hn, fun h => absurd h h36, hd, numeral_start hnum _ rfl rfl rfl rfl rfl, he, hl⟩
      by_cases h4 : (s.n + 1) % 4 = 0
      · refine ⟨_, markStep_char (by omega) hn h4, ?_⟩
        unfold State.matchChar; split
        · exact key
        · exact key
      · exact ⟨_, markStep_read (by omega) hn h4, key⟩
    · exact ⟨_, markStep_close (by omega) (by omega), markClose_inv h hb hp (.inl (by omega)) (fun _ => by omega)⟩

/-! ## D_LEN -/

theorem digits_append {a d : Nat} (ha : 1 ≤ a) (hd : d < 10) : digits (10 * a + d) = digits a + 1 := by
  rw [digits_big (by omega)]; congr 2; omega

theorem accumulate_numeral {s : State} (h : s.numeralCoherent) : s.accumulate.numeralCoherent := by
  unfold State.numeralCoherent at *
  obtain ⟨h0, h1, h2⟩ := h
  refine ⟨by simp, ?_, ?_⟩
  · simp only [State.accumulate_lbad, State.accumulate_lz, State.accumulate_dcnt, State.accumulate_lacc,
      State.accumulate_lovf]
    intro hb hz
    unfold State.nextLbad at hb
    simp only [Bool.or_eq_false_iff, Bool.and_eq_false_iff, decide_eq_false_iff_not, Bool.not_eq_false'] at hb
    have hd : s.dcnt = 0 := by
      rcases hb.2 with h | h
      · omega
      · rw [hz] at h; cases h
    obtain ⟨e1, e2, e3, e4⟩ := h0 hd
    have hc : s.acc = 0x30#8 := by
      unfold State.nextLz at hz
      simp [e4, hd] at hz
      exact hz.2
    have : s.nextValue = 0 := by unfold State.nextValue; rw [e1, hc]; rfl
    refine ⟨by omega, ?_, ?_⟩
    · unfold State.nextLacc; rw [hb.1.2, if_pos rfl, this]; simp
    · unfold State.nextLovf; rw [this, e2]; simp
  · simp only [State.accumulate_lbad, State.accumulate_lz, State.accumulate_dcnt, State.accumulate_lacc,
      State.accumulate_lovf]
    intro hb hz hv _
    unfold State.nextLbad at hb
    simp only [Bool.or_eq_false_iff, Bool.and_eq_false_iff, decide_eq_false_iff_not, Bool.not_eq_false'] at hb
    unfold State.nextLz at hz
    simp only [Bool.or_eq_false_iff] at hz
    unfold State.nextLovf at hv
    simp only [Bool.or_eq_false_iff, hb.1.2, Bool.true_and, decide_eq_false_iff_not] at hv
    have hd10 := digitVal_lt _ hb.1.2
    have hL : s.nextLacc = s.nextValue := by
      unfold State.nextLacc; rw [hb.1.2, if_pos rfl]
      exact Nat.mod_eq_of_lt (by have := @lmax_succ s; omega)
    rw [hL]
    unfold State.nextValue
    by_cases hd : s.dcnt = 0
    · obtain ⟨e1, e2, e3, e4⟩ := h0 hd
      have : 1 ≤ digitVal s.acc := by
        by_contra hh
        have h00 : digitVal s.acc = 0 := by omega
        have := digitChar_digitVal _ hb.1.2
        rw [h00] at this
        have : s.acc = 0x30#8 := by rw [← this]; rfl
        have h3 := hz.2
        rw [this] at h3
        simp [hd] at h3
        revert h3; decide
      rw [e1, hd]
      refine ⟨by omega, ?_⟩
      rw [digits_small (by omega)]
    · obtain ⟨e1, e2⟩ := h2 hb.1.1 hz.1 hv.1 (by omega)
      refine ⟨by omega, ?_⟩
      rw [digits_append e1 hd10, e2]

theorem lenTerminator_inv {s : State} (hB : Base s) (hb : s.busy = true)
    (ho : decodeCmd s.op = .getlen ∧ s.enc = false ∨ decodeCmd s.op = .decode ∧ s.enc = true ∧ 36 ≤ s.npix)
    (hn : s.n = 36 + 4 * (s.dcnt + 1)) (hle : s.n ≤ s.npix) (hnum : s.numeralCoherent) : (lenTerminator s).Inv := by
  unfold lenTerminator
  split
  · exact hB.finish _ _ (by decide)
  · split
    · exact hB.finish _ _ (by decide)
    · split
      · exact hB.finish _ _ (by decide)
      · rename_i h1 h2 h3
        have hB' : Base { s with len := s.lacc } := hB.of_same rfl rfl rfl rfl hB.lacc hB.lacc rfl rfl hB.2.2.2
        split
        · exact hB'.finish _ _ (by decide)
        · rename_i h4
          rcases ho with ho | ho
          · exact absurd ho.1 h4
          refine (Inv_iff _).2 ⟨hB', ?_⟩
          unfold State.phaseCoherent
          refine ⟨hb, ho.1, ho.2.1, ?_, hle⟩
          show s.n = hdrPixels s.lacc
          unfold hdrPixels
          have hlb : s.lbad = false := by simpa using h2
          have hlv : s.lovf = false := by simpa using h3
          rw [hn]
          cases hz : s.lz
          · rw [(hnum.2.2 hlb hz hlv (by omega)).2]
          · obtain ⟨e1, e2, _⟩ := hnum.2.1 hlb hz
            rw [e1, e2]; rfl

theorem lenStep_ok {s : State} (h : s.Inv) (hb : s.busy = true) (hp : s.phase = .dLen) : ∃ t, lenStep s = .ok t ∧
    t.Inv := by
  obtain ⟨hB, hP⟩ := (Inv_iff s).1 h
  unfold State.phaseCoherent at hP
  rw [hp] at hP; simp only at hP
  obtain ⟨_, ho, hn1, hn2, hn3, hnum, hl⟩ := hP
  by_cases hex : s.npix ≤ s.n
  · exact ⟨_, lenStep_exhausted hex, hB.finish _ _ (by decide)⟩
  · have hB' := afterSymbol_base hB
    have hnum' : s.afterSymbol.numeralCoherent := numeral_start hnum _ rfl rfl rfl rfl rfl
    by_cases h4 : (s.n + 1) % 4 = 0
    · refine ⟨_, lenStep_char (by omega) h4, ?_⟩
      split
      · exact lenTerminator_inv hB' hb ho (by show s.n + 1 = 36 + 4 * (s.dcnt + 1); omega)
          (by show s.n + 1 ≤ s.npix; omega) hnum'
      · refine (Inv_iff _).2 ⟨hB'.of_same rfl rfl rfl rfl hB'.len ?_ rfl rfl hB'.2.2.2, ?_⟩
        · show s.afterSymbol.nextLacc < _
          unfold State.nextLacc
          split
          · exact Nat.mod_lt _ (Nat.two_pow_pos _)
          · exact hB.lacc
        · unfold State.phaseCoherent
          rw [show s.afterSymbol.accumulate.phase = .dLen from hp]
          refine ⟨hb, ho, ?_, ?_, .inr ?_, accumulate_numeral hnum', hl⟩
          · show 36 + 4 * (s.dcnt + 1) ≤ s.n + 1; omega
          · show s.n + 1 < 36 + 4 * (s.dcnt + 1) + 4; omega
          · show s.n + 1 ≤ s.npix; omega
    · refine ⟨_, lenStep_read (by omega) h4, ?_⟩
      refine (Inv_iff _).2 ⟨hB', ?_⟩
      unfold State.phaseCoherent
      rw [show s.afterSymbol.phase = .dLen from hp]
      refine ⟨hb, ho, ?_, ?_, .inr ?_, hnum', hl⟩
      · show 36 + 4 * s.dcnt ≤ s.n + 1; omega
      · show s.n + 1 < 36 + 4 * s.dcnt + 4; omega
      · show s.n + 1 ≤ s.npix; omega

/-! ## D_BOUND and D_XTR -/

theorem boundStep_inv {s : State} (h : s.Inv) (hb : s.busy = true) (hp : s.phase = .dBound) : (boundStep s).Inv := by
  obtain ⟨hB, hP⟩ := (Inv_iff s).1 h
  unfold State.phaseCoherent at hP
  rw [hp] at hP; simp only at hP
  obtain ⟨_, ho, he, hn1, hn2⟩ := hP
  have hB' : Base { s with hdr := hdrPixels s.len } := hB
  unfold boundStep
  split
  · exact hB'.finish _ _ (by decide)
  · rename_i hlt
    refine (Inv_iff _).2 ⟨hB', ?_⟩
    unfold State.phaseCoherent
    refine ⟨hb, ho, he, rfl, Nat.le_refl _, ?_, ?_⟩
    · show hdrPixels s.len ≤ hdrPixels s.len + 4 * s.len; omega
    · show hdrPixels s.len + 4 * s.len ≤ s.npix; omega

theorem hdr_mod (l : Nat) : hdrPixels l % 4 = 0 := by unfold hdrPixels; omega

theorem extractStep_ok {s : State} (h : s.Inv) (hb : s.busy = true) (hp : s.phase = .dXtr) : ∃ t, extractStep s =
    .ok t ∧ t.Inv := by
  obtain ⟨hB, hP⟩ := (Inv_iff s).1 h
  unfold State.phaseCoherent at hP
  rw [hp] at hP; simp only at hP
  obtain ⟨_, ho, he, hh, hn1, hn2, hn3⟩ := hP
  by_cases hn : s.n < s.hdr + 4 * s.len
  · have key : ∀ t : State, t.pix = s.pix → t = { s with acc := t.acc, n := s.n + 1, pay := t.pay } →
      s.phaseCoherent → t.phaseCoherent := by
      intro t _ e _
      rw [e]
      unfold State.phaseCoherent
      show match s.phase with | _ => _
      rw [hp]
      exact ⟨hb, ho, he, hh, by show s.hdr ≤ s.n + 1; omega, by show s.n + 1 ≤ s.hdr + 4 * s.len; omega, hn3⟩
    by_cases h4 : (s.n + 1) % 4 = 0
    · have hlen := hB.len
      have hlm := @lmax_succ s
      have hi : (s.n + 1 - s.hdr) / 4 - 1 < s.lmax := by omega
      refine ⟨_, extractStep_char (by omega) hn h4 hi, ?_⟩
      exact (Inv_iff _).2 ⟨(afterSymbol_base hB).setPay hi _, key _ rfl rfl ((Inv_iff s).1 h).2⟩
    · refine ⟨_, extractStep_read (by omega) hn h4, ?_⟩
      exact (Inv_iff _).2 ⟨afterSymbol_base hB, key _ rfl rfl ((Inv_iff s).1 h).2⟩
  · exact ⟨_, extractStep_close (by omega), hB.finish _ _ (by decide)⟩

/-! ## The operations and their runs -/

theorem detectStep_ok {s : State} (h : s.Inv) (hb : s.busy = true) (ho : decodeCmd s.op = .detect) : ∃ t,
    detectStep s = .ok t ∧ t.Inv := by
  have hP := ((Inv_iff s).1 h).2
  unfold State.phaseCoherent at hP
  cases hp : s.phase <;> rw [hp] at hP <;> simp only at hP
  case dMark => simp only [detectStep, hp]; exact markStep_ok h hb hp
  all_goals simp_all

theorem getlenStep_ok {s : State} (h : s.Inv) (hb : s.busy = true) (ho : decodeCmd s.op = .getlen) : ∃ t,
    getlenStep s = .ok t ∧ t.Inv := by
  have hP := ((Inv_iff s).1 h).2
  unfold State.phaseCoherent at hP
  cases hp : s.phase <;> rw [hp] at hP <;> simp only at hP
  case dLen => simp only [getlenStep, hp]; exact lenStep_ok h hb hp
  all_goals simp_all

theorem decodeStep_ok {s : State} (h : s.Inv) (hb : s.busy = true) (ho : decodeCmd s.op = .decode) : ∃ t,
    decodeStep s = .ok t ∧ t.Inv := by
  have hP := ((Inv_iff s).1 h).2
  unfold State.phaseCoherent at hP
  cases hp : s.phase <;> rw [hp] at hP <;> simp only at hP
  case dMark => simp only [decodeStep, hp]; exact markStep_ok h hb hp
  case dLen => simp only [decodeStep, hp]; exact lenStep_ok h hb hp
  case dBound => simp only [decodeStep, hp]; exact ⟨_, rfl, boundStep_inv h hb hp⟩
  case dXtr => simp only [decodeStep, hp]; exact extractStep_ok h hb hp
  all_goals simp_all

/-- A run under a rule that goes on and keeps the invariant, for the operation o. -/
theorem runOp_ok {f : State → Except Fault State} {o : Instr} (hk : ∀ s t, f s = .ok t → Kept s t)
   (hf : ∀ s, s.Inv → s.busy = true → decodeCmd s.op = o → ∃ t, f s = .ok t ∧ t.Inv) :
   ∀ (k : Nat) (s : State), s.Inv → decodeCmd s.op = o → ∃ t, runOp f k s = .next t ∧ t.Inv := by
  intro k
  induction k with
  | zero => intro s h _; exact ⟨s, rfl, h⟩
  | succ k ih =>
    intro s h ho
    cases hb : s.busy with
    | false => exact ⟨s, runOp_idle _ _ hb, h⟩
    | true =>
      obtain ⟨u, hu, hI⟩ := hf s h hb ho
      rw [runOp_succ _ hb hu]
      exact ih u hI (by rw [(hk _ _ hu).2.2.2.2.1]; exact ho)

/-! ## The host's moves -/

theorem csrWrite_inv {s t : State} {k v : Nat} (h : s.Inv) (ht : s.csrWrite k v = .next t) : t.Inv := by
  unfold State.csrWrite at ht
  split at ht
  · cases ht
  · rename_i hv
    split at ht
    · cases ht; exact h
    · rename_i hb
      have hb : s.busy = false := by simpa using hb
      cases ht
      have hp := inv_idle_phase h hb
      obtain ⟨⟨f1, f2, f3, f4, f5, f6, f7⟩, h2, h3, h4, h5⟩ := h
      unfold State.csrWriteIdle
      split
      · refine ⟨⟨f1, f2, ?_, f4, f5, f6, f7⟩, h2, h3, h4, ?_⟩
        · by_contra hc; exact hv ⟨by decide, Nat.not_lt.1 hc⟩
        · unfold State.phaseCoherent; simp only [hp]; exact hb
      · refine ⟨⟨f1, f2, f3, ?_, f5, f6, f7⟩, h2, h3, h4, ?_⟩
        · by_contra hc; exact hv ⟨by decide, Nat.not_lt.1 hc⟩
        · unfold State.phaseCoherent; simp only [hp]; exact hb
      · refine ⟨⟨f1, f2, f3, f4, ?_, f6, f7⟩, h2, h3, h4, ?_⟩
        · by_contra hc; exact hv ⟨by decide, Nat.not_lt.1 hc⟩
        · unfold State.phaseCoherent; simp only [hp]; exact hb
      · exact Base.start ⟨⟨f1, f2, f3, f4, f5, f6, f7⟩, h2, h3, h4⟩ _
      · exact ⟨⟨f1, f2, f3, f4, f5, f6, f7⟩, h2, h3, h4, h5⟩

theorem reset_inv {s : State} (h : s.Inv) : s.resetRegisters.Inv := by
  obtain ⟨⟨f1, f2, f3, f4, f5, f6, f7⟩, h2, h3, h4, h5⟩ := h
  have hp (k : Nat) : 0 < 2 ^ k := Nat.two_pow_pos k
  exact ⟨⟨f1, f2, hp _, hp _, hp _, hp _, hp _⟩, h2, h3,
      ⟨by simp [State.resetRegisters], by simp [State.resetRegisters]⟩, rfl⟩

theorem setPixAt_inv {s : State} (h : s.Inv) {x y : Nat} (hi : s.pairInSpace x y = true) (v : Pixel) :
    (s.setPix x y v).Inv := by
  obtain ⟨h1, h2, h3, h4, h5⟩ := h
  refine ⟨h1, ⟨?_, h2.2⟩, ⟨?_, h3.2⟩, h4, h5⟩
  · exact (State.setPix_memoriesWf s x y v h2).1
  · intro e he
    rcases Memory.mem_put he with rfl | h
    · exact hi
    · exact h3.1 e h

theorem setPayAt_inv {s : State} (h : s.Inv) {i : Nat} (hi : i < s.lmax) (v : Ch) : (s.setPay i v).Inv := by
  obtain ⟨h1, h2, h3, h4, h5⟩ := h
  have := Base.setPay ⟨h1, h2, h3, h4⟩ hi v
  exact ⟨this.1, this.2.1, this.2.2.1, this.2.2.2, h5⟩

end Sys2Proof.Machine
end

