-- ==== Sys2Proof/Laws/PerInstr.lean ====
section
/-! SUPPORT. A statement made per instruction: the table's word of an operation, of the two bits the table gives it, is read
as that operation, and its encoding is one well-formed command byte (30_encoding.md R90, R91). -/

namespace Sys2Proof.Laws.TableWord

/-- The operation's own 2-bit word decodes to it, and its encoding is one byte with the upper six bits clear. -/
def Statement (i : Instr) : Prop :=
  i.wellFormed = true ∧ decodeTableWord 2 (encodeCmd i).toNat = some i ∧
  (encode i).length = 1 ∧ (encode i).all commandByteWellFormed = true

theorem encode : Statement .encode := by unfold Statement; decide

theorem detect : Statement .detect := by unfold Statement; decide

theorem getlen : Statement .getlen := by unfold Statement; decide

theorem decode : Statement .decode := by unfold Statement; decide

end Sys2Proof.Laws.TableWord
end

