-- ==== Sys2Proof/Laws/Phases.lean ====
section
/-! SUPPORT. Whole phases of an operation: E_WRITE pixel by pixel, D_MARK, D_LEN and D_XTR character by character, each with
the state it leaves. -/

namespace Sys2Proof.Machine

/-! ## E_WRITE -/

theorem fchar_congr {s t : State} (h1 : t.plen = s.plen) (h2 : t.pay = s.pay) (k : Nat) : t.fchar k = s.fchar k := by
  unfold State.fchar; rw [h1, State.payAt_congr h2]

theorem fsym_congr {s t : State} (h1 : t.plen = s.plen) (h2 : t.pay = s.pay) (k : Nat) : t.fsym k = s.fsym k := by
  unfold State.fsym; rw [fchar_congr h1 h2]

/-- E_WRITE in progress: the state u that a started ENCODE of s has after j pixels. -/
def Writing (s : State) (j : Nat) (u : State) : Prop :=
  u = { s.start 0#2 with phase := .eWrite, n := j, pix := u.pix } ∧
  (∀ n, n < s.npix → u.pixel n = if n < j then embed (s.pixel n) (s.fsym n) else s.pixel n) ∧
  (∀ x y, s.validPair x y = false → u.pixAt x y = s.pixAt x y)

theorem Writing.step {s u : State} {j : Nat} (hp : s.plen < 2 ^ s.cfg.lw) (h : Writing s j u) (hj : j < reqPixels s.plen)
    (hr : reqPixels s.plen ≤ s.npix) : ∃ v, encodeStep u = .ok v ∧ Writing s (j+1) v := by
  obtain ⟨h1, h2, h3⟩ := h
  have hph : u.phase = .eWrite := by rw [h1]
  have hn : u.n = j := by rw [h1]
  have hpl : u.plen = s.plen := by rw [h1]; rfl
  have hcfg : u.cfg = s.cfg := by rw [h1]; rfl
  have hpay : u.pay = s.pay := by rw [h1]; rfl
  have hnp : u.npix = s.npix := by rw [h1]; rfl
  have hgh : u.gh = s.gh := by rw [h1]; rfl
  have hco : u.coord j = s.coord j := by unfold State.coord; rw [hgh]
  have hw := encodeWrite_ok (s := u) (by rw [hpl, hcfg]; exact hp) (by rw [hn, hpl]; exact hj)
    (by rw [hpl, hnp]; exact hr)
  refine ⟨_, by simp only [encodeStep, hph]; exact hw, ?_⟩
  rw [hn, hco, fsym_congr hpl hpay, h2 j (by omega), if_neg (Nat.lt_irrefl _)]
  refine ⟨?_, ?_, ?_⟩
  · rw [h1]; rfl
  · intro n hnn
    by_cases hnj : n = j
    · subst hnj
      rw [if_pos (by omega)]
      rw [← hco]
      exact u.setPix_pixel_same n _
    · rw [← hco]
      show (u.setPix (u.coord j).1 (u.coord j).2 _).pixel n = _
      rw [u.setPix_pixel_other hnj, h2 n hnn]
      by_cases hlt : n < j
      · rw [if_pos hlt, if_pos (by omega)]
      · rw [if_neg hlt, if_neg (by omega)]
  · intro x y hxy
    show (u.setPix (s.coord j).1 (s.coord j).2 _).pixAt x y = _
    rw [u.setPix_pixAt_other, h3 x y hxy]
    intro hc
    have := coord_valid (s := s) (n := j) (by omega)
    injection hc with hc1 hc2
    rw [hc1, hc2, this] at hxy
    cases hxy

theorem Writing.run {s : State} (hp : s.plen < 2 ^ s.cfg.lw) (hr : reqPixels s.plen ≤ s.npix) :
    ∀ (k j : Nat), j + k ≤ reqPixels s.plen → ∀ u, Writing s j u →
      ∃ v, runOp encodeStep k u = .next v ∧ Writing s (j + k) v := by
  intro k
  induction k with
  | zero => intro j _ u h; exact ⟨u, rfl, h⟩
  | succ k ih =>
    intro j hk u h
    obtain ⟨v, hv, hw⟩ := h.step hp (by omega) hr
    rw [runOp_succ k (by rw [h.1]; rfl) hv]
    obtain ⟨w, hw1, hw2⟩ := ih (j+1) (by omega) v hw
    exact ⟨w, hw1, by rw [show j + (k+1) = j + 1 + k by omega]; exact hw2⟩

/-! ## D_MARK -/

theorem charAt_congr {s t : State} (h : t.pix = s.pix) (hg : t.gh = s.gh) (k : Nat) : t.charAt k = s.charAt k := by
  unfold State.charAt; simp only [State.pixel_congr h hg]

/-- D_MARK over the first k characters, from a state at cursor 0. -/
theorem mark_run {rule : State → Except Fault State} (hrule : ∀ u, u.phase = .dMark → rule u = markStep u)
    {s : State} (hb : s.busy = true) (hp : s.phase = .dMark) (hn : s.n = 0) (hm : s.matched = true) (h36 : 36 ≤ s.npix) :
    ∀ k, k ≤ 9 → ∃ t, runOp rule (4 * k) s = .next t ∧
      t = { s with acc := t.acc, n := 4 * k, matched := (List.range k).all (fun j => decide (s.charAt j = markerChar j)) } := by
  intro k
  induction k with
  | zero => intro _; exact ⟨s, rfl, by cases s; simp_all⟩
  | succ k ih =>
    intro hk
    obtain ⟨t, ht, e⟩ := ih (by omega)
    have hc : t.charAt k = s.charAt k := charAt_congr (by rw [e]) (by rw [e]) k
    have h4 := runOp_mark_char hrule (s := t) (k := k) (by rw [e]; exact hb) (by rw [e]; exact hp) (by rw [e])
      (by omega) (by rw [e]; exact h36)
    refine ⟨_, by rw [show 4 * (k+1) = 4 * k + 4 by omega, runOp_add 4 ht]; exact h4, ?_⟩
    unfold State.matchChar
    have hac : (t.afterChar k).acc = s.charAt k := hc
    rw [List.range_succ, List.all_append]
    split
    · rename_i hne
      rw [hac] at hne
      simp only [State.afterChar, hc]
      rw [e]
      simp [hne]; omega
    · rename_i hne
      rw [hac] at hne
      simp only [State.afterChar, hc]
      rw [e]
      have hne : s.charAt k = markerChar k := by simpa using hne
      simp [hne]; omega

theorem isEncoded_eq {s : State} (h : 36 ≤ s.npix) :
    s.isEncoded = (List.range 9).all (fun j => decide (s.charAt j = markerChar j)) := by
  simp [State.isEncoded, h]

/-- The mark phase up to and including its closing step. -/
theorem mark_close {rule : State → Except Fault State} (hrule : ∀ u, u.phase = .dMark → rule u = markStep u)
    {s : State} (hb : s.busy = true) (hp : s.phase = .dMark) (hn : s.n = 0) (hm : s.matched = true) :
    ∃ t j, j ≤ 37 ∧ (36 ≤ s.npix → j = 37) ∧ (s.npix < 36 → j = 1) ∧ runOp rule j s = .next (markClose t) ∧
      t = { s with acc := t.acc, n := t.n, matched := s.isEncoded } ∧ (36 ≤ s.npix → t.n = 36) := by
  by_cases h36 : 36 ≤ s.npix
  · obtain ⟨t, ht, e⟩ := mark_run hrule hb hp hn hm h36 9 (Nat.le_refl _)
    have hbt : t.busy = true := by rw [e]; exact hb
    refine ⟨t, 37, Nat.le_refl _, fun _ => rfl, fun h => by omega, ?_, ?_, ?_⟩
    · have hc : rule t = .ok (markClose t) := by
        rw [hrule t (by rw [e]; exact hp)]
        exact markStep_close (by rw [e]; exact h36) (by rw [e])
      rw [show (37 : Nat) = 4 * 9 + 1 from rfl, runOp_add 1 ht, runOp_succ 0 hbt hc]
      rfl
    · rw [isEncoded_eq h36, e]
    · intro _; rw [e]
  · refine ⟨{ s with matched := false }, 1, by omega, fun h => absurd h h36, fun _ => rfl, ?_, ?_, fun h => absurd h h36⟩
    · rw [runOp_succ 0 hb (by rw [hrule s hp]; exact markStep_small (by omega))]; rfl
    · have : s.isEncoded = false := by simp [State.isEncoded, h36]
      rw [this]

/-! ## D_LEN -/

/-- The numeral's registers of u say the string `str` of characters accumulated so far. -/
def Numeral (u : State) (str : List Ch) : Prop :=
  u.dcnt = str.length ∧ u.lbad = (!str.isEmpty && !canon str) ∧ u.lz = decide (str.head? = some 0x30#8) ∧
  (u.lbad = false → u.lovf = decide (u.lmax < val str) ∧ (u.lovf = false → u.lacc = val str))

theorem Numeral.accumulate {u : State} {str : List Ch} (h : Numeral u str) : Numeral u.accumulate (str ++ [u.acc]) := by
  obtain ⟨h1, h2, h3, h4⟩ := h
  have hz : u.nextLz = decide ((str ++ [u.acc]).head? = some 0x30#8) := by
    unfold State.nextLz
    cases str with
    | nil =>
      simp only [h3, h1, List.nil_append, List.head?_cons, List.head?_nil, List.length_nil]
      by_cases ha : u.acc = 0x30#8 <;> simp [ha]; decide
    | cons a r => simp [h3, h1]
  have hbad : u.nextLbad = (!(str ++ [u.acc]).isEmpty && !canon (str ++ [u.acc])) := by
    unfold State.nextLbad
    cases str with
    | nil =>
      rw [h2, h1]
      simp [canon]
    | cons a r =>
      rw [canon_snoc (by simp), h2, hz, h1]
      simp
  refine ⟨by simp [h1], hbad, hz, ?_⟩
  intro hb
  have hb : u.nextLbad = false := hb
  have hb0 : u.lbad = false := by unfold State.nextLbad at hb; simp at hb; exact hb.1.1
  have hdg : isDigit u.acc = true := by unfold State.nextLbad at hb; simp at hb; exact hb.1.2
  obtain ⟨h5, h6⟩ := h4 hb0
  show u.nextLovf = decide (u.lmax < val (str ++ [u.acc])) ∧ (u.nextLovf = false → u.nextLacc = val (str ++ [u.acc]))
  rw [val_append]
  unfold State.nextLovf State.nextLacc State.nextValue
  simp only [hdg, Bool.true_and, if_true]
  cases hv : u.lovf with
  | true =>
    rw [hv] at h5
    have h5 := of_decide_eq_true h5.symm
    refine ⟨?_, by simp⟩
    simp only [Bool.true_or]; symm; rw [decide_eq_true_iff]; omega
  | false =>
    rw [h6 hv]
    refine ⟨by simp, ?_⟩
    intro hh
    simp at hh
    exact Nat.mod_eq_of_lt (by have := @lmax_succ u; omega)

theorem numeral_nil {u : State} (h1 : u.dcnt = 0) (h2 : u.lbad = false) (h3 : u.lz = false) (h4 : u.lovf = false)
    (h5 : u.lacc = 0) : Numeral u [] := by
  refine ⟨h1, by simp [h2], by simp [h3], fun _ => ⟨by simp [h4, val], fun _ => by simp [h5, val]⟩⟩

/-- u is a state inside D_LEN of the operation that entered it in s: only ACC, N and the numeral's registers differ. -/
def Reading (s u : State) : Prop :=
  u = { s with acc := u.acc, n := u.n, dcnt := u.dcnt, lacc := u.lacc, lovf := u.lovf, lbad := u.lbad, lz := u.lz }

/-- D_LEN from character k on, `str` being the string so far: it ends as the scan says (R146). -/
theorem len_run {rule : State → Except Fault State} (hrule : ∀ u, u.phase = .dLen → rule u = lenStep u)
    {s : State} (hb : s.busy = true) (hp : s.phase = .dLen) :
    ∀ (fuel k : Nat) (str : List Ch) (u : State), Reading s u → u.n = 4 * k → Numeral u str → s.npix ≤ fuel + k →
      match s.scanFrom fuel k str with
      | none => ∃ v, runOp rule (s.npix - 4 * k + 1) u = .next (v.finish .parseError .exhausted) ∧ Reading s v
      | some str' => ∃ j v, j ≤ s.npix - 4 * k ∧ runOp rule j u = .next (lenTerminator v) ∧ Reading s v ∧ Numeral v str' ∧
          v.n ≤ s.npix ∧ v.n = 4 * k + j ∧ v.n = 4 * (k + str'.length - str.length) + 4 := by
  have hex : ∀ (k : Nat) (u : State), Reading s u → u.n = 4 * k → ¬ 4 * k + 3 < s.npix →
     ∃ v, runOp rule (s.npix - 4 * k + 1) u = .next (v.finish .parseError .exhausted) ∧ Reading s v := by
    intro k u hu hn hav
    have gen : ∀ d (w : State), Reading s w → 4 * k ≤ w.n → s.npix - w.n = d →
        ∃ v, runOp rule (d + 1) w = .next (v.finish .parseError .exhausted) ∧ Reading s v := by
      intro d
      induction d with
      | zero =>
        intro w hw _ hd
        refine ⟨w, ?_, hw⟩
        have hx : rule w = .ok (w.finish .parseError .exhausted) := by
          rw [hrule w (by rw [hw]; exact hp)]
          exact lenStep_exhausted (by rw [hw]; show s.npix ≤ w.n; omega)
        rw [runOp_succ 0 (by rw [hw]; exact hb) hx]; rfl
      | succ d ih =>
        intro w hw hk hd
        have hnp : w.npix = s.npix := by rw [hw]; rfl
        have hx : rule w = .ok w.afterSymbol := by
          rw [hrule w (by rw [hw]; exact hp)]
          exact lenStep_read (by rw [hnp]; omega) (by omega)
        rw [runOp_succ (d+1) (by rw [hw]; exact hb) hx]
        refine ih w.afterSymbol ?_ (by show 4 * k ≤ w.n + 1; omega) (by show s.npix - (w.n + 1) = d; omega)
        unfold Reading at hw ⊢; simp only [State.afterSymbol]; rw [hw]
    rw [← hn]
    exact gen _ u hu (by omega) rfl
  intro fuel
  induction fuel with
  | zero =>
    intro k str u hu hn hN hf
    simp only [State.scanFrom]
    exact hex k u hu hn (by omega)
  | succ fuel ih =>
    intro k str u hu hn hN hf
    have hnp : u.npix = s.npix := by rw [hu]; rfl
    have hcc : u.charAt k = s.charAt k := charAt_congr (by rw [hu]) (by rw [hu]) k
    by_cases hav : 4 * k + 3 < s.npix
    · have h4 := runOp_len_char hrule (s := u) (k := k) (by rw [hu]; exact hb) (by rw [hu]; exact hp) hn (by rw [hnp]; exact hav)
      rw [hcc] at h4
      by_cases hd : s.charAt k = delim
      · rw [if_pos hd] at h4
        rw [State.scanFrom, if_pos (by simp [State.avail, hav]), if_pos hd]
        refine ⟨4, u.afterChar k, by omega, h4, ?_, hN, ?_, ?_, ?_⟩
        · unfold Reading at hu ⊢; simp only [State.afterChar]; rw [hu]
        · show 4 * k + 4 ≤ _; omega
        · rfl
        · show 4 * k + 4 = _; omega
      · rw [if_neg hd] at h4
        rw [State.scanFrom, if_pos (by simp [State.avail, hav]), if_neg hd]
        have hN' : Numeral (u.afterChar k).accumulate (str ++ [s.charAt k]) := by
          have := Numeral.accumulate (u := u.afterChar k) (str := str) hN
          rw [show (u.afterChar k).acc = s.charAt k from hcc] at this
          exact this
        have hR : Reading s (u.afterChar k).accumulate := by
          unfold Reading at hu ⊢; simp only [State.afterChar, State.accumulate]; rw [hu]
        have := ih (k + 1) (str ++ [s.charAt k]) _ hR (by show 4 * k + 4 = _; omega) hN' (by omega)
        revert this
        split
        · rintro ⟨v, hv, hr⟩
          exact ⟨v, by rw [show s.npix - 4 * k + 1 = 4 + (s.npix - 4 * (k+1) + 1) by omega, runOp_add _ h4]; exact hv, hr⟩
        · rintro ⟨j, v, hj, hv, hr, hNv, hle, hn1, hn2⟩
          refine ⟨4 + j, v, by omega, by rw [runOp_add _ h4]; exact hv, hr, hNv, hle, by omega, ?_⟩
          rw [hn2]; simp only [List.length_append, List.length_singleton]; omega
    · rw [State.scanFrom, if_neg (by simp [State.avail]; omega)]
      exact hex k u hu hn hav

theorem lenTerminator_parse {v : State} {str : List Ch} (h : Numeral v str) :
    lenTerminator v = match parse v.lmax str with
      | .error c => v.finish .parseError c
      | .ok l =>
        if decodeCmd v.op = .getlen then { v with len := l }.finish .ok .noCause
        else { v with len := l, phase := .dBound } := by
  obtain ⟨h1, h2, h3, h4⟩ := h
  unfold lenTerminator parse
  cases str with
  | nil => simp [h1]
  | cons a r =>
    rw [if_neg (by rw [h1]; simp), h2]
    simp only [List.isEmpty_cons, Bool.not_false, Bool.true_and, Bool.false_eq_true, if_false]
    cases hc : canon (a :: r)
    · simp
    · simp only [Bool.not_true, Bool.false_eq_true, if_false]
      obtain ⟨h5, h6⟩ := h4 (by rw [h2]; simp [hc])
      by_cases hv : v.lmax < val (a :: r)
      · rw [h5, if_pos (by simp [hv]), if_pos hv]
      · have : v.lovf = false := by rw [h5]; simp [hv]
        rw [this, if_neg hv, h6 this]; rfl

theorem scanFrom_congr {s t : State} (h : t.pix = s.pix) (hg : t.gh = s.gh) (hw : t.gw = s.gw) :
    ∀ fuel k acc, t.scanFrom fuel k acc = s.scanFrom fuel k acc := by
  have hn : t.npix = s.npix := by unfold State.npix; rw [hg, hw]
  intro fuel
  induction fuel with
  | zero => intros; rfl
  | succ f ih =>
    intro k acc
    unfold State.scanFrom State.avail
    rw [hn, charAt_congr h hg, ih]

/-! ## D_XTR -/

/-- D_XTR after i characters, from its first state s (N = HDR). -/
theorem xtr_run {s : State} {h : Nat} (hb : s.busy = true) (hp : s.phase = .dXtr) (hh : s.hdr = 4 * h) (hn : s.n = 4 * h)
    (hfit : s.hdr + 4 * s.len ≤ s.npix) (hl : s.len ≤ s.lmax) :
    ∀ i, i ≤ s.len → ∃ t, runOp decodeStep (4 * i) s = .next t ∧
      t = { s with acc := t.acc, n := 4 * (h + i), pay := t.pay } ∧
      (∀ j, t.payAt j = if j < i then s.charAt (h + j) else s.payAt j) := by
  intro i
  induction i with
  | zero => intro _; exact ⟨s, rfl, by cases s; simp_all, fun j => by simp⟩
  | succ i ih =>
    intro hi
    obtain ⟨t, ht, e, hpay⟩ := ih (by omega)
    have hc : t.charAt (h + i) = s.charAt (h + i) := charAt_congr (by rw [e]) (by rw [e]) _
    have h4 := runOp_extract_char (rule := decodeStep) (fun u hu => by simp [decodeStep, hu]) (s := t) (i := i)
      (h := h) (by rw [e]; exact hb) (by rw [e]; exact hp) (by rw [e]; exact hh) (by rw [e])
      (by rw [e]; show i < s.len; omega)
      (by rw [e]; exact hfit) (by rw [e]; show i < s.lmax; omega)
    refine ⟨_, by rw [show 4 * (i+1) = 4 * i + 4 by omega, runOp_add 4 ht]; exact h4, ?_, ?_⟩
    · rw [e]; simp [State.afterChar, State.setPay]; omega
    · intro j
      by_cases hj : j = i
      · subst hj
        rw [State.setPay_payAt_same, if_pos (by omega), hc]
      · rw [State.setPay_payAt_other _ hj]
        show t.payAt j = _
        rw [hpay j]
        by_cases hlt : j < i
        · rw [if_pos hlt, if_pos (by omega)]
        · rw [if_neg hlt, if_neg (by omega)]

end Sys2Proof.Machine
end

