-- ==== Sys2Proof/Laws/Step.lean ====
section
/-! SUPPORT. What a step is for each move the host can have in front: one lemma per move, so that no later proof unfolds
`step`. -/

namespace Sys2Proof.Machine

theorem step_no_move {s : State} (h : s.host = []) : step s = blockTurn s := by
  simp [step, State.fetchCommand, otherTurn, h]

theorem step_csrWrite {s : State} {k v : Nat} {rest : List HostMove} (h : s.host = .csrWrite k v :: rest) :
    step s = (s.setHost rest).csrWrite k v := by
  simp [step, State.fetchCommand, otherTurn, hostTurn, h]

theorem step_csrRead {s : State} {k : Nat} {rest : List HostMove} (h : s.host = .csrRead k :: rest) :
    step s = .next ((s.setHost rest).setReply (.csr k ((s.setHost rest).csrRead k))) := by
  simp [step, State.fetchCommand, otherTurn, hostTurn, h]

theorem step_pixWrite {s : State} {x y : Nat} {v : Pixel} {rest : List HostMove}
    (h : s.host = .pixWrite x y v :: rest) :
    step s = (s.setHost rest).hostPixWrite x y v := by
  simp [step, State.fetchCommand, otherTurn, hostTurn, h]

theorem step_pixRead {s : State} {x y : Nat} {rest : List HostMove} (h : s.host = .pixRead x y :: rest) :
    step s = (s.setHost rest).hostPixRead x y := by
  simp [step, State.fetchCommand, otherTurn, hostTurn, h]

theorem step_payWrite {s : State} {i : Nat} {c : Ch} {rest : List HostMove} (h : s.host = .payWrite i c :: rest) :
    step s = (s.setHost rest).hostPayWrite i c := by
  simp [step, State.fetchCommand, otherTurn, hostTurn, h]

theorem step_payRead {s : State} {i : Nat} {rest : List HostMove} (h : s.host = .payRead i :: rest) :
    step s = (s.setHost rest).hostPayRead i := by
  simp [step, State.fetchCommand, otherTurn, hostTurn, h]

theorem step_reset {s : State} {rest : List HostMove} (h : s.host = .reset :: rest) :
    step s = .next (s.setHost rest).resetRegisters := by
  simp [step, State.fetchCommand, otherTurn, hostTurn, h]

theorem step_waitDone {s : State} {rest : List HostMove} (h : s.host = .waitDone :: rest) : step s = s.poll rest := by
  simp [step, State.fetchCommand, otherTurn, hostTurn, h]

theorem step_letRun {s : State} {rest : List HostMove} (h : s.host = .letRun :: rest) :
    step s = blockTurn (s.setHost rest) := by
  simp [step, State.fetchCommand, otherTurn, hostTurn, h]

theorem step_line {s : State} {l : HostLine} {moves rest : List HostMove} (h : s.host = .line l :: rest)
    (he : (s.setHost rest).expandLine l = .ok moves) : step s = .next ((s.setHost rest).setHost (moves ++ rest)) := by
  simp [step, State.fetchCommand, otherTurn, hostTurn, h, he]

/-- A register write that goes through: the value fits and BUSY = 0. -/
theorem State.csrWrite_idle {s : State} {k v : Nat} (hb : s.busy = false) (hv : k < 6 → v < 2 ^ s.csrWidth k) :
    s.csrWrite k v = .next (s.csrWriteIdle k v) := by
  have : ¬ (k < 6 ∧ 2 ^ s.csrWidth k ≤ v) := fun h => absurd (hv h.1) (Nat.not_lt.2 h.2)
  simp [State.csrWrite, this, hb]

/-- A register write while BUSY = 1: ignored (R34, R36). -/
theorem State.csrWrite_busy {s : State} {k v : Nat} (hb : s.busy = true) (hv : k < 6 → v < 2 ^ s.csrWidth k) :
    s.csrWrite k v = .next s := by
  have : ¬ (k < 6 ∧ 2 ^ s.csrWidth k ≤ v) := fun h => absurd (hv h.1) (Nat.not_lt.2 h.2)
  simp [State.csrWrite, this, hb]

/-! ## Runs of the machine -/

theorem run_succ (M : Host.Core) (k : Nat) {u v : M.State} (h : M.step u = .next v) :
    Host.Core.run M (k + 1) u =
    Host.Core.run M k v := by
  rw [Host.Core.run, h]

theorem core_run_succ {u v : State} (k : Nat) (h : step u = .next v) : Host.Core.run Sys2Proof.core (k+1) u =
    Host.Core.run Sys2Proof.core k v := run_succ Sys2Proof.core k h

end Sys2Proof.Machine
end

