-- ==== Sys2Proof/Laws/Sequences.lean ====
section
/-! SUPPORT. The host's sequences: what one turn of `runScript` is, what `readBack` gives at every pair, and the lengths
of the scripts, so that no later proof unfolds them. -/

namespace Sys2Proof.Machine

/-! ## The caller's grid -/

@[simp] theorem PixelGrid.setPixel_same (g : PixelGrid) (x y : Nat) (v : Pixel) : (g.setPixel x y v).getPixel x y = v := by
  simp [PixelGrid.setPixel]

theorem PixelGrid.setPixel_other (g : PixelGrid) {x y a b : Nat} (v : Pixel) (h : ¬ (a = x ∧ b = y)) :
    (g.setPixel x y v).getPixel a b = g.getPixel a b := if_neg h

@[simp] theorem PixelGrid.setPixel_width (g : PixelGrid) (x y : Nat) (v : Pixel) : (g.setPixel x y v).width = g.width := rfl

@[simp] theorem PixelGrid.setPixel_height (g : PixelGrid) (x y : Nat) (v : Pixel) : (g.setPixel x y v).height = g.height := rfl

/-- Reading back pixels 0 .. k-1 in raster order of height h. -/
theorem readBack_prefix (g : PixelGrid) (s : State) (h k : Nat) :
    let r := (List.range k).foldl (fun r n => r.setPixel (n / h) (n % h) (s.pixAt (n / h) (n % h))) g
    r.width = g.width ∧ r.height = g.height ∧
    (∀ n, n < k → r.getPixel (n / h) (n % h) = s.pixAt (n / h) (n % h)) ∧
    ∀ x y, (∀ n, n < k → ¬ (x = n / h ∧ y = n % h)) → r.getPixel x y = g.getPixel x y := by
  induction k with
  | zero => exact ⟨rfl, rfl, fun n hn => absurd hn (Nat.not_lt_zero n), fun _ _ _ => rfl⟩
  | succ k ih =>
    obtain ⟨hw, hh, hin, hout⟩ := ih
    rw [List.range_succ, List.foldl_append]
    refine ⟨hw, hh, fun n hn => ?_, fun x y hx => ?_⟩
    · by_cases hc : n / h = k / h ∧ n % h = k % h
      · rw [hc.1, hc.2]
        exact PixelGrid.setPixel_same _ _ _ _
      · have hne : n ≠ k := fun e => hc ⟨by rw [e], by rw [e]⟩
        exact (PixelGrid.setPixel_other _ _ hc).trans (hin n (by omega))
    · exact (PixelGrid.setPixel_other _ _ (hx k (Nat.lt_succ_self k))).trans
        (hout x y fun n hn => hx n (Nat.lt_succ_of_lt hn))

/-- What the grid read back holds, pair by pair (R178 step 5). -/
theorem PixelGrid.readBack_getPixel (g : PixelGrid) (s : State) (x y : Nat) :
    (g.readBack s).getPixel x y = if x < g.width ∧ y < g.height then s.pixAt x y else g.getPixel x y := by
  obtain ⟨_, _, hin, hout⟩ := readBack_prefix g s g.height (g.width * g.height)
  split
  · rename_i h
    have hn : x * g.height + y < g.width * g.height :=
      calc x * g.height + y < (x + 1) * g.height := by rw [Nat.succ_mul]; omega
        _ ≤ g.width * g.height := Nat.mul_le_mul_right _ h.1
    have hd : (x * g.height + y) / g.height = x := by
      rw [Nat.mul_comm, Nat.mul_add_div (by omega), Nat.div_eq_of_lt h.2, Nat.add_zero]
    have hm : (x * g.height + y) % g.height = y := by
      rw [Nat.mul_comm, Nat.mul_add_mod, Nat.mod_eq_of_lt h.2]
    have := hin _ hn
    rwa [hd, hm] at this
  · rename_i h
    refine hout x y fun n hn hc => h ⟨?_, ?_⟩
    · rw [hc.1]
      exact Nat.div_lt_of_lt_mul (by rwa [Nat.mul_comm])
    · rw [hc.2]
      refine Nat.mod_lt _ (Nat.pos_of_ne_zero fun e => ?_)
      rw [e, Nat.mul_zero] at hn
      exact Nat.not_lt_zero n hn

@[simp] theorem PixelGrid.readBack_width (g : PixelGrid) (s : State) : (g.readBack s).width = g.width :=
  (readBack_prefix g s g.height (g.width * g.height)).1

@[simp] theorem PixelGrid.readBack_height (g : PixelGrid) (s : State) : (g.readBack s).height = g.height :=
  (readBack_prefix g s g.height (g.width * g.height)).2.1

/-! ## Scripts -/

@[simp] theorem length_gridMoves (g : PixelGrid) : (gridMoves g).length = g.width * g.height + 2 := by
  simp [gridMoves, dimMoves]

@[simp] theorem length_textMoves (text : List Ch) : (textMoves text).length = text.length + 1 := by
  simp [textMoves]

/-- With no move to come the script is over, whatever the fuel. -/
theorem runScript_done (k : Nat) {s : State} (h : s.host = []) : runScript k s = .ok s := by
  cases k <;> simp [runScript, h]

theorem runScript_next (k : Nat) {s t : State} (h : s.host ≠ []) (hs : step s = .next t) :
    runScript (k + 1) s = runScript k t := by
  simp [runScript, h, hs]

theorem runScript_fault (k : Nat) {s : State} {f : Fault} (h : s.host ≠ []) (hs : step s = .fault f) :
    runScript (k + 1) s = .error (.machineFault f) := by
  simp [runScript, h, hs]

theorem runScript_refused (k : Nat) {s : State} {r : Refusal} (h : s.host ≠ []) (hs : step s = .refused r) :
    runScript (k + 1) s = .error (.machineRefused r) := by
  simp [runScript, h, hs]

/-- What a sequence answers, once the run of its script is known. -/
theorem runSequence_of_run {moves : List HostMove} {i : Instr} {s t : State}
    (h : runScript (scriptBound s (moves ++ [.command ((encodeCmd i).setWidth 8)]))
      (s.setHost (moves ++ [.command ((encodeCmd i).setWidth 8)])) = .ok t) :
    runSequence moves i s = match resultReport t.result t.cause with | none => .ok t | some e => .error e := by
  unfold runSequence
  cases hr : resultReport t.result t.cause <;> simp [h, hr]

theorem runSequence_of_error {moves : List HostMove} {i : Instr} {s : State} {e : HostError}
    (h : runScript (scriptBound s (moves ++ [.command ((encodeCmd i).setWidth 8)]))
      (s.setHost (moves ++ [.command ((encodeCmd i).setWidth 8)])) = .error e) :
    runSequence moves i s = .error e := by
  unfold runSequence
  simp only [h]

end Sys2Proof.Machine
end

