-- ==== Sys2Proof/Tests/Slice0.lean ====
section
/-! SUPPORT. Tests. Expected values are from spec/95_test_vectors.md, by the row's id, or are worked out from the rule
named. The witnesses at the end show, for every statement with hypotheses, a state and operands that meet them. -/

namespace Sys2Proof.Tests

open Sys2Proof.Machine

/-! ## WellFormed refuses ill-formed terms -/

/-- DW >= 1 and LW >= 1 (R12). -/
theorem test_wellFormed_needs_dw : Config.wellFormed { dw := 0, lw := 31 } = false := by decide

theorem test_wellFormed_needs_lw : Config.wellFormed { dw := 16, lw := 0 } = false := by decide

theorem test_wellFormed_accepts_suggested : Config.suggested.wellFormed = true := by decide

/-- A byte with bit 2 set carries no command word (R90). -/
theorem test_wellFormed_refuses_wide_command : commandByteWellFormed 0b00000100#8 = false := by decide

/-! ## Decoding, word by word (R90) -/

theorem test_decode_word_encode : decodeBytes [0b00000000#8] = .ok (.encode, []) := by decide

theorem test_decode_word_detect : decodeBytes [0b00000001#8, 0xFF#8] = .ok (.detect, [0xFF#8]) := by decide

theorem test_decode_word_getlen : decodeBytes [0b00000010#8] = .ok (.getlen, []) := by decide

theorem test_decode_word_decode : decodeBytes [0b00000011#8] = .ok (.decode, []) := by decide

theorem test_decode_refuses_bit2 : decodeBytes [0b00000100#8] = .error .widerThanCmd := by decide

theorem test_decode_refuses_bit7 : decodeBytes [0b10000001#8] = .error .widerThanCmd := by decide

theorem test_decode_refuses_no_byte : decodeBytes [] = .error .noByte := by decide

theorem test_table_words :
    decodeTableWord 8 0 = some .encode ∧ decodeTableWord 8 1 = some .detect ∧ decodeTableWord 8 2 = some .getlen ∧
    decodeTableWord 8 3 = some .decode ∧ decodeTableWord 8 4 = none := by decide

/-! ## Primitive functions -/

/-- A1, the rows `Z` (5A) and E4; A2's JOIN(0, 1, 2, 3). -/
theorem test_split_join : split 0x5A#8 = [1, 1, 2, 2] ∧ split 0xE4#8 = [3, 2, 1, 0] ∧ join 0 1 2 3 = 0x1B#8 := by decide

/-- A3: FF336699 and 2; 7FFFFFFE and 1. -/
theorem test_embed : embed 0xFF336699#32 2 = 0xFF33669A#32 ∧ embed 0x7FFFFFFE#32 1 = 0x7FFFFFFD#32 := by decide

/-- A5: DEC(24), DEC(1000); PARSE of `024`, `2147483647`, `2147483648`. -/
theorem test_numerals :
    dec 24 = [0x32#8, 0x34#8] ∧ digits 1000 = 4 ∧ parse 2147483647 [0x30#8, 0x32#8, 0x34#8] = .error .notDecimal ∧
    parse 2147483647 (dec 2147483647) = .ok 2147483647 ∧ parse 2147483647 (dec 2147483648) = .error .range := by
  decide +kernel

/-- A6, the rows L = 10 and L = 2147483647. -/
theorem test_frame_sizes :
    reqPixels 10 = 88 ∧ hdrPixels 10 = 48 ∧ reqPixels 2147483647 = 8589934668 ∧ hdrPixels 2147483647 = 80 := by
  decide +kernel

/-! ## Grids -/

/-- `!encoded!`. -/
def mark : List Ch := [0x21#8, 0x65#8, 0x6E#8, 0x63#8, 0x6F#8, 0x64#8, 0x65#8, 0x64#8, 0x21#8]

/-- A grid of w x h whose pixel n is `base` with the n-th symbol of `text`, 0 past its end; PAY begins with `pay`. -/
def grid (w h plen : Nat) (base : Pixel) (text pay : List Ch) : State :=
  { State.reset with
    gw := w, gh := h, plen := plen
    pix := (List.range (w * h)).map (fun n => ((n / h, n % h), embed base (streamAt text n)))
    pay := (List.range pay.length).map (fun i => (i, pay.getD i 0#8)) }

theorem grid_ready {w h plen : Nat} {base : Pixel} {text pay : List Ch} (h1 : w < 2 ^ 16) (h2 : h < 2 ^ 16)
    (h3 : plen < 2 ^ 31) (hm : (grid w h plen base text pay).memoriesWf)
    (hp : (grid w h plen base text pay).placesExist) : (grid w h plen base text pay).Ready :=
  ⟨⟨⟨(by decide : 1 ≤ 16), (by decide : 1 ≤ 31), h1, h2, h3, Nat.two_pow_pos 31, Nat.two_pow_pos 31⟩, hm, hp,
    ⟨⟨fun h => (nomatch h), fun h => absurd rfl h⟩, fun h => (nomatch h)⟩, rfl⟩, rfl⟩

/-- The outcome is a next state with property `p`. -/
def nextWith (p : State → Bool) : Host.Outcome State Fault Refusal → Bool
  | .next t => p t
  | .fault _ => false
  | .refused _ => false

theorem of_nextWith {p : State → Bool} {o : Host.Outcome State Fault Refusal} (h : nextWith p o = true) :
    ∃ t, o = .next t ∧ p t = true := by
  cases o with
  | next t => exact ⟨t, rfl, h⟩
  | fault f => cases h
  | refused r => cases h

/-- E4: 11 x 4, all 00000000, PLEN = 0. -/
def blank : State := grid 11 4 0 0#32 [] []

/-- E5: 43 x 1. -/
def small : State := grid 43 1 0 0#32 [] []

/-- `!encoded!1!A` in the low bits of a 12 x 4 grid whose other bits are ABCDEF.. -/
def spelled : State := grid 12 4 0 0xABCDEF00#32 (mark ++ [0x31#8, 0x21#8, 0x41#8]) [0xEE#8, 0xEE#8]

/-- G3, shortened to 44 pixels: `!encoded!!`. -/
def emptyField : State := grid 44 1 0 0#32 (mark ++ [0x21#8]) []

theorem blank_ready : blank.Ready :=
  grid_ready (by decide) (by decide) (by decide) (by decide +kernel) (by unfold State.placesExist; decide +kernel)

theorem small_ready : small.Ready :=
  grid_ready (by decide) (by decide) (by decide) (by decide +kernel) (by unfold State.placesExist; decide +kernel)

theorem spelled_ready : spelled.Ready :=
  grid_ready (by decide) (by decide) (by decide) (by decide +kernel) (by unfold State.placesExist; decide +kernel)

theorem emptyField_ready : emptyField.Ready :=
  grid_ready (by decide) (by decide) (by decide) (by decide +kernel) (by unfold State.placesExist; decide +kernel)

/-! ## One operation, one small grid -/

/-- E4: STATUS 002 and the 44 symbols of `!encoded!0!`. -/
theorem test_encode_exact_capacity :
    nextWith (fun t => t.statusWord == 0x002#9 && (List.range 44).map (fun n => extract (t.pixel n)) ==
      [0, 2, 0, 1, 1, 2, 1, 1, 1, 2, 3, 2, 1, 2, 0, 3, 1, 2, 3, 3, 1, 2, 1, 0, 1, 2, 1, 1, 1, 2, 1, 0, 0, 2, 0, 1,
        0, 3, 0, 0, 0, 2, 0, 1]) (exec .encode blank) = true := by decide +kernel

/-- E5: STATUS 012, the grid unchanged. -/
theorem test_encode_one_pixel_short :
    nextWith (fun t => t.statusWord == 0x012#9 && t.pix == small.pix) (exec .encode small) = true := by decide +kernel

/-- T1: STATUS 006. -/
theorem test_detect_marker :
    nextWith (fun t => t.statusWord == 0x006#9) (exec .detect (grid 6 6 0 0#32 mark [])) = true := by decide +kernel

/-- T3: 35 pixels, STATUS 002. -/
theorem test_detect_one_pixel_short :
    nextWith (fun t => t.statusWord == 0x002#9) (exec .detect (grid 35 1 0 0#32 mark [])) = true := by decide +kernel

/-- G1 on 48 pixels: LEN = 24, N = 48, STATUS 002. -/
theorem test_getlen_two_digits :
    nextWith (fun t => t.statusWord == 0x002#9 && t.len == 24 && t.n == 48)
      (exec .getlen (grid 48 1 0 0#32 (mark ++ [0x32#8, 0x34#8, 0x21#8]) [])) = true := by decide +kernel

/-- G12: `!encoded!2a` on 44 pixels is EXHAUSTED, not NOT_DECIMAL: STATUS 05A. -/
theorem test_getlen_exhausted :
    nextWith (fun t => t.statusWord == 0x05A#9 && t.len == 0 && t.n == 44)
      (exec .getlen (grid 44 1 0 0#32 (mark ++ [0x32#8, 0x61#8]) [])) = true := by decide +kernel

/-- G16: `!encoded!3!a!c` on 56 pixels: STATUS 006, LEN = 3, PAY begins 61 21 63 EE. -/
theorem test_decode_terminator_in_text :
    nextWith (fun t => t.statusWord == 0x006#9 && t.len == 3 && t.n == 56 &&
        (List.range 4).map t.payAt == [0x61#8, 0x21#8, 0x63#8, 0xEE#8])
      (exec .decode (grid 56 1 0 0#32 (mark ++ [0x33#8, 0x21#8, 0x61#8, 0x21#8, 0x63#8])
        [0xEE#8, 0xEE#8, 0xEE#8, 0xEE#8])) = true := by decide +kernel

/-- G17: the same text on 55 pixels: OVERRUN, STATUS 15E, LEN = 3, PAY unchanged. -/
theorem test_decode_overrun :
    nextWith (fun t => t.statusWord == 0x15E#9 && t.len == 3 && t.payAt 0 == 0xEE#8)
      (exec .decode (grid 55 1 0 0#32 (mark ++ [0x33#8, 0x21#8, 0x61#8, 0x21#8, 0x63#8])
        [0xEE#8, 0xEE#8, 0xEE#8, 0xEE#8])) = true := by decide +kernel

/-- The step runs the fetched command: a DETECT right after reset has no pixel (T4): STATUS 002. -/
theorem test_step_runs_fetch_word :
    nextWith (fun t => t.statusWord == 0x002#9 && t.host == [.waitDone]) (step (State.reset.withFetchWord 8 1)) = true := by
  decide +kernel

/-- H7: after the CMD write STATUS reads 001. -/
theorem test_status_reads_busy : (spelled.start 1#2).csrRead 4 = 1 := by decide +kernel

/-! ## Witnesses -/

theorem witness_ResetEventLeavesResetValues :
    ((spelled.start 3#2).setHost [.reset]).host = .reset :: [] ∧ ([] : List HostMove) = [] := ⟨rfl, rfl⟩

/-- Both ends of the range: DW = LW = 1, and the suggested widths. -/
theorem witness_ResetStateMeetsTheInvariant :
    Config.wellFormed { dw := 1, lw := 1 } = true ∧ Config.suggested.wellFormed = true := by decide

theorem witness_CommandIssueStartsOrIsIgnored :
    ((spelled.setHost [.csrWrite 3 3]).host = .csrWrite 3 (3#2).toNat :: [] ∧ (spelled.setHost [.csrWrite 3 3]).busy = false) ∧
    (((spelled.start 0#2).setHost [.csrWrite 3 0]).host = .csrWrite 3 (0#2).toNat :: [] ∧
      ((spelled.start 0#2).setHost [.csrWrite 3 0]).busy = true) := by
  refine ⟨⟨rfl, rfl⟩, rfl, rfl⟩

/-- A read; a write of the largest GW; a write to a number that selects no register. -/
theorem witness_RegisterPortFollowsTheMap :
    (spelled.setHost [.csrRead 4]).host = .csrRead 4 :: [] ∧
    ((spelled.setHost [.csrWrite 0 65535]).host = .csrWrite 0 65535 :: [] ∧ (0 : Nat) ≠ 3 ∧
      (0 < 6 → 65535 < 2 ^ (spelled.setHost [.csrWrite 0 65535]).csrWidth 0)) ∧
    ((spelled.setHost [.csrWrite 7 1]).host = .csrWrite 7 1 :: [] ∧ (7 : Nat) ≠ 3 ∧
      (7 < 6 → 1 < 2 ^ (spelled.setHost [.csrWrite 7 1]).csrWidth 7)) :=
  ⟨rfl, ⟨rfl, by decide, fun _ => by decide⟩, rfl, by decide, fun h => absurd h (by decide)⟩

theorem witness_DecodeAndEncodeAgree : Instr.decode.wellFormed = true ∧ decodeByte 0x03#8 = .ok .decode := by decide

theorem witness_StepRunsTheDecodedOperation :
    ((spelled.setHost [.command 2#8]).host = .command 2#8 :: [] ∧ decodeByte 2#8 = .ok .getlen) ∧
    ((spelled.setHost [.command 4#8]).host = .command 4#8 :: [] ∧ decodeByte 4#8 = .error .widerThanCmd) :=
  ⟨⟨rfl, by decide⟩, rfl, by decide⟩

theorem witness_BlockMovesWhileBusy :
    (spelled.start 1#2).host = [] ∧ (spelled.setHost [.letRun]).host = .letRun :: [] ∧
    (spelled.setHost [.waitDone]).host = .waitDone :: [] := ⟨rfl, rfl, rfl⟩

/-- The first and the last pixel of a 12 x 4 grid. -/
theorem witness_RasterOrderIsABijection :
    0 < spelled.npix ∧ 47 < spelled.npix ∧ spelled.validPair 0 0 = true ∧ spelled.validPair 11 3 = true ∧
    1 < spelled.gh ∧ 0 < spelled.gh := by decide

/-- The end of the grid, where CX = W. -/
theorem witness_CursorAsCoordinatePair : 0 < spelled.gh ∧ 48 ≤ spelled.npix := by decide

/-- Each clause at its boundary: the last pixel, the last index, the first of each outside. -/
theorem witness_PortAccessesHitOnePlace :
    47 < spelled.npix ∧ 2147483646 < spelled.lmax ∧ spelled.npix ≤ 48 ∧ spelled.lmax ≤ 2147483647 := by decide +kernel

/-- The largest pair that exists, and the largest index. -/
theorem witness_HostWritesThenReadsBack :
    ((spelled.setHost [.pixWrite 65534 65534 7#32, .pixRead 65534 65534]).host =
        .pixWrite 65534 65534 7#32 :: .pixRead 65534 65534 :: [] ∧ spelled.busy = false ∧
      spelled.pairInSpace 65534 65534 = true) ∧
    ((spelled.setHost [.payWrite 2147483646 7#8, .payRead 2147483646]).host =
        .payWrite 2147483646 7#8 :: .payRead 2147483646 :: [] ∧ 2147483646 < spelled.lmax) :=
  ⟨⟨rfl, rfl, by decide +kernel⟩, rfl, by decide +kernel⟩

theorem witness_HostMovesThatAreRefused :
    (((spelled.start 1#2).setHost [.pixRead 0 0]).host = .pixRead 0 0 :: [] ∧ (spelled.start 1#2).busy = true ∧
      ∃ x y, HostMove.pixRead 0 0 = .pixRead x y) ∧
    ((spelled.setHost [.csrWrite 0 65536]).host = .csrWrite 0 65536 :: [] ∧ (0 : Nat) < 6 ∧
      2 ^ (spelled.setHost [.csrWrite 0 65536]).csrWidth 0 ≤ 65536) :=
  ⟨⟨rfl, rfl, 0, 0, rfl⟩, rfl, by decide, by decide⟩

theorem witness_DecimalNumeralRecursion : (1 ≤ 1 ∧ 1 ≤ 9) ∧ (1 ≤ 9 ∧ 9 ≤ 9) ∧ 10 ≤ 10 := by decide

theorem witness_DecimalNumeralLaws :
    2147483647 ≤ Config.suggested.lmax ∧ canon [0x32#8, 0x34#8] = true ∧ 0x32#8 ∈ dec 24 := by decide +kernel

/-- `-` is the numeral of no natural; LMAX and LMAX + 1. -/
theorem witness_ParseIsDecidedByTheNumeral :
    (([0x2D#8] : List Ch) ≠ [] ∧ ∀ v, ([0x2D#8] : List Ch) ≠ dec v) ∧ 2147483647 < 2147483648 ∧
    2147483647 ≤ 2147483647 := by
  refine ⟨⟨by decide, fun v hv => ?_⟩, by decide, by decide⟩
  have hl : (dec v).getLast? = some (digitChar (v % 10)) := by
    unfold dec decFuel
    split
    · rename_i h
      rw [Nat.mod_eq_of_lt h]
      rfl
    · exact List.getLast?_append_of_ne_nil _ (by simp)
  rw [← hv] at hl
  have hc : (0x2D#8 : Ch) = digitChar (v % 10) := by simpa using hl
  have hn : ∀ d, d < 10 → (0x2D#8 : Ch) ≠ digitChar d := by decide
  exact hn _ (Nat.mod_lt _ (by decide)) hc

/-- PLEN = 1: characters 0, 9, 10 and 11 of the frame, payload index 0, the last symbol. -/
theorem witness_FrameCharacterByCharacter :
    11 < frameChars 1 ∧ 8 < 9 ∧ (9 ≤ 9 ∧ 9 < 9 + digits 1) ∧ 0 < 1 ∧ 47 < reqPixels 1 := by decide

/-- Both sides of the capacity test. -/
theorem witness_EncodeIsItsFunction :
    (blank.Ready ∧ reqPixels blank.plen ≤ blank.npix ∧ 43 < blank.npix ∧ blank.validPair 11 0 = false) ∧
    (small.Ready ∧ small.npix < reqPixels small.plen) :=
  ⟨⟨blank_ready, by decide, by decide, by decide⟩, small_ready, by decide⟩

theorem witness_DetectIsItsFunction : spelled.Ready := spelled_ready

theorem witness_GetlenIsItsFunction : spelled.Ready := spelled_ready

/-- With and without the marker. -/
theorem witness_DecodeIsItsFunction :
    (spelled.Ready ∧ spelled.isEncoded = true ∧ spelled.lengthField = .ok 1) ∧
    (blank.Ready ∧ blank.isEncoded = false) ∧
    (emptyField.Ready ∧ emptyField.isEncoded = true ∧ emptyField.lengthField = .error .empty) :=
  ⟨⟨spelled_ready, by decide +kernel, by decide +kernel⟩, ⟨blank_ready, by decide +kernel⟩,
    emptyField_ready, by decide +kernel, by decide +kernel⟩

theorem witness_ResultTable :
    spelled.Ready ∧ (∃ t, exec .encode spelled = .next t) ∧ (∃ t, exec .detect spelled = .next t) ∧
    (∃ t, exec .getlen spelled = .next t) ∧ (∃ t, exec .decode spelled = .next t) := by
  refine ⟨spelled_ready, ?_, ?_, ?_, ?_⟩
  all_goals
    exact (of_nextWith (p := fun _ => true) (by decide +kernel)).elim fun t h => ⟨t, h.1⟩

/-- NPIX = REQ, and NPIX = REQ - 1. -/
theorem witness_CapacityBoundary :
    (blank.Ready ∧ (∃ t, exec .encode blank = .next t) ∧ blank.npix = 4 * (9 + digits blank.plen + 1 + blank.plen)) ∧
    (small.Ready ∧ (∃ t, exec .encode small = .next t) ∧
      small.npix + 1 = 4 * (9 + digits small.plen + 1 + small.plen)) := by
  refine ⟨⟨blank_ready, ?_, by decide⟩, small_ready, ?_, by decide⟩
  all_goals
    exact (of_nextWith (p := fun _ => true) (by decide +kernel)).elim fun t h => ⟨t, h.1⟩

theorem witness_ResultsArePrecise : ∃ t, small.Ready ∧ exec .encode small = .next t ∧ t.result ≠ .ok := by
  obtain ⟨t, ht, hp⟩ := of_nextWith (p := fun t => decide (t.result ≠ .ok)) (o := exec .encode small) (by decide +kernel)
  exact ⟨t, small_ready, ht, of_decide_eq_true hp⟩

/-- A state of a running ENCODE that meets the invariant. -/
theorem started_inv : (blank.start 0#2).Inv :=
  ⟨⟨by decide, by decide, by decide, by decide, by decide, by decide, by decide⟩, blank_ready.1.2.1,
    blank_ready.1.2.2.1, ⟨by decide, by decide⟩, rfl, rfl, rfl, rfl, rfl⟩

theorem witness_UpperPixelBitsNeverChange :
    (∃ t, blank.Ready ∧ exec .encode blank = .next t) ∧
    (∃ t, (blank.start 0#2).Inv ∧ blockStep (blank.start 0#2) = .ok t) := by
  refine ⟨?_, _, started_inv, rfl⟩
  obtain ⟨t, ht, _⟩ := of_nextWith (p := fun _ => true) (o := exec .encode blank) (by decide +kernel)
  exact ⟨t, blank_ready, ht⟩

/-- The same operation run twice. -/
def twice (i : Instr) (s : State) : Host.Outcome State Fault Refusal :=
  match exec i s with
  | .next t => exec i t
  | .fault f => .fault f
  | .refused r => .refused r

theorem of_twice {i : Instr} {s : State} (h : nextWith (fun _ => true) (twice i s) = true) :
    ∃ t u, exec i s = .next t ∧ exec i t = .next u := by
  unfold twice at h
  cases ht : exec i s with
  | next t =>
    rw [ht] at h
    obtain ⟨u, hu, _⟩ := of_nextWith h
    exact ⟨t, u, rfl, hu⟩
  | fault f => rw [ht] at h; cases h
  | refused r => rw [ht] at h; cases h

theorem witness_RerunningChangesNothing :
    (spelled.Ready ∧ (Instr.detect = .detect ∨ Instr.detect = .getlen) ∧
      ∃ t u, exec .detect spelled = .next t ∧ exec .detect t = .next u) ∧
    (∃ t, spelled.Ready ∧ exec .decode spelled = .next t) ∧
    (blank.Ready ∧ ∃ t u, exec .encode blank = .next t ∧ exec .encode t = .next u) := by
  refine ⟨⟨spelled_ready, .inl rfl, of_twice (by decide +kernel)⟩, ?_, blank_ready, of_twice (by decide +kernel)⟩
  obtain ⟨t, ht, _⟩ := of_nextWith (p := fun _ => true) (o := exec .decode spelled) (by decide +kernel)
  exact ⟨t, spelled_ready, ht⟩

/-- `spelled` with other upper bits and another PAY. -/
def spelled' : State := grid 12 4 9 0x12345678#32 (mark ++ [0x31#8, 0x21#8, 0x41#8]) [0x11#8]

theorem spelled'_ready : spelled'.Ready :=
  grid_ready (by decide) (by decide) (by decide) (by decide +kernel) (by unfold State.placesExist; decide +kernel)

theorem witness_ReadersDependOnLowBitsOnly :
    ∃ t t', spelled.Ready ∧ spelled'.Ready ∧ Instr.decode ≠ .encode ∧ spelled'.cfg = spelled.cfg ∧
      spelled'.gw = spelled.gw ∧ spelled'.gh = spelled.gh ∧
      (∀ n, n < spelled.npix → extract (spelled'.pixel n) = extract (spelled.pixel n)) ∧
      exec .decode spelled = .next t ∧ exec .decode spelled' = .next t' ∧ t.result = .ok ∧ 0 < t.len := by
  obtain ⟨t, ht, hp⟩ := of_nextWith (p := fun t => decide (t.result = .ok) && decide (0 < t.len))
    (o := exec .decode spelled) (by decide +kernel)
  obtain ⟨t', ht', _⟩ := of_nextWith (p := fun _ => true) (o := exec .decode spelled') (by decide +kernel)
  simp only [Bool.and_eq_true, decide_eq_true_eq] at hp
  exact ⟨t, t', spelled_ready, spelled'_ready, by decide, rfl, rfl, rfl, by decide +kernel, ht, ht', hp⟩

/-- `!encoded!0!` on 12 x 4: four pixels past HDR = 44. -/
def zeroLength : State := grid 12 4 0 0#32 (mark ++ [0x30#8, 0x21#8]) []

theorem zeroLength_ready : zeroLength.Ready :=
  grid_ready (by decide) (by decide) (by decide) (by decide +kernel) (by unfold State.placesExist; decide +kernel)

theorem setPix_ready {s : State} (h : s.Ready) {x y : Nat} (hi : s.pairInSpace x y = true) (v : Pixel) :
    (s.setPix x y v).Ready :=
  ⟨setPixAt_inv h.1 hi v, h.2⟩

/-- The same operation on two states, the first outcome with property `p`. -/
theorem of_two {i : Instr} {s s' : State} {p : State → Bool} (h : nextWith p (exec i s) = true)
    (h' : nextWith (fun _ => true) (exec i s') = true) :
    ∃ t t', exec i s = .next t ∧ exec i s' = .next t' ∧ p t = true := by
  obtain ⟨t, ht, hp⟩ := of_nextWith h
  obtain ⟨t', ht', _⟩ := of_nextWith h'
  exact ⟨t, t', ht, ht', hp⟩

/-- ENCODE: two grids of different upper bits outside REQ, and different PAY past PLEN. -/
theorem witness_OutcomeDependsOnItsFootprint_encode :
    ∃ t t', zeroLength.Ready ∧ (zeroLength.setPix 11 3 7#32).Ready ∧ exec .encode zeroLength = .next t ∧
      exec .encode (zeroLength.setPix 11 3 7#32) = .next t' ∧ t.result = .ok ∧
      (∀ n, n < reqPixels zeroLength.plen → (zeroLength.setPix 11 3 7#32).pixel n = zeroLength.pixel n) ∧
      ∀ i, i < zeroLength.plen → (zeroLength.setPix 11 3 7#32).payAt i = zeroLength.payAt i := by
  obtain ⟨t, t', ht, ht', hp⟩ := of_two (i := .encode) (s := zeroLength) (s' := zeroLength.setPix 11 3 7#32)
    (p := fun t => decide (t.result = .ok)) (by decide +kernel) (by decide +kernel)
  exact ⟨t, t', zeroLength_ready, setPix_ready zeroLength_ready (by decide +kernel) _, ht, ht', of_decide_eq_true hp,
    by decide +kernel, fun i hi => absurd hi (Nat.not_lt_zero i)⟩

/-- DETECT: a grid that differs at pixel 40, past 35. GETLEN: one that differs at pixel 47, past the terminator (the scan
ends at 44), and one that differs at pixel 0. -/
theorem witness_OutcomeDependsOnItsFootprint_scan :
    (∃ t t', spelled.Ready ∧ (spelled.setPix 10 0 7#32).Ready ∧
      (∀ n, n < 36 → (spelled.setPix 10 0 7#32).pixel n = spelled.pixel n) ∧
      exec .detect spelled = .next t ∧ exec .detect (spelled.setPix 10 0 7#32) = .next t') ∧
    (∃ t t', spelled.scanEnd = 44 ∧ (spelled.setPix 11 3 7#32).Ready ∧
      (∀ n, n < 44 → (spelled.setPix 11 3 7#32).pixel n = spelled.pixel n) ∧
      exec .getlen spelled = .next t ∧ exec .getlen (spelled.setPix 11 3 7#32) = .next t') ∧
    (∃ t t', (spelled.setPix 0 0 7#32).Ready ∧
      (∀ n, n < 44 → 36 ≤ n → (spelled.setPix 0 0 7#32).pixel n = spelled.pixel n) ∧
      exec .getlen spelled = .next t ∧ exec .getlen (spelled.setPix 0 0 7#32) = .next t') := by
  refine ⟨?_, ?_, ?_⟩
  · obtain ⟨t, t', ht, ht', _⟩ := of_two (i := .detect) (s := spelled) (s' := spelled.setPix 10 0 7#32)
      (p := fun _ => true) (by decide +kernel) (by decide +kernel)
    exact ⟨t, t', spelled_ready, setPix_ready spelled_ready (by decide +kernel) _, by decide +kernel, ht, ht'⟩
  · obtain ⟨t, t', ht, ht', _⟩ := of_two (i := .getlen) (s := spelled) (s' := spelled.setPix 11 3 7#32)
      (p := fun _ => true) (by decide +kernel) (by decide +kernel)
    exact ⟨t, t', by decide +kernel, setPix_ready spelled_ready (by decide +kernel) _, by decide +kernel, ht, ht'⟩
  · obtain ⟨t, t', ht, ht', _⟩ := of_two (i := .getlen) (s := spelled) (s' := spelled.setPix 0 0 7#32)
      (p := fun _ => true) (by decide +kernel) (by decide +kernel)
    exact ⟨t, t', setPix_ready spelled_ready (by decide +kernel) _, by decide +kernel, ht, ht'⟩

/-- DECODE that ends NOT_ENCODED, with a grid that differs at pixel 40; PARSE_ERROR (EMPTY), on a grid all of which the scan
reads; and OK, with a grid that differs at pixel 47, past HDR + 4 L - 1 = 43. -/
theorem witness_OutcomeDependsOnItsFootprint_decode :
    (∃ t t', blank.Ready ∧ (blank.setPix 10 0 7#32).Ready ∧ exec .decode blank = .next t ∧
      exec .decode (blank.setPix 10 0 7#32) = .next t' ∧ t.result = .notEncoded ∧
      ∀ n, n < 36 → (blank.setPix 10 0 7#32).pixel n = blank.pixel n) ∧
    (∃ t t', emptyField.Ready ∧ exec .decode emptyField = .next t ∧
      exec .decode (emptyField.setPix 43 0 7#32) = .next t' ∧ t.result = .parseError ∧ emptyField.scanEnd = 40 ∧
      ∀ n, n < 40 → (emptyField.setPix 43 0 7#32).pixel n = emptyField.pixel n) ∧
    (∃ t t', zeroLength.Ready ∧ (zeroLength.setPix 11 3 7#32).Ready ∧ exec .decode zeroLength = .next t ∧
      exec .decode (zeroLength.setPix 11 3 7#32) = .next t' ∧ t.result = .ok ∧
      ∀ n, n < hdrPixels t.len + 4 * t.len → (zeroLength.setPix 11 3 7#32).pixel n = zeroLength.pixel n) := by
  refine ⟨?_, ?_, ?_⟩
  · obtain ⟨t, t', ht, ht', hp⟩ := of_two (i := .decode) (s := blank) (s' := blank.setPix 10 0 7#32)
      (p := fun t => decide (t.result = .notEncoded)) (by decide +kernel) (by decide +kernel)
    exact ⟨t, t', blank_ready, setPix_ready blank_ready (by decide +kernel) _, ht, ht', of_decide_eq_true hp,
      by decide +kernel⟩
  · obtain ⟨t, t', ht, ht', hp⟩ := of_two (i := .decode) (s := emptyField) (s' := emptyField.setPix 43 0 7#32)
      (p := fun t => decide (t.result = .parseError)) (by decide +kernel) (by decide +kernel)
    exact ⟨t, t', emptyField_ready, ht, ht', of_decide_eq_true hp, by decide +kernel, by decide +kernel⟩
  · obtain ⟨t, t', ht, ht', hp⟩ := of_two (i := .decode) (s := zeroLength) (s' := zeroLength.setPix 11 3 7#32)
      (p := fun t => decide (t.result = .ok) && decide (t.len = 0)) (by decide +kernel) (by decide +kernel)
    simp only [Bool.and_eq_true, decide_eq_true_eq] at hp
    refine ⟨t, t', zeroLength_ready, setPix_ready zeroLength_ready (by decide +kernel) _, ht, ht', hp.1, ?_⟩
    rw [hp.2]
    have h : ∀ n, n < 44 → (zeroLength.setPix 11 3 7#32).pixel n = zeroLength.pixel n := by decide +kernel
    exact fun n hn => h n (Nat.lt_of_lt_of_eq hn (by decide))

/-- `!encoded!0!` on 11 x 4: what ENCODE leaves of `blank` (E4). -/
def zeroGrid : State := grid 11 4 0 0#32 (mark ++ [0x30#8, 0x21#8]) []

theorem zeroGrid_ready : zeroGrid.Ready :=
  grid_ready (by decide) (by decide) (by decide) (by decide +kernel) (by unfold State.placesExist; decide +kernel)

/-- A grid written out by hand that holds the pixels an ENCODE left. -/
theorem witness_LengthFidelity :
    ∃ (t s' : State), blank.Ready ∧ exec .encode blank = .next t ∧ t.result = .ok ∧ s'.Ready ∧ s'.cfg = blank.cfg ∧
      s'.gw = blank.gw ∧ s'.gh = blank.gh ∧ ∀ n, n < reqPixels blank.plen → s'.pixel n = t.pixel n := by
  have hk : nextWith (fun t => decide (t.result = .ok) && (List.range 44).all
      (fun n => zeroGrid.pixel n == t.pixel n)) (exec .encode blank) = true := by decide +kernel
  obtain ⟨t, ht, hp⟩ := of_nextWith hk
  simp only [Bool.and_eq_true, decide_eq_true_eq, List.all_eq_true, List.mem_range, beq_iff_eq] at hp
  exact ⟨t, zeroGrid, blank_ready, ht, hp.1, zeroGrid_ready, rfl, rfl, rfl, fun n hn => hp.2 n hn⟩

theorem witness_GridSpellsTheFrame :
    ∃ (t s' : State), blank.Ready ∧ exec .encode blank = .next t ∧ t.result = .ok ∧ s'.gh = blank.gh ∧
      ∀ n, n < reqPixels blank.plen → s'.pixel n = t.pixel n := by
  obtain ⟨t, s', h1, h2, h3, _, _, _, h4, h5⟩ := witness_LengthFidelity
  exact ⟨t, s', h1, h2, h3, h4, h5⟩

theorem witness_DecodeAfterEncodeGivesTheText :
    ∃ (t s' : State), blank.Ready ∧ exec .encode blank = .next t ∧ t.result = .ok ∧ s'.Ready ∧ s'.cfg = blank.cfg ∧
      s'.gw = blank.gw ∧ s'.gh = blank.gh ∧ ∀ n, n < reqPixels blank.plen → s'.pixel n = t.pixel n :=
  witness_LengthFidelity

theorem witness_OneFlippedPayloadPixel :
    ∃ t, spelled.Ready ∧ exec .decode spelled = .next t ∧ t.result = .ok ∧ 0 < t.len ∧ 3 < 4 := by
  obtain ⟨t, ht, hp⟩ := of_nextWith (p := fun t => decide (t.result = .ok) && decide (0 < t.len))
    (o := exec .decode spelled) (by decide +kernel)
  simp only [Bool.and_eq_true, decide_eq_true_eq] at hp
  exact ⟨t, spelled_ready, ht, hp.1, hp.2, by decide⟩

/-- A cipher that does nothing, and one that always fails. -/
def plainCipher : Cipher (List Ch) Unit Unit := { encrypt := fun m _ _ => some m, decrypt := fun t _ _ => some t }

def failingCipher : Cipher (List Ch) Unit Unit := { encrypt := fun _ _ _ => none, decrypt := fun _ _ _ => none }

theorem plainCipher_inverse : plainCipher.Inverse := fun m _ _ text h => by
  cases h
  rfl

/-- A caller's grid of zeros, and the grid that is already behind the port of `s`. -/
def zeros (w h : Nat) : PixelGrid := { width := w, height := h, getPixel := fun _ _ => 0#32 }

def gridOf (s : State) : PixelGrid := { width := s.gw, height := s.gh, getPixel := s.pixAt }

theorem gridOf_held (s : State) : s.Holds (gridOf s) := ⟨rfl, rfl, fun _ _ _ _ => rfl⟩

/-- A failed encrypt; a text of one character on 11 x 4 pixels, which are too few, and on the 12 x 4 it needs. -/
theorem witness_EncodeSequenceReports :
    failingCipher.encrypt [] () () = none ∧ plainCipher.encrypt [0x41#8] () () = some [0x41#8] ∧ spelled.Ready ∧
    [0x41#8].length ≤ spelled.lmax ∧
    ((zeros 11 4).Fits spelled ∧ (zeros 11 4).width * (zeros 11 4).height < reqPixels [0x41#8].length) ∧
    ((zeros 12 4).Fits spelled ∧ reqPixels [0x41#8].length ≤ (zeros 12 4).width * (zeros 12 4).height) :=
  ⟨rfl, rfl, spelled_ready, by decide +kernel, ⟨⟨by decide, by decide⟩, by decide⟩, ⟨by decide, by decide⟩, by decide⟩

/-- `!encoded!1!` on 11 x 4: one payload character short. -/
def overrun : State := grid 11 4 0 0#32 (mark ++ [0x31#8, 0x21#8]) []

/-- Each clause with a grid that a state holds: no marker, EMPTY, OVERRUN, and a text of one character. -/
theorem witness_DecodeSequenceReports :
    spelled.Ready ∧
    ((gridOf blank).Fits spelled ∧ blank.Holds (gridOf blank) ∧ blank.cfg = spelled.cfg ∧ blank.isEncoded = false) ∧
    ((gridOf emptyField).Fits spelled ∧ emptyField.Holds (gridOf emptyField) ∧ emptyField.cfg = spelled.cfg ∧
      emptyField.isEncoded = true ∧ emptyField.lengthField = .error .empty) ∧
    ((gridOf overrun).Fits spelled ∧ overrun.Holds (gridOf overrun) ∧ overrun.cfg = spelled.cfg ∧
      overrun.isEncoded = true ∧ overrun.lengthField = .ok 1 ∧ overrun.npix < hdrPixels 1 + 4 * 1) ∧
    ((gridOf spelled').Fits spelled ∧ spelled'.Holds (gridOf spelled') ∧ spelled'.cfg = spelled.cfg ∧
      spelled'.isEncoded = true ∧ spelled'.lengthField = .ok 1 ∧ hdrPixels 1 + 4 * 1 ≤ spelled'.npix) :=
  ⟨spelled_ready,
    ⟨⟨by decide, by decide⟩, gridOf_held _, rfl, by decide +kernel⟩,
    ⟨⟨by decide, by decide⟩, gridOf_held _, rfl, by decide +kernel, by decide +kernel⟩,
    ⟨⟨by decide, by decide⟩, gridOf_held _, rfl, by decide +kernel, by decide +kernel, by decide⟩,
    ⟨by decide, by decide⟩, gridOf_held _, rfl, by decide +kernel, by decide +kernel, by decide⟩

/-- The smallest block, DW = LW = 1, right after reset. -/
def tiny : State := State.resetWith { dw := 1, lw := 1 }

theorem tiny_ready : tiny.Ready :=
  ⟨⟨⟨by decide, by decide, by decide, by decide, by decide, by decide, by decide⟩, by decide,
    ⟨fun e h => (nomatch h), fun e h => (nomatch h)⟩,
    ⟨⟨fun h => (nomatch h), fun h => absurd rfl h⟩, fun h => (nomatch h)⟩, rfl⟩, rfl⟩

/-- R178 step 5 and R179 step 3 on one pixel: too few for any text, and no marker. -/
theorem test_host_reports :
    (match hostEncode plainCipher (zeros 1 1) [] () () tiny with
      | .error e => decide (e = .insufficientCapacityError)
      | .ok _ => false) = true ∧
    hostDecode plainCipher (zeros 1 1) () () tiny = .error .notEncodedResult := by decide +kernel

/-- R179 step 3: "report ParseError (with CAUSE)". -/
theorem test_report_has_cause :
    resultReport .parseError .overrun = some (.parseError .overrun) ∧ resultReport .ok .noCause = none := by decide

/-- LMAX + 1 characters; a width and a height of 2^DW; a running block. -/
theorem witness_SequencesThatStop :
    (tiny.Ready ∧ (zeros 1 1).Fits tiny ∧ tiny.lmax < [0x41#8, 0x42#8].length) ∧
    2 ^ tiny.cfg.dw ≤ (zeros 2 1).width ∧
    ((zeros 1 2).width < 2 ^ tiny.cfg.dw ∧ 2 ^ tiny.cfg.dw ≤ (zeros 1 2).height) ∧
    ((zeros 1 1).Fits (tiny.start 1#2) ∧ (tiny.start 1#2).busy = true ∧ 0 < (zeros 1 1).width * (zeros 1 1).height) :=
  ⟨⟨tiny_ready, ⟨by decide, by decide⟩, by decide⟩, by decide, ⟨by decide, by decide⟩, ⟨by decide, by decide⟩, rfl,
    by decide⟩

theorem witness_WholeSystemRoundTrip :
    plainCipher.Inverse ∧ plainCipher.encrypt [0x41#8] () () = some [0x41#8] ∧ spelled.Ready ∧ small.Ready ∧
    (zeros 12 4).Fits spelled ∧ (zeros 12 4).Fits small ∧ [0x41#8].length ≤ spelled.lmax ∧
    [0x41#8].length ≤ small.lmax ∧ reqPixels [0x41#8].length ≤ (zeros 12 4).width * (zeros 12 4).height :=
  ⟨plainCipher_inverse, rfl, spelled_ready, small_ready, ⟨by decide, by decide⟩, ⟨by decide, by decide⟩,
    by decide +kernel, by decide +kernel, by decide⟩

/-- A running DECODE of `!encoded!0!` at the pixel that ends the terminator: D_LEN with N = 43. -/
def atTerminator : State :=
  { zeroLength.start 3#2 with
    phase := .dLen, enc := true, n := 43, acc := shiftIn (shiftIn (shiftIn 0#8 0) 2) 0, dcnt := 1, lacc := 0, lz := true }

/-- The same operation one step later: D_BOUND. -/
def atBound : State := lenTerminator { atTerminator with n := 44, acc := 0x21#8 }

theorem atTerminator_inv : atTerminator.Inv := by
  refine ⟨⟨by decide, by decide, by decide, by decide, by decide, by decide, by decide⟩, zeroLength_ready.1.2.1,
    zeroLength_ready.1.2.2.1, ⟨by decide, by decide⟩, ?_⟩
  exact ⟨rfl, .inr ⟨rfl, rfl, by decide⟩, by decide, by decide, .inr (by decide), ⟨by decide, by decide, by decide⟩, rfl⟩

theorem atBound_inv : atBound.Inv := by
  refine ⟨⟨by decide, by decide, by decide, by decide, by decide, by decide, by decide⟩, zeroLength_ready.1.2.1,
    zeroLength_ready.1.2.2.1, ⟨by decide, by decide⟩, ?_⟩
  exact ⟨rfl, rfl, rfl, by decide, by decide⟩

/-- The block step answers a next state with property `p`. -/
def stepsTo (p : State → Bool) (s : State) : Bool :=
  match blockStep s with
  | .ok t => p t
  | .error _ => false

theorem of_stepsTo {p : State → Bool} {s : State} (h : stepsTo p s = true) : ∃ t, blockStep s = .ok t ∧ p t = true := by
  unfold stepsTo at h
  cases hb : blockStep s with
  | error f => rw [hb] at h; cases h
  | ok t => rw [hb] at h; exact ⟨t, rfl, h⟩

theorem start_inv {s : State} (h : s.Inv) (c : CmdWord) : (s.start c).Inv := ((Inv_iff s).1 h).1.start c

/-- The ENCODE of `blank` in E_WRITE, and the DECODE of `zeroLength` in D_XTR. -/
def atWrite : State := encodeCheck (blank.start 0#2)

def atExtract : State := boundStep atBound

theorem atWrite_inv : atWrite.Inv := by
  refine ⟨⟨by decide, by decide, by decide, by decide, by decide, by decide, by decide⟩, blank_ready.1.2.1,
    blank_ready.1.2.2.1, ⟨by decide, by decide⟩, ?_⟩
  exact ⟨rfl, rfl, by decide, by decide, rfl, rfl⟩

/-- Out of IDLE, and a step in each PHASE: E_CHECK both ways, E_WRITE, D_MARK, D_LEN into D_BOUND, D_BOUND, D_XTR. -/
theorem witness_PhaseTransitions :
    ((spelled.setHost [.csrWrite 3 3]).host = .csrWrite 3 (3#2).toNat :: [] ∧ spelled.busy = false) ∧
    ((small.start 0#2).Inv ∧ ∃ t, blockStep (small.start 0#2) = .ok t ∧ t.phase = .idle) ∧
    ((blank.start 0#2).Inv ∧ ∃ t, blockStep (blank.start 0#2) = .ok t ∧ t.phase = .eWrite) ∧
    (atWrite.Inv ∧ atWrite.busy = true ∧ ∃ t, blockStep atWrite = .ok t ∧ t.phase = .eWrite) ∧
    ((zeroLength.start 3#2).Inv ∧ ∃ t, blockStep (zeroLength.start 3#2) = .ok t ∧ t.phase = .dMark) ∧
    (atTerminator.Inv ∧ atTerminator.busy = true ∧ ∃ t, blockStep atTerminator = .ok t ∧ t.phase = .dBound) ∧
    (atBound.Inv ∧ atBound.busy = true ∧ ∃ t, blockStep atBound = .ok t ∧ t.phase = .dXtr) ∧
    (atExtract.Inv ∧ atExtract.busy = true ∧ ∃ t, blockStep atExtract = .ok t ∧ t.phase = .idle) := by
  have phase {s : State} (ph : Phase) (h : stepsTo (fun t => decide (t.phase = ph)) s = true) :
      ∃ t, blockStep s = .ok t ∧ t.phase = ph :=
    (of_stepsTo h).elim fun t h => ⟨t, h.1, of_decide_eq_true h.2⟩
  refine ⟨⟨rfl, rfl⟩, ⟨start_inv small_ready.1 _, phase _ ?_⟩, ⟨started_inv, phase _ ?_⟩,
    ⟨atWrite_inv, rfl, phase _ ?_⟩, ⟨start_inv zeroLength_ready.1 _, phase _ ?_⟩,
    ⟨atTerminator_inv, rfl, phase _ ?_⟩, ⟨atBound_inv, rfl, phase _ ?_⟩,
    boundStep_inv atBound_inv rfl rfl, rfl, phase _ ?_⟩
  all_goals decide +kernel

/-- Both clauses: the step into D_BOUND, and the step from it into D_XTR. -/
theorem witness_CursorReachesTheHeaderEnd :
    (∃ t, atTerminator.Inv ∧ atTerminator.busy = true ∧ blockStep atTerminator = .ok t ∧ t.phase = .dBound) ∧
    (∃ t, atBound.Inv ∧ atBound.busy = true ∧ atBound.phase = .dBound ∧ blockStep atBound = .ok t ∧
      t.phase = .dXtr) := by
  obtain ⟨_, _, _, _, _, ⟨h1, h2, t, h3, h4⟩, ⟨k1, k2, u, k3, k4⟩, _⟩ := witness_PhaseTransitions
  exact ⟨⟨t, h1, h2, h3, h4⟩, u, k1, k2, rfl, k3, k4⟩

theorem witness_EveryStepKeepsTheInvariant :
    ∃ t, atTerminator.Inv ∧ step atTerminator = .next t := by
  obtain ⟨t, ht, _⟩ := of_nextWith (p := fun _ => true) (o := step atTerminator) (by decide +kernel)
  exact ⟨t, atTerminator_inv, ht⟩

theorem witness_NoAccessFaultInTheBlock : atTerminator.Inv ∧ atTerminator.busy = true ∧ atTerminator.host = [] :=
  ⟨atTerminator_inv, rfl, rfl⟩

theorem witness_EveryOperationEnds : spelled.Ready ∧ spelled.host = [] := ⟨spelled_ready, rfl⟩

theorem witness_CmdWriteAndStepsReachTheSameEnd : spelled.Ready ∧ spelled.host = [] := ⟨spelled_ready, rfl⟩

/-- ENCODE in E_WRITE, DECODE in D_MARK, DETECT and GETLEN in mid-operation, and the reset. -/
theorem witness_ResetInMidOperation :
    (∃ t, blank.Ready ∧ blank.host = [] ∧ Host.Core.run Sys2Proof.core 3 (blank.start 0#2) = .next t ∧ t.busy = true) ∧
    (∃ t, spelled.Ready ∧ spelled.host = [] ∧ Host.Core.run Sys2Proof.core 3 (spelled.start 3#2) = .next t ∧
      t.busy = true) ∧
    (∃ t, Host.Core.run Sys2Proof.core 3 (spelled.start 1#2) = .next t) ∧
    (∃ t, Host.Core.run Sys2Proof.core 3 (spelled.start 2#2) = .next t) ∧
    ((spelled.start 3#2).setHost [.reset]).host = .reset :: [] := by
  refine ⟨?_, ?_, ?_, ?_, rfl⟩
  · exact (of_nextWith (p := fun t => t.busy) (by decide +kernel)).elim fun t h => ⟨t, blank_ready, rfl, h.1, h.2⟩
  · exact (of_nextWith (p := fun t => t.busy) (by decide +kernel)).elim fun t h => ⟨t, spelled_ready, rfl, h.1, h.2⟩
  · exact (of_nextWith (p := fun _ => true) (by decide +kernel)).elim fun t h => ⟨t, h.1⟩
  · exact (of_nextWith (p := fun _ => true) (by decide +kernel)).elim fun t h => ⟨t, h.1⟩

theorem witness_ParametersNeverChange : ∃ t, step State.reset = .next t := ⟨_, rfl⟩

/-- Each line of a script, the widest SETDIM among them. -/
theorem witness_ScriptLinesDoWhatTheySay :
    ((spelled.setHost [.line (.setDim 65535 0)]).Ready ∧ 65535 < 2 ^ spelled.cfg.dw ∧ 0 < 2 ^ spelled.cfg.dw) ∧
    ((spelled.setHost [.line (.loadPay mark)]).Ready ∧ mark.length ≤ spelled.lmax) ∧
    (spelled.setHost [.line (.fill 7#32)]).Ready ∧
    ((spelled.setHost [.line (.setPix 47 7#32)]).Ready ∧ 47 < spelled.npix) ∧
    ((spelled.setHost [.line (.xorPix 0 7#32)]).Ready ∧ 0 < spelled.npix) :=
  ⟨⟨spelled_ready, by decide +kernel, by decide +kernel⟩, ⟨spelled_ready, by decide +kernel⟩, spelled_ready,
    ⟨spelled_ready, by decide⟩, spelled_ready, by decide⟩

end Sys2Proof.Tests
end

section
/-! PROOFS. The scope of the model (00_scope.md R12): the parameters DW and LW stand in the state, and no step changes
them. The block's own steps are covered by `Kept`; what is added here is the frame of the host's moves. -/

namespace Sys2Proof.Machine

/-! ## What a step is for a command line -/

theorem step_command_ok {s : State} {w : BitVec 8} {i : Instr} {rest : List HostMove}
    (h : s.host = .command w :: rest) (hw : decodeByte w = .ok i) : step s = exec i (s.setHost (.waitDone :: rest)) := by
  simp [step, State.fetchCommand, h, hw]

theorem step_command_error {s : State} {w : BitVec 8} {e : DecodeError} {rest : List HostMove}
    (h : s.host = .command w :: rest) (hw : decodeByte w = .error e) : step s = .refused (.badCommand e) := by
  simp [step, State.fetchCommand, h, hw]

theorem step_line_error {s : State} {l : HostLine} {f : Fault} {rest : List HostMove} (h : s.host = .line l :: rest)
    (he : (s.setHost rest).expandLine l = .error f) : step s = .fault f := by
  simp [step, State.fetchCommand, otherTurn, hostTurn, h, he]

/-! ## The parameters across an operation and across the block's turn -/

theorem issue_cfg {s t : State} {c : CmdWord} {rule : State → Except Fault State} {k : Nat}
    (hrule : ∀ u v, rule u = .ok v → Kept u v) (h : s.issue c rule k = .next t) : t.cfg = s.cfg := by
  unfold State.issue at h
  split at h
  · cases h; rfl
  · exact (runOp_kept hrule h).1

theorem exec_cfg {s t : State} {i : Instr} (h : exec i s = .next t) : t.cfg = s.cfg := by
  cases i with
  | encode => exact issue_cfg (fun _ _ => encodeStep_kept) h
  | detect => exact issue_cfg (fun _ _ => detectStep_kept) h
  | getlen => exact issue_cfg (fun _ _ => getlenStep_kept) h
  | decode => exact issue_cfg (fun _ _ => decodeStep_kept) h

theorem outcomeOf_next {x : Except Fault State} {t : State} (h : outcomeOf x = .next t) : x = .ok t := by
  cases x with
  | ok u => cases h; rfl
  | error f => cases h

theorem blockTurn_cfg {s t : State} (h : blockTurn s = .next t) : t.cfg = s.cfg := by
  unfold blockTurn at h
  split at h
  · exact (blockStep_kept (outcomeOf_next h)).1
  · cases h; rfl

/-! ## The parameters across a host move -/

theorem csrWriteIdle_cfg (s : State) (k v : Nat) : (s.csrWriteIdle k v).cfg = s.cfg := by
  unfold State.csrWriteIdle
  split <;> rfl

theorem csrWrite_cfg {s t : State} {k v : Nat} (h : s.csrWrite k v = .next t) : t.cfg = s.cfg := by
  unfold State.csrWrite at h
  split at h
  · cases h
  · split at h
    · cases h; rfl
    · cases h; exact csrWriteIdle_cfg s k v

theorem hostPixWrite_cfg {s t : State} {x y : Nat} {v : Pixel} (h : s.hostPixWrite x y v = .next t) :
    t.cfg = s.cfg := by
  unfold State.hostPixWrite at h
  split at h
  · cases h
  · split at h
    · cases h; rfl
    · cases h

theorem hostPixRead_cfg {s t : State} {x y : Nat} (h : s.hostPixRead x y = .next t) : t.cfg = s.cfg := by
  unfold State.hostPixRead at h
  split at h
  · cases h
  · split at h
    · cases h; rfl
    · cases h

theorem hostPayWrite_cfg {s t : State} {i : Nat} {c : Ch} (h : s.hostPayWrite i c = .next t) : t.cfg = s.cfg := by
  unfold State.hostPayWrite at h
  split at h
  · cases h
  · exact (writePay_kept (outcomeOf_next h)).1

theorem hostPayRead_cfg {s t : State} {i : Nat} (h : s.hostPayRead i = .next t) : t.cfg = s.cfg := by
  unfold State.hostPayRead at h
  split at h
  · cases h
  · split at h
    · cases h; rfl
    · cases h

theorem poll_cfg {s t : State} {after : List HostMove} (h : s.poll after = .next t) : t.cfg = s.cfg := by
  unfold State.poll at h
  split at h
  · cases h; rfl
  · exact blockTurn_cfg h

/-! ## The parameters across a step -/

theorem step_command_cfg {s t : State} {w : BitVec 8} {rest : List HostMove} (hm : s.host = .command w :: rest)
    (h : step s = .next t) : t.cfg = s.cfg := by
  cases hw : decodeByte w with
  | ok i => rw [step_command_ok hm hw] at h; exact (exec_cfg h).trans (s.setHost_cfg _)
  | error e => rw [step_command_error hm hw] at h; cases h

theorem step_line_cfg {s t : State} {l : HostLine} {rest : List HostMove} (hm : s.host = .line l :: rest)
    (h : step s = .next t) : t.cfg = s.cfg := by
  cases he : (s.setHost rest).expandLine l with
  | ok moves => rw [step_line hm he] at h; cases h; rfl
  | error f => rw [step_line_error hm he] at h; cases h

/-- A port move acts on the state with that move taken off the host's list, so its case is the frame of the move after the
frame of `State.setHost`. -/
theorem step_cfg {s t : State} (h : step s = .next t) : t.cfg = s.cfg := by
  cases hm : s.host with
  | nil => rw [step_no_move hm] at h; exact blockTurn_cfg h
  | cons m rest =>
    cases m with
    | command w => exact step_command_cfg hm h
    | csrWrite k v => rw [step_csrWrite hm] at h; exact (csrWrite_cfg h).trans (s.setHost_cfg rest)
    | csrRead k => rw [step_csrRead hm] at h; cases h; rfl
    | pixWrite x y v => rw [step_pixWrite hm] at h; exact (hostPixWrite_cfg h).trans (s.setHost_cfg rest)
    | pixRead x y => rw [step_pixRead hm] at h; exact (hostPixRead_cfg h).trans (s.setHost_cfg rest)
    | payWrite i c => rw [step_payWrite hm] at h; exact (hostPayWrite_cfg h).trans (s.setHost_cfg rest)
    | payRead i => rw [step_payRead hm] at h; exact (hostPayRead_cfg h).trans (s.setHost_cfg rest)
    | reset => rw [step_reset hm] at h; cases h; rfl
    | waitDone => rw [step_waitDone hm] at h; exact poll_cfg h
    | letRun => rw [step_letRun hm] at h; exact (blockTurn_cfg h).trans (s.setHost_cfg rest)
    | line l => exact step_line_cfg hm h

/-- Settles O49: each host move and each block step has the parameters in its frame. -/
theorem parametersNeverChange : Obligations.ParametersNeverChange := fun _ _ h => step_cfg h

end Sys2Proof.Machine
end

section
/-! PROOFS. The invariant across a step (10_state.md R23, R29, R32; 20_memory.md R61): the block's step keeps it,
hence an operation does, and so does each host move. -/

namespace Sys2Proof.Machine

/-! ## The operations as runs of the block's step -/

/-- From a state of the invariant with BUSY = 1 the block's step goes on, to a state of the invariant. -/
theorem blockStep_ok {s : State} (h : s.Inv) (hb : s.busy = true) : ∃ t, blockStep s = .ok t ∧ t.Inv := by
  unfold blockStep
  cases ho : decodeCmd s.op with
  | encode => exact encodeStep_ok h hb ho
  | detect => exact detectStep_ok h hb ho
  | getlen => exact getlenStep_ok h hb ho
  | decode => exact decodeStep_ok h hb ho

theorem blockStep_inv {s t : State} (h : s.Inv) (hb : s.busy = true) (ht : blockStep s = .ok t) : t.Inv := by
  obtain ⟨u, hu, hI⟩ := blockStep_ok h hb
  cases hu.symm.trans ht
  exact hI

/-- The number of steps R209 allows an operation. -/
def opBound (i : Instr) (s : State) : Nat :=
  match i with
  | .encode => encodeBound s
  | .detect => detectBound s
  | .getlen => getlenBound s
  | .decode => decodeBound s

/-- The step rule of the operation i is the block's step while OP holds i. -/
theorem runOp_eq_blockStep {rule : State → Except Fault State} {i : Instr}
    (hrule : ∀ u, decodeCmd u.op = i → rule u = blockStep u) (k : Nat) {s : State} (hop : decodeCmd s.op = i) :
    runOp rule k s = runOp blockStep k s := by
  induction k generalizing s with
  | zero => rfl
  | succ k ih =>
    cases hb : s.busy with
    | false => rw [runOp_idle _ _ hb, runOp_idle _ _ hb]
    | true =>
      cases hs : blockStep s with
      | error f => simp [runOp, hb, hrule s hop, hs]
      | ok u =>
        obtain ⟨_, _, _, _, hu, _⟩ := blockStep_kept hs
        rw [runOp_succ k hb ((hrule s hop).trans hs), runOp_succ k hb hs, ih (hu ▸ hop)]

theorem decodeCmd_encodeCmd (i : Instr) : decodeCmd (encodeCmd i) = i := by
  cases i <;> rfl

/-- A command given with BUSY = 0 starts and runs its operation (R34, R35). -/
theorem issue_idle {c : CmdWord} {rule : State → Except Fault State} {k : Nat} {s : State} (hb : s.busy = false) :
    s.issue c rule k = runOp rule k (s.start c) :=
  if_neg (by simp [hb])

theorem issue_eq_blockStep {rule : State → Except Fault State} {i : Instr} {s : State} (k : Nat) (hb : s.busy = false)
    (hrule : ∀ u, decodeCmd u.op = i → rule u = blockStep u) :
    s.issue (encodeCmd i) rule k = runOp blockStep k (s.start (encodeCmd i)) :=
  (issue_idle hb).trans (runOp_eq_blockStep hrule k (decodeCmd_encodeCmd i))

/-- With BUSY = 0 an operation is command start and then block steps (R35, R209). -/
theorem exec_idle (i : Instr) {s : State} (hb : s.busy = false) :
    exec i s = runOp blockStep (opBound i s) (s.start (encodeCmd i)) := by
  cases i with
  | encode => exact issue_eq_blockStep _ hb fun u hu => by simp [blockStep, hu]
  | detect => exact issue_eq_blockStep _ hb fun u hu => by simp [blockStep, hu]
  | getlen => exact issue_eq_blockStep _ hb fun u hu => by simp [blockStep, hu]
  | decode => exact issue_eq_blockStep _ hb fun u hu => by simp [blockStep, hu]

/-- With BUSY = 1 an instruction is ignored (R34). -/
theorem exec_busy (i : Instr) {s : State} (hb : s.busy = true) : exec i s = .next s := by
  cases i with
  | encode => exact if_pos hb
  | detect => exact if_pos hb
  | getlen => exact if_pos hb
  | decode => exact if_pos hb

/-! ## The invariant across an operation and across the block's turn -/

/-- From a state of the invariant a run of block steps goes on to a next state. -/
theorem runOp_goes_on (k : Nat) {s : State} (h : s.Inv) : ∃ t, runOp blockStep k s = .next t := by
  obtain ⟨t, ht, _⟩ := runOp_ok (fun _ _ => blockStep_kept) (fun _ hu hb _ => blockStep_ok hu hb) k s h rfl
  exact ⟨t, ht⟩

theorem runOp_inv {k : Nat} {s t : State} (h : s.Inv) (ht : runOp blockStep k s = .next t) : t.Inv :=
  runOp_keeps State.Inv (fun _ _ => blockStep_inv) h ht

theorem exec_inv {i : Instr} {s t : State} (h : s.Inv) (ht : exec i s = .next t) : t.Inv := by
  cases hb : s.busy with
  | false => rw [exec_idle i hb] at ht; exact runOp_inv (Base.start ((Inv_iff s).1 h).1 _) ht
  | true => rw [exec_busy i hb] at ht; cases ht; exact h

theorem exec_goes_on (i : Instr) {s : State} (h : s.Inv) : ∃ t, exec i s = .next t := by
  cases hb : s.busy with
  | false => rw [exec_idle i hb]; exact runOp_goes_on _ (Base.start ((Inv_iff s).1 h).1 _)
  | true => exact ⟨s, exec_busy i hb⟩

theorem blockTurn_inv {s t : State} (h : s.Inv) (ht : blockTurn s = .next t) : t.Inv := by
  unfold blockTurn at ht
  split at ht
  · exact blockStep_inv h ‹_› (outcomeOf_next ht)
  · cases ht; exact h

/-! ## The invariant across a host move -/

/-- The host's own fields are no part of the invariant. -/
theorem setHost_inv {s : State} (h : s.Inv) (moves : List HostMove) : (s.setHost moves).Inv := h

theorem setReply_inv {s : State} (h : s.Inv) (r : Reply) : (s.setReply r).Inv := h

theorem hostPixWrite_inv {s t : State} {x y : Nat} {v : Pixel} (h : s.Inv) (ht : s.hostPixWrite x y v = .next t) :
    t.Inv := by
  unfold State.hostPixWrite at ht
  split at ht
  · cases ht
  · split at ht
    · cases ht; exact setPixAt_inv h ‹_› v
    · cases ht

theorem hostPixRead_inv {s t : State} {x y : Nat} (h : s.Inv) (ht : s.hostPixRead x y = .next t) : t.Inv := by
  unfold State.hostPixRead at ht
  split at ht
  · cases ht
  · split at ht
    · cases ht; exact setReply_inv h _
    · cases ht

theorem writePay_inv {s t : State} {i : Nat} {c : Ch} (h : s.Inv) (ht : s.writePay i c = .ok t) : t.Inv := by
  unfold State.writePay at ht
  split at ht
  · cases ht; exact setPayAt_inv h ‹_› c
  · cases ht

theorem hostPayWrite_inv {s t : State} {i : Nat} {c : Ch} (h : s.Inv) (ht : s.hostPayWrite i c = .next t) :
    t.Inv := by
  unfold State.hostPayWrite at ht
  split at ht
  · cases ht
  · exact writePay_inv h (outcomeOf_next ht)

theorem hostPayRead_inv {s t : State} {i : Nat} (h : s.Inv) (ht : s.hostPayRead i = .next t) : t.Inv := by
  unfold State.hostPayRead at ht
  split at ht
  · cases ht
  · split at ht
    · cases ht; exact setReply_inv h _
    · cases ht

theorem poll_inv {s t : State} {after : List HostMove} (h : s.Inv) (ht : s.poll after = .next t) : t.Inv := by
  unfold State.poll at ht
  split at ht
  · cases ht; exact setReply_inv (setHost_inv h after) _
  · exact blockTurn_inv h ht

/-! ## The invariant across a step -/

theorem step_command_inv {s t : State} {w : BitVec 8} {rest : List HostMove} (h : s.Inv)
    (hm : s.host = .command w :: rest) (ht : step s = .next t) : t.Inv := by
  cases hw : decodeByte w with
  | ok i => rw [step_command_ok hm hw] at ht; exact exec_inv (setHost_inv h _) ht
  | error e => rw [step_command_error hm hw] at ht; cases ht

theorem step_line_inv {s t : State} {l : HostLine} {rest : List HostMove} (h : s.Inv) (hm : s.host = .line l :: rest)
    (ht : step s = .next t) : t.Inv := by
  cases he : (s.setHost rest).expandLine l with
  | ok moves => rw [step_line hm he] at ht; cases ht; exact setHost_inv (setHost_inv h rest) _
  | error f => rw [step_line_error hm he] at ht; cases ht

theorem step_inv {s t : State} (h : s.Inv) (ht : step s = .next t) : t.Inv := by
  cases hm : s.host with
  | nil => rw [step_no_move hm] at ht; exact blockTurn_inv h ht
  | cons m rest =>
    have hr := setHost_inv h rest
    cases m with
    | command w => exact step_command_inv h hm ht
    | csrWrite k v => rw [step_csrWrite hm] at ht; exact csrWrite_inv hr ht
    | csrRead k => rw [step_csrRead hm] at ht; cases ht; exact setReply_inv hr _
    | pixWrite x y v => rw [step_pixWrite hm] at ht; exact hostPixWrite_inv hr ht
    | pixRead x y => rw [step_pixRead hm] at ht; exact hostPixRead_inv hr ht
    | payWrite i c => rw [step_payWrite hm] at ht; exact hostPayWrite_inv hr ht
    | payRead i => rw [step_payRead hm] at ht; exact hostPayRead_inv hr ht
    | reset => rw [step_reset hm] at ht; cases ht; exact reset_inv hr
    | waitDone => rw [step_waitDone hm] at ht; exact poll_inv h ht
    | letRun => rw [step_letRun hm] at ht; exact blockTurn_inv hr ht
    | line l => exact step_line_inv h hm ht

/-- Settles O44: each block step and each host move keeps the invariant, and an operation is a run of block steps. -/
theorem everyStepKeepsTheInvariant : Obligations.EveryStepKeepsTheInvariant := fun _ _ => step_inv

end Sys2Proof.Machine
end

section
/-! PROOFS. The registers and the port that reads and writes them: reset, command start, the register map, STATUS, whose
turn a step is, and the cursor as a coordinate pair (10_state.md R20 to R41). -/

namespace Sys2Proof.Machine

/-! ## Reset -/

/-- The state after reset accepts a command, for every DW and LW of at least 1 (R12, R41). -/
theorem resetWith_ready {c : Config} (hc : c.wellFormed = true) : (State.resetWith c).Ready := by
  simp only [Config.wellFormed, Bool.and_eq_true, decide_eq_true_eq] at hc
  obtain ⟨hdw, hlw⟩ := hc
  have hp (k : Nat) : 0 < 2 ^ k := Nat.two_pow_pos k
  have hfit : (State.resetWith c).registersFit := ⟨hdw, hlw, hp _, hp _, hp _, hp _, hp _⟩
  have hplaces : (State.resetWith c).placesExist := by simp [State.placesExist, State.resetWith]
  have hstatus : (State.resetWith c).statusCoherent := by simp [State.statusCoherent, State.resetWith]
  exact ⟨⟨hfit, State.resetWith_memoriesWf c, hplaces, hstatus, rfl⟩, rfl⟩

/-- Settles O2: the invariant holds field by field, each register being 0 and each memory empty. -/
theorem resetStateMeetsTheInvariant : Obligations.ResetStateMeetsTheInvariant :=
  ⟨fun _ => resetWith_ready, resetWith_ready (by decide)⟩

/-! ## Command start -/

/-- N at command start: "and also N <- 36" for GETLEN, whose code is 2 (R35, R90). -/
theorem firstCursor_eq (c : CmdWord) : firstCursor c = if c = 2#2 then 36 else 0 := by
  revert c; decide

theorem firstPhase_eq (c : CmdWord) :
    firstPhase c = if c = 0#2 then .eCheck else if c = 2#2 then .dLen else .dMark := by
  revert c; decide

/-- A command word fits CMD, whatever the parameters (R23). -/
theorem cmdWord_fits (s : State) (c : CmdWord) : 3 < 6 → c.toNat < 2 ^ s.csrWidth 3 := fun _ => c.isLt

/-- A CMD write with BUSY = 0 is the command start (R34). -/
theorem step_cmdWrite_idle {s : State} {c : CmdWord} {rest : List HostMove} (hm : s.host = .csrWrite 3 c.toNat :: rest)
    (hb : s.busy = false) : step s = .next ((s.setHost rest).start c) := by
  rw [step_csrWrite hm, State.csrWrite_idle (s := s.setHost rest) hb (cmdWord_fits _ c)]
  simp [State.csrWriteIdle]

/-- A CMD write with BUSY = 1 is ignored (R34). -/
theorem step_cmdWrite_busy {s : State} {c : CmdWord} {rest : List HostMove} (hm : s.host = .csrWrite 3 c.toNat :: rest)
    (hb : s.busy = true) : step s = .next (s.setHost rest) := by
  rw [step_csrWrite hm, State.csrWrite_busy (s := s.setHost rest) hb (cmdWord_fits _ c)]

/-- Settles O3: with BUSY = 0 the step is `State.start`, field by field; with BUSY = 1 it only takes the move. -/
theorem commandIssueStartsOrIsIgnored : Obligations.CommandIssueStartsOrIsIgnored :=
  ⟨fun _ c _ hm hb => ⟨_, step_cmdWrite_idle hm hb, by simp [firstCursor_eq c, firstPhase_eq c]⟩,
    fun _ _ _ => step_cmdWrite_busy, fun i _ => exec_busy i⟩

/-! ## The register map -/

/-- What a read of register k returns (R23, R36). -/
theorem State.csrRead_eq (s : State) (k : Nat) :
    s.csrRead k =
      if k = 0 then s.gw else if k = 1 then s.gh else if k = 2 then s.plen
      else if k = 4 then (if s.busy then 1 else s.statusWord.toNat)
      else if k = 5 then (if s.busy then 0 else s.len) else 0 := by
  match k with
  | 0 | 1 | 2 | 3 | 5 => rfl
  | 4 => cases hb : s.busy <;> simp [State.csrRead, State.statusRead, hb]
  | k + 6 => simp [State.csrRead]

/-- A write that is not the command start sets GW, GH or PLEN, or nothing (R23, R36). -/
theorem State.csrWriteIdle_eq (s : State) {k : Nat} (hk : k ≠ 3) (v : Nat) :
    s.csrWriteIdle k v =
      if k = 0 then { s with gw := v } else if k = 1 then { s with gh := v }
      else if k = 2 then { s with plen := v } else s := by
  match k, hk with
  | 0, _ | 1, _ | 2, _ => rfl
  | k + 4, _ => simp [State.csrWriteIdle]

/-- Settles O4: the two ports by register number, the write by BUSY. -/
theorem registerPortFollowsTheMap : Obligations.RegisterPortFollowsTheMap := by
  refine ⟨fun s k rest hm => ?_, fun s k v rest hm hk hv => ?_⟩
  · rw [step_csrRead hm, State.csrRead_eq]
    rfl
  · rw [step_csrWrite hm]
    cases hb : s.busy with
    | true => rw [State.csrWrite_busy (s := s.setHost rest) hb hv, if_pos rfl]
    | false =>
      rw [State.csrWrite_idle (s := s.setHost rest) hb hv, State.csrWriteIdle_eq _ hk, if_neg Bool.false_ne_true]

/-! ## STATUS -/

theorem statusWord_flags (s : State) :
    s.statusWord.getLsbD 0 = s.busy ∧ s.statusWord.getLsbD 1 = s.done ∧ s.statusWord.getLsbD 2 = s.enc := by
  unfold State.statusWord bit
  refine ⟨?_, ?_, ?_⟩
  · rw [BitVec.getLsbD_append]; simp
  · rw [BitVec.getLsbD_append, BitVec.getLsbD_append]; simp
  · rw [BitVec.getLsbD_append, BitVec.getLsbD_append, BitVec.getLsbD_append]; simp

theorem statusWord_result (s : State) : s.statusWord.extractLsb' 3 3 = s.result.code := by
  unfold State.statusWord
  rw [BitVec.extractLsb'_append_eq_of_le (by decide), BitVec.extractLsb'_append_eq_of_le (by decide),
    BitVec.extractLsb'_append_eq_of_le (by decide)]
  exact BitVec.extractLsb'_append_eq_right

theorem statusWord_cause (s : State) : s.statusWord.extractLsb' 6 3 = s.cause.code := by
  unfold State.statusWord
  rw [BitVec.extractLsb'_append_eq_of_le (by decide), BitVec.extractLsb'_append_eq_of_le (by decide),
    BitVec.extractLsb'_append_eq_of_le (by decide)]
  exact BitVec.extractLsb'_append_eq_left

/-- Settles O5: the fields of the word by position, then the codes of RESULT and CAUSE one by one. -/
theorem statusWordLayout : Obligations.StatusWordLayout := by
  intro s
  obtain ⟨hbusy, hdone, henc⟩ := statusWord_flags s
  refine ⟨hbusy, hdone, henc, ?_, ?_⟩
  · rw [statusWord_result]
    cases s.result with
    | ok | notEncoded | insufficientCapacity | parseError => rfl
  · rw [statusWord_cause]
    cases s.cause with
    | noCause | exhausted | empty | notDecimal | range | overrun => rfl

/-! ## Whose turn a step is -/

/-- Settles O9: a block turn is a block step while BUSY = 1 (R20), and a poll is one until DONE = 1 (R93). -/
theorem blockMovesWhileBusy : Obligations.BlockMovesWhileBusy := by
  refine ⟨fun _ hm => step_no_move hm, fun _ _ hm => step_letRun hm, fun s rest hm => ?_⟩
  rw [step_waitDone hm]
  cases hb : s.busy with
  | true => simp [State.poll, blockTurn, hb]
  | false => cases hd : s.done <;> simp [State.poll, blockTurn, State.csrRead, State.statusRead, hb, hd]

/-! ## The cursor as a coordinate pair -/

theorem coord_snd_lt {s : State} (hg : 0 < s.gh) (n : Nat) : (s.coord n).2 < s.gh := Nat.mod_lt n hg

/-- N = CX * H + CY. -/
theorem pair_coord (s : State) (n : Nat) : (s.coord n).1 * s.gh + (s.coord n).2 = n := Nat.div_add_mod' n s.gh

theorem coord_pair {s : State} (x : Nat) {y : Nat} (hy : y < s.gh) : s.coord (x * s.gh + y) = (x, y) := by
  have hdiv : (x * s.gh + y) / s.gh = x := by
    rw [Nat.mul_comm, Nat.mul_add_div (by omega), Nat.div_eq_of_lt hy, Nat.add_zero]
  have hmod : (x * s.gh + y) % s.gh = y := by
    rw [Nat.mul_comm, Nat.mul_add_mod, Nat.mod_eq_of_lt hy]
  exact Prod.ext hdiv hmod

/-- The pair one pixel on is the pair of N + 1: each side is the pair of the same linear index. -/
theorem coord_succ {s : State} (hg : 0 < s.gh) (n : Nat) : s.coord (n + 1) = s.nextCoord (s.coord n) := by
  have hn := pair_coord s n
  have hy := coord_snd_lt hg n
  unfold State.nextCoord
  split
  · have : n + 1 = ((s.coord n).1 + 1) * s.gh + 0 := by rw [Nat.succ_mul]; omega
    rw [this, coord_pair _ hg]
  · have : n + 1 = (s.coord n).1 * s.gh + ((s.coord n).2 + 1) := by omega
    rw [this, coord_pair _ (by omega)]

/-- The grid is exhausted when CX = W. -/
theorem coord_fst_eq_gw {s : State} (hg : 0 < s.gh) {n : Nat} (hn : n ≤ s.npix) :
    (s.coord n).1 = s.gw ↔ n = s.npix := by
  constructor
  · intro hx
    refine Nat.le_antisymm hn ?_
    calc s.npix = (s.coord n).1 * s.gh := by rw [hx]; rfl
      _ ≤ n := Nat.div_mul_le_self n s.gh
  · intro h
    have hend : s.coord n = (s.gw, 0) := by rw [h]; exact coord_pair s.gw hg
    rw [hend]

/-- Settles O11: N and its pair determine each other (`pair_coord`, `coord_pair`), so each clause is about one index. -/
theorem cursorAsCoordinatePair : Obligations.CursorAsCoordinatePair := fun s n hg =>
  ⟨coord_snd_lt hg n, (pair_coord s n).symm, coord_succ hg n, coord_fst_eq_gw hg⟩

end Sys2Proof.Machine
end

section
/-! PROOFS. The step level and the instruction agree (10_state.md R34; R127, R139, R152, R171): with no host move to come
the machine's run is the block's. -/

namespace Sys2Proof.Machine

theorem step_idle {s : State} (hm : s.host = []) (hb : s.busy = false) : step s = .next s := by
  simp [step_no_move hm, blockTurn, hb]

theorem step_busy {s : State} (hm : s.host = []) (hb : s.busy = true) : step s = outcomeOf (blockStep s) := by
  simp [step_no_move hm, blockTurn, hb]

/-- With no host move to come, k machine steps are k block steps or as many as the operation has left (R20, R41). -/
theorem core_run_eq_runOp (k : Nat) {s : State} (hm : s.host = []) :
    Host.Core.run Sys2Proof.core k s = runOp blockStep k s := by
  induction k generalizing s with
  | zero => rfl
  | succ k ih =>
    cases hb : s.busy with
    | false => rw [core_run_succ k (step_idle hm hb), ih hm, runOp_idle _ _ hb, runOp_idle _ _ hb]
    | true =>
      have hstep := step_busy hm hb
      cases hs : blockStep s with
      | ok u =>
        obtain ⟨_, _, _, _, _, hu, _⟩ := blockStep_kept hs
        rw [hs] at hstep
        rw [core_run_succ k hstep, runOp_succ k hb hs, ih (hu.trans hm)]
      | error f =>
        rw [hs] at hstep
        simp [Host.Core.run, runOp, Sys2Proof.core, hstep, outcomeOf, hb, hs]

/-- Taking off the host's list what was put in front of it. -/
theorem setHost_back {s : State} {rest : List HostMove} (hm : s.host = rest) (moves : List HostMove) :
    (s.setHost moves).setHost rest = s := by
  subst hm; rfl

/-- Settles O47: the CMD write is the command start, and the steps of R209's bound are the operation's own. -/
theorem cmdWriteAndStepsReachTheSameEnd : Obligations.CmdWriteAndStepsReachTheSameEnd := by
  intro s i ⟨hinv, hb⟩ hm
  have hstart : step (s.setHost [.csrWrite 3 (encodeCmd i).toNat]) = .next (s.start (encodeCmd i)) := by
    rw [step_cmdWrite_idle (s.setHost_host _) hb, setHost_back hm]
  obtain ⟨t, ht⟩ := exec_goes_on i hinv
  have hrun := core_run_eq_runOp (s := s.start (encodeCmd i)) (opBound i s) hm
  exact ⟨opBound i s + 1, t, (core_run_succ _ hstart).trans (hrun.trans ((exec_idle i hb).symm.trans ht)), ht⟩

end Sys2Proof.Machine
end

section
/-! PROOFS. What each operation ends with (10_state.md R37), from its command start to its `finish`: the phases' runs
put together within the bound of R209. -/

namespace Sys2Proof.Machine

/-! ## The function level sees only the grid and LMAX -/

theorem isEncoded_congr {s t : State} (h : t.pix = s.pix) (hg : t.gh = s.gh) (hw : t.gw = s.gw) :
    t.isEncoded = s.isEncoded := by
  unfold State.isEncoded State.npix
  simp only [charAt_congr h hg, hg, hw]

theorem lengthField_congr {s t : State} (h : t.pix = s.pix) (hg : t.gh = s.gh) (hw : t.gw = s.gw) (hc : t.cfg = s.cfg) :
    t.lengthField = s.lengthField := by
  have hscan : t.scan = s.scan := by
    unfold State.scan
    rw [scanFrom_congr h hg hw, State.npix, State.npix, hg, hw]
  unfold State.lengthField State.lmax
  rw [hscan, hc]

/-- Command start leaves what the function level sees. -/
@[simp] theorem State.start_isEncoded (s : State) (c : CmdWord) : (s.start c).isEncoded = s.isEncoded :=
  isEncoded_congr rfl rfl rfl

@[simp] theorem State.start_lengthField (s : State) (c : CmdWord) : (s.start c).lengthField = s.lengthField :=
  lengthField_congr rfl rfl rfl rfl

theorem lengthField_of_scan_none {s : State} (h : s.scan = none) : s.lengthField = .error .exhausted := by
  simp [State.lengthField, h]

theorem lengthField_of_scan_some {s : State} {str : List Ch} (h : s.scan = some str) :
    s.lengthField = parse s.lmax str := by
  simp [State.lengthField, h]

theorem isEncoded_npix {s : State} (h : s.isEncoded = true) : 36 ≤ s.npix := by
  simp only [State.isEncoded, Bool.and_eq_true, decide_eq_true_eq] at h
  exact h.1

/-- The causes a length field can have (R146, R108). -/
theorem lengthField_error {s : State} {c : Cause} (h : s.lengthField = .error c) :
    c = .exhausted ∨ c = .empty ∨ c = .notDecimal ∨ c = .range := by
  unfold State.lengthField at h
  split at h
  · cases h; simp
  · unfold parse at h
    split at h
    · cases h; simp
    · split at h
      · cases h; simp
      · split at h
        · cases h; simp
        · cases h

/-! ## The end of an operation -/

/-- `finish` on a state that the operation started in s has reached ends it with that state's ENC
and LEN. -/
theorem endsWith_finish {s u : State} {w : CmdWord} {r : Result} {c : Cause} {e : Bool} {l : Nat}
    (h : Kept (s.start w) u) (he : u.enc = e) (hl : u.len = l) : EndsWith s (u.finish r c) ⟨r, c, e, l⟩ := by
  obtain ⟨hcfg, hgw, hgh, hplen, _, hhost, hreply⟩ := h
  exact ⟨rfl, rfl, rfl, rfl, rfl, he, hl, hgw, hgh, hplen, hcfg, hhost, hreply⟩

theorem exec_encode_idle {s : State} (hb : s.busy = false) :
    exec .encode s = runOp encodeStep (reqPixels s.plen + 2) (s.start 0#2) := issue_idle hb

theorem exec_detect_idle {s : State} (hb : s.busy = false) : exec .detect s = runOp detectStep 37 (s.start 1#2) :=
  issue_idle hb

theorem exec_getlen_idle {s : State} (hb : s.busy = false) :
    exec .getlen s = runOp getlenStep (s.npix - 36 + 1) (s.start 2#2) := issue_idle hb

theorem exec_decode_idle {s : State} (hb : s.busy = false) :
    exec .decode s = runOp decodeStep (s.npix + 4) (s.start 3#2) := issue_idle hb

/-! ## ENCODE -/

/-- ENCODE on a grid with too few pixels (R121). -/
theorem exec_encode_small {s : State} (hb : s.busy = false) (hlt : s.npix < reqPixels s.plen) :
    exec .encode s = .next ((s.start 0#2).finish .insufficientCapacity .noCause) := by
  have hcheck : encodeStep (s.start 0#2) = .ok ((s.start 0#2).finish .insufficientCapacity .noCause) :=
    congrArg Except.ok (if_pos hlt)
  rw [exec_encode_idle hb, runOp_succ _ rfl hcheck, runOp_idle _ _ rfl]

/-- E_WRITE's first state: no pixel is written yet. -/
theorem writing_zero (s : State) : Writing s 0 { s.start 0#2 with phase := .eWrite } :=
  ⟨rfl, fun _ _ => (if_neg (Nat.not_lt_zero _)).symm ▸ rfl, fun _ _ _ => rfl⟩

/-- ENCODE on a grid with enough pixels ends after E_WRITE's last pixel (R121, R126). -/
theorem exec_encode_fits {s : State} (hp : s.plen < 2 ^ s.cfg.lw) (hb : s.busy = false)
    (hr : reqPixels s.plen ≤ s.npix) :
    ∃ u, exec .encode s = .next (u.finish .ok .noCause) ∧ Writing s (reqPixels s.plen) u := by
  have hcheck : encodeStep (s.start 0#2) = .ok { s.start 0#2 with phase := .eWrite } :=
    congrArg Except.ok (if_neg (Nat.not_lt.2 hr))
  obtain ⟨u, hu, hw⟩ := Writing.run hp hr (reqPixels s.plen) 0 (by omega) _ (writing_zero s)
  rw [Nat.zero_add] at hw
  have hclose : encodeStep u = .ok (u.finish .ok .noCause) := by
    obtain ⟨hreg, _, _⟩ := hw
    have hphase : u.phase = .eWrite := by rw [hreg]
    have hn : reqPixels u.plen ≤ u.n := by rw [hreg]; exact Nat.le_refl _
    simp only [encodeStep, hphase]
    exact encodeWrite_close hn
  have hbusy : u.busy = true := by rw [hw.1]; rfl
  refine ⟨u, ?_, hw⟩
  rw [exec_encode_idle hb, runOp_succ _ rfl hcheck, runOp_add 1 hu, runOp_succ 0 hbusy hclose]
  rfl

/-- A state inside E_WRITE has changed only what the step writes, and has ENC = 0 and LEN = 0 (R35). -/
theorem Writing.kept {s u : State} {j : Nat} (h : Writing s j u) :
    Kept (s.start 0#2) u ∧ u.enc = false ∧ u.len = 0 ∧ u.pay = s.pay := by
  obtain ⟨hreg, _, _⟩ := h
  rw [hreg]
  exact ⟨Kept.refl _, rfl, rfl, rfl⟩

/-! ## DETECT -/

theorem detectStep_dMark {u : State} (h : u.phase = .dMark) : detectStep u = markStep u := by simp [detectStep, h]

/-- DETECT ends with ENC = ISENC and writes nothing else but working registers (R136). -/
theorem exec_detect_ends {s : State} (hb : s.busy = false) :
    ∃ t, exec .detect s = .next t ∧ EndsWith s t ⟨.ok, .noCause, s.isEncoded, 0⟩ ∧ t.pix = s.pix ∧ t.pay = s.pay := by
  obtain ⟨u, j, hj, _, _, hrun, hu, _⟩ :=
    mark_close (fun _ => detectStep_dMark) (s := s.start 1#2) rfl rfl rfl rfl
  have hclose : markClose u = ({ u with enc := u.matched }).finish .ok .noCause := by
    rw [hu]; rfl
  have henc : u.matched = s.isEncoded := by
    rw [hu]; exact s.start_isEncoded _
  rw [hclose] at hrun
  have hkept : Kept (s.start 1#2) { u with enc := u.matched } := by rw [hu]; exact Kept.refl _
  have hlen : u.len = 0 := by rw [hu]; rfl
  refine ⟨_, (exec_detect_idle hb).trans (runOp_enough hrun rfl hj), endsWith_finish hkept henc hlen, ?_, ?_⟩
  · rw [hu]; rfl
  · rw [hu]; rfl

/-! ## D_LEN, in GETLEN and in DECODE -/

theorem getlenStep_dLen {u : State} (h : u.phase = .dLen) : getlenStep u = lenStep u := by simp [getlenStep, h]

theorem decodeStep_dLen {u : State} (h : u.phase = .dLen) : decodeStep u = lenStep u := by simp [decodeStep, h]

/-- D_LEN's last state when the parse is good (R151): GETLEN ends, DECODE goes on to D_BOUND. -/
def lenAccept (v : State) (l : Nat) : State :=
  if decodeCmd v.op = .getlen then { v with len := l }.finish .ok .noCause else { v with len := l, phase := .dBound }

theorem lenTerminator_error {v : State} {str : List Ch} {c : Cause} (hN : Numeral v str)
    (h : parse v.lmax str = .error c) : lenTerminator v = v.finish .parseError c := by
  rw [lenTerminator_parse hN, h]

theorem lenTerminator_ok {v : State} {str : List Ch} {l : Nat} (hN : Numeral v str) (h : parse v.lmax str = .ok l) :
    lenTerminator v = lenAccept v l := by
  rw [lenTerminator_parse hN, h, lenAccept]

/-- D_LEN has begun: the cursor is past the marker and no character of the length field is accumulated (R35, R138). -/
def LenStart (s : State) : Prop := s.busy = true ∧ s.phase = .dLen ∧ s.n = 36 ∧ Numeral s []

theorem Reading.refl (s : State) : Reading s s := rfl

theorem Reading.kept {s v : State} (h : Reading s v) : Kept s v := by
  unfold Reading at h; rw [h]; exact Kept.refl s

theorem Reading.same {s v : State} (h : Reading s v) :
    v.pix = s.pix ∧ v.pay = s.pay ∧ v.enc = s.enc ∧ v.len = s.len := by
  unfold Reading at h; rw [h]; exact ⟨rfl, rfl, rfl, rfl⟩

theorem Reading.trans {s u v : State} (h : Reading s u) (k : Reading u v) : Reading s v := by
  unfold Reading at h k ⊢; rw [k, h]

theorem Reading.npix {s v : State} (h : Reading s v) : v.npix = s.npix := by
  unfold Reading at h; rw [h]; rfl

theorem Reading.lengthField {s v : State} (h : Reading s v) : v.lengthField = s.lengthField := by
  unfold Reading at h; rw [h]; exact lengthField_congr rfl rfl rfl rfl

theorem Reading.lmax {s v : State} (h : Reading s v) : v.lmax = s.lmax := by
  unfold Reading at h; rw [h]; rfl

section LengthField
variable {rule : State → Except Fault State} (hrule : ∀ u, u.phase = .dLen → rule u = lenStep u) {s : State}
  (hs : LenStart s)
include hrule hs

/-- D_LEN without a terminator inside the grid (R146, R152). -/
theorem runOp_scan_none (hscan : s.scan = none) :
    ∃ v, runOp rule (s.npix - 36 + 1) s = .next (v.finish .parseError .exhausted) ∧ Reading s v := by
  obtain ⟨hb, hp, hn, hnum⟩ := hs
  have hrun := len_run hrule hb hp s.npix 9 [] s (Reading.refl s) hn hnum (by omega)
  rw [show s.scanFrom s.npix 9 [] = none from hscan] at hrun
  exact hrun

/-- D_LEN up to the terminator, which it meets inside the grid (R146, R152). -/
theorem runOp_scan_some {str : List Ch} (hscan : s.scan = some str) :
    ∃ v j, runOp rule j s = .next (lenTerminator v) ∧ Reading s v ∧ Numeral v str ∧ v.n = 36 + j ∧ v.n ≤ s.npix := by
  obtain ⟨hb, hp, hn, hnum⟩ := hs
  have hrun := len_run hrule hb hp s.npix 9 [] s (Reading.refl s) hn hnum (by omega)
  rw [show s.scanFrom s.npix 9 [] = some str from hscan] at hrun
  obtain ⟨j, v, _, hv, hr, hN, hle, hnj, _⟩ := hrun
  exact ⟨v, j, hv, hr, hN, hnj, hle⟩

/-- D_LEN on a bad length field ends with its cause (R146). -/
theorem runOp_len_error {c : Cause} (h : s.lengthField = .error c) :
    ∃ v, runOp rule (s.npix - 36 + 1) s = .next (v.finish .parseError c) ∧ Reading s v := by
  cases hscan : s.scan with
  | none =>
    cases (lengthField_of_scan_none hscan).symm.trans h
    exact runOp_scan_none hrule hs hscan
  | some str =>
    obtain ⟨v, j, hv, hr, hN, hn, hle⟩ := runOp_scan_some hrule hs hscan
    have hparse : parse v.lmax str = .error c := by
      rw [hr.lmax, ← lengthField_of_scan_some hscan, h]
    rw [lenTerminator_error hN hparse] at hv
    exact ⟨v, runOp_enough hv rfl (by omega), hr⟩

/-- D_LEN on the length l stops at the terminator, inside the grid (R146, R152). -/
theorem runOp_len_ok {l : Nat} (h : s.lengthField = .ok l) :
    ∃ v j, runOp rule j s = .next (lenAccept v l) ∧ Reading s v ∧ v.n = 36 + j ∧ v.n ≤ s.npix := by
  cases hscan : s.scan with
  | none => cases (lengthField_of_scan_none hscan).symm.trans h
  | some str =>
    obtain ⟨v, j, hv, hr, hN, hn, hle⟩ := runOp_scan_some hrule hs hscan
    have hparse : parse v.lmax str = .ok l := by
      rw [hr.lmax, ← lengthField_of_scan_some hscan, h]
    rw [lenTerminator_ok hN hparse] at hv
    exact ⟨v, j, hv, hr, hn, hle⟩

end LengthField

/-! ## GETLEN -/

theorem getlen_lenStart (s : State) : LenStart (s.start 2#2) :=
  ⟨rfl, rfl, rfl, numeral_nil rfl rfl rfl rfl rfl⟩

/-- GETLEN on a bad length field (R146). -/
theorem exec_getlen_error {s : State} (hb : s.busy = false) {c : Cause} (h : s.lengthField = .error c) :
    ∃ t, exec .getlen s = .next t ∧ EndsWith s t ⟨.parseError, c, false, 0⟩ ∧ t.pix = s.pix ∧ t.pay = s.pay := by
  obtain ⟨v, hv, hr⟩ := runOp_len_error (fun _ => getlenStep_dLen) (getlen_lenStart s) ((s.start_lengthField _).trans h)
  obtain ⟨hpix, hpay, henc, hlen⟩ := hr.same
  exact ⟨_, (exec_getlen_idle hb).trans hv, endsWith_finish hr.kept henc hlen, hpix, hpay⟩

/-- GETLEN on the length l (R146). -/
theorem exec_getlen_ok {s : State} (hb : s.busy = false) {l : Nat} (h : s.lengthField = .ok l) :
    ∃ t, exec .getlen s = .next t ∧ EndsWith s t ⟨.ok, .noCause, false, l⟩ ∧ t.pix = s.pix ∧ t.pay = s.pay := by
  obtain ⟨v, j, hv, hr, hn, hle⟩ :=
    runOp_len_ok (fun _ => getlenStep_dLen) (getlen_lenStart s) ((s.start_lengthField _).trans h)
  obtain ⟨hpix, hpay, henc, _⟩ := hr.same
  have hacc : lenAccept v l = { v with len := l }.finish .ok .noCause :=
    if_pos (by obtain ⟨_, _, _, _, hop, _⟩ := hr.kept; rw [hop]; rfl)
  rw [hacc] at hv
  have hle : v.n ≤ s.npix := hle
  have hk : Kept (s.start 2#2) { v with len := l } := hr.kept
  exact ⟨_, (exec_getlen_idle hb).trans (runOp_enough hv rfl (by omega)), endsWith_finish hk henc rfl, hpix, hpay⟩

/-! ## DECODE -/

theorem decodeStep_dMark {u : State} (h : u.phase = .dMark) : decodeStep u = markStep u := by simp [decodeStep, h]

/-- DECODE in s after D_MARK has found the marker (R138). -/
def State.marked (s : State) : State := { s.start 3#2 with n := 36, matched := true, enc := true, phase := .dLen }

theorem State.marked_lengthField (s : State) : s.marked.lengthField = s.lengthField := lengthField_congr rfl rfl rfl rfl

/-- DECODE in s inside D_BOUND, with the length l parsed: the numeral's registers and ACC apart, every
register is known. -/
def Bounding (s : State) (l : Nat) (b : State) : Prop :=
  b = { s.marked with
    phase := .dBound, n := hdrPixels l, len := l
    acc := b.acc, dcnt := b.dcnt, lacc := b.lacc, lovf := b.lovf, lbad := b.lbad, lz := b.lz }

/-- DECODE on a grid without the marker (R161). -/
theorem exec_decode_unmarked {s : State} (hb : s.busy = false) (h : s.isEncoded = false) :
    ∃ t, exec .decode s = .next t ∧ EndsWith s t ⟨.notEncoded, .noCause, false, 0⟩ ∧ t.pix = s.pix ∧ t.pay = s.pay := by
  obtain ⟨u, j, _, hj37, hj1, hrun, hu, _⟩ :=
    mark_close (fun _ => decodeStep_dMark) (s := s.start 3#2) rfl rfl rfl rfl
  rw [s.start_isEncoded, h] at hu
  have hclose : markClose u = ({ u with enc := false }).finish .notEncoded .noCause := by
    rw [hu]; rfl
  rw [hclose] at hrun
  have hj : j ≤ s.npix + 4 := by
    rcases Nat.lt_or_ge s.npix 36 with hlt | hge
    · have := hj1 hlt
      omega
    · have := hj37 hge
      omega
  have hkept : Kept (s.start 3#2) { u with enc := false } := by rw [hu]; exact Kept.refl _
  have hlen : u.len = 0 := by rw [hu]; rfl
  refine ⟨_, (exec_decode_idle hb).trans (runOp_enough hrun rfl hj), endsWith_finish hkept rfl hlen, ?_, ?_⟩
  · rw [hu]; rfl
  · rw [hu]; rfl

/-- D_MARK of a DECODE that finds the marker; ACC is left with the last character. -/
theorem runOp_marked {s : State} (h : s.isEncoded = true) :
    ∃ m, runOp decodeStep 37 (s.start 3#2) = .next m ∧ Reading s.marked m ∧ LenStart m := by
  obtain ⟨u, j, _, hj37, _, hrun, hu, hn⟩ :=
    mark_close (fun _ => decodeStep_dMark) (s := s.start 3#2) rfl rfl rfl rfl
  have h36 := isEncoded_npix h
  rw [hj37 h36] at hrun
  rw [s.start_isEncoded, h, hn h36] at hu
  have hm : markClose u = { s.marked with acc := u.acc } := by
    rw [hu]; rfl
  rw [hm] at hrun
  exact ⟨_, hrun, rfl, rfl, rfl, rfl, numeral_nil rfl rfl rfl rfl rfl⟩

/-- DECODE on a marked grid with a bad length field (R161). -/
theorem exec_decode_error {s : State} (hb : s.busy = false) (hm : s.isEncoded = true) {c : Cause}
    (h : s.lengthField = .error c) :
    ∃ t, exec .decode s = .next t ∧ EndsWith s t ⟨.parseError, c, true, 0⟩ ∧ t.pix = s.pix ∧ t.pay = s.pay := by
  obtain ⟨m, hmark, hread, hlen⟩ := runOp_marked hm
  obtain ⟨v, hv, hr⟩ :=
    runOp_len_error (fun _ => decodeStep_dLen) hlen ((hread.lengthField.trans s.marked_lengthField).trans h)
  have hrv := hread.trans hr
  obtain ⟨hpix, hpay, henc, hlen0⟩ := hrv.same
  have h36 := isEncoded_npix hm
  have hnpix : m.npix = s.npix := hread.npix
  have hrun := (runOp_add _ hmark).trans hv
  refine ⟨_, (exec_decode_idle hb).trans (runOp_enough hrun rfl (by omega)), ?_, hpix, hpay⟩
  exact endsWith_finish (w := 3#2) hrv.kept henc hlen0

/-- A DECODE of a state that accepts it keeps the invariant on its way. -/
theorem runOp_decode_inv {s t : State} (h : s.Inv) {k : Nat} (ht : runOp decodeStep k (s.start 3#2) = .next t) :
    t.Inv := by
  obtain ⟨u, hu, hI⟩ := runOp_ok (fun _ _ => decodeStep_kept) (fun _ => decodeStep_ok) k (s.start 3#2)
    (Base.start ((Inv_iff s).1 h).1 _) rfl
  cases hu.symm.trans ht
  exact hI

/-- In D_BOUND the cursor is at the header's end, inside the grid (R164). -/
theorem inv_dBound {b : State} (h : b.Inv) (hp : b.phase = .dBound) : b.n = hdrPixels b.len ∧ b.n ≤ b.npix := by
  have hP := ((Inv_iff b).1 h).2
  unfold State.phaseCoherent at hP
  rw [hp] at hP
  obtain ⟨_, _, _, hn, hle⟩ := hP
  exact ⟨hn, hle⟩

/-- D_LEN's last state in DECODE (R151). -/
theorem lenAccept_decode {s v : State} (h : Reading s.marked v) (l : Nat) :
    lenAccept v l = { v with len := l, phase := .dBound } := by
  unfold Reading at h
  have hop : decodeCmd v.op = .decode := by rw [h]; rfl
  exact if_neg (by simp [hop])

theorem Reading.bounding {s v : State} (h : Reading s.marked v) {l : Nat} (hn : v.n = hdrPixels l) :
    Bounding s l { v with len := l, phase := .dBound } := by
  unfold Reading at h
  unfold Bounding
  rw [h, hn]

/-- DECODE on a marked grid with the length l reaches D_BOUND after the header's pixels and D_MARK's closing step (R161,
R164); the header lies inside the grid and l inside PAY. -/
theorem runOp_bounding {s : State} (hs : s.Inv) (hm : s.isEncoded = true) {l : Nat} (h : s.lengthField = .ok l) :
    ∃ b, runOp decodeStep (hdrPixels l + 1) (s.start 3#2) = .next b ∧ Bounding s l b ∧ hdrPixels l ≤ s.npix ∧
      l ≤ s.lmax := by
  obtain ⟨m, hmark, hread, hlen⟩ := runOp_marked hm
  obtain ⟨v, j, hv, hr, hn, hle⟩ :=
    runOp_len_ok (fun _ => decodeStep_dLen) hlen ((hread.lengthField.trans s.marked_lengthField).trans h)
  have hrv := hread.trans hr
  rw [lenAccept_decode hrv] at hv
  have hrun := (runOp_add _ hmark).trans hv
  have hinv := runOp_decode_inv hs hrun
  have hhdr : v.n = hdrPixels l := (inv_dBound hinv rfl).1
  have hsteps : 37 + j = hdrPixels l + 1 := by omega
  have hlw : l < 2 ^ v.cfg.lw := ((Inv_iff _).1 hinv).1.len
  have hlmax := lmax_succ (s := v)
  have hnpix : m.npix = s.npix := hread.npix
  have hsame : v.lmax = s.lmax := hrv.lmax
  exact ⟨_, hsteps ▸ hrun, hrv.bounding hhdr, by omega, by omega⟩

/-- DECODE on a marked grid that is too small for its length (R161, R165). -/
theorem exec_decode_overrun {s : State} (hs : s.Ready) (hm : s.isEncoded = true) {l : Nat} (h : s.lengthField = .ok l)
    (hlt : s.npix < hdrPixels l + 4 * l) :
    ∃ t, exec .decode s = .next t ∧ EndsWith s t ⟨.parseError, .overrun, true, l⟩ ∧ t.pix = s.pix ∧ t.pay = s.pay := by
  obtain ⟨b, hrun, hb, hfit, _⟩ := runOp_bounding hs.1 hm h
  unfold Bounding at hb
  have hstep : decodeStep b = .ok ({ b with hdr := hdrPixels l }.finish .parseError .overrun) := by
    rw [hb]; exact congrArg Except.ok (if_pos hlt)
  have hbusy : b.busy = true := by rw [hb]; rfl
  have hend : runOp decodeStep (hdrPixels l + 1 + 1) (s.start 3#2) =
      .next ({ b with hdr := hdrPixels l }.finish .parseError .overrun) := by
    rw [runOp_add 1 hrun, runOp_succ 0 hbusy hstep]; rfl
  refine ⟨_, (exec_decode_idle hs.2).trans (runOp_enough hend rfl (by omega)), ?_, ?_, ?_⟩
  · rw [hb]; exact endsWith_finish (w := 3#2) (Kept.refl _) rfl rfl
  · rw [hb]; rfl
  · rw [hb]; rfl

/-- D_XTR's first state, which D_BOUND leaves (R168). -/
def State.extracting (b : State) (l : Nat) : State := { b with phase := .dXtr, hdr := hdrPixels l, n := hdrPixels l }

/-- D_BOUND and D_XTR on a grid that holds the payload: its characters go to PAY one by one (R168, R169). -/
theorem runOp_extract {s b : State} {l : Nat} (hb : Bounding s l b) (hfit : hdrPixels l + 4 * l ≤ s.npix)
    (hl : l ≤ s.lmax) :
    ∃ t : State, runOp decodeStep (1 + (4 * l + 1)) b = .next (t.finish .ok .noCause) ∧
      t = { b.extracting l with acc := t.acc, n := 4 * (hdrPixels l / 4 + l), pay := t.pay } ∧
      ∀ i, t.payAt i = if i < l then s.charAt (hdrPixels l / 4 + i) else s.payAt i := by
  unfold Bounding at hb
  have hbound : decodeStep b = .ok (b.extracting l) := by
    rw [hb]; exact congrArg Except.ok (if_neg (Nat.not_lt.2 hfit))
  have hbusy : b.busy = true := by rw [hb]; rfl
  have hhdr : hdrPixels l = 4 * (hdrPixels l / 4) := (Nat.mul_div_cancel' (Nat.dvd_of_mod_eq_zero (hdr_mod l))).symm
  have hlen : (b.extracting l).len = l := by rw [hb]; rfl
  obtain ⟨t, ht, hreg, hpay⟩ := xtr_run (s := b.extracting l) hbusy rfl hhdr hhdr (by rw [hb]; exact hfit)
    (by rw [hb]; exact hl) l (Nat.le_of_eq hlen.symm)
  have hclose : decodeStep t = .ok (t.finish .ok .noCause) := by
    have hphase : t.phase = .dXtr := by rw [hreg]; rfl
    have hn : t.hdr + 4 * t.len ≤ t.n := by
      rw [hreg]
      show hdrPixels l + 4 * (b.extracting l).len ≤ 4 * (hdrPixels l / 4 + l)
      omega
    simp only [decodeStep, hphase]
    exact extractStep_close hn
  have hbusyt : t.busy = true := by rw [hreg]; exact hbusy
  refine ⟨t, ?_, hreg, fun i => ?_⟩
  · rw [Nat.add_comm, runOp_succ _ hbusy hbound, runOp_add 1 ht, runOp_succ 0 hbusyt hclose]
    rfl
  · rw [hpay i, hb]
    rfl

/-- DECODE on a marked grid that holds its payload (R161). -/
theorem exec_decode_ok {s : State} (hs : s.Ready) (hm : s.isEncoded = true) {l : Nat} (h : s.lengthField = .ok l)
    (hfit : hdrPixels l + 4 * l ≤ s.npix) :
    ∃ t, exec .decode s = .next t ∧ EndsWith s t ⟨.ok, .noCause, true, l⟩ ∧ t.pix = s.pix ∧
      ∀ i, t.payAt i = if i < l then s.charAt (hdrPixels l / 4 + i) else s.payAt i := by
  obtain ⟨b, hrun, hb, _, hl⟩ := runOp_bounding hs.1 hm h
  obtain ⟨t, ht, hreg, hpay⟩ := runOp_extract hb hfit hl
  have hend := (runOp_add _ hrun).trans ht
  unfold Bounding at hb
  rw [hb] at hreg
  refine ⟨_, (exec_decode_idle hs.2).trans (runOp_enough hend rfl (by omega)), ?_, ?_, hpay⟩
  · refine endsWith_finish (w := 3#2) ?_ ?_ ?_
    · rw [hreg]; exact Kept.refl _
    · rw [hreg]; rfl
    · rw [hreg]; rfl
  · rw [hreg]; rfl

/-! ## The table of results -/

/-- The registers of STATUS, and LEN, at an end with the report r. -/
theorem EndsWith.registers {s t : State} {r : Report} (h : EndsWith s t r) :
    t.done = true ∧ t.busy = false ∧ t.result = r.result ∧ t.cause = r.cause ∧ t.enc = r.enc ∧ t.len = r.len := by
  obtain ⟨hbusy, hdone, _, hresult, hcause, henc, hlen, _⟩ := h
  exact ⟨hdone, hbusy, hresult, hcause, henc, hlen⟩

/-- ENCODE ends with ENCODE's report (R121). -/
theorem exec_encode_report {s : State} (hs : s.Ready) :
    ∃ t, exec .encode s = .next t ∧ EndsWith s t s.encodeReport := by
  obtain ⟨hinv, hb⟩ := hs
  unfold State.encodeReport
  split
  · exact ⟨_, exec_encode_small hb ‹_›, endsWith_finish (Kept.refl _) rfl rfl⟩
  · obtain ⟨u, hu, hw⟩ := exec_encode_fits ((Inv_iff s).1 hinv).1.plen hb (Nat.not_lt.1 ‹_›)
    obtain ⟨hkept, henc, hlen, _⟩ := hw.kept
    exact ⟨_, hu, endsWith_finish hkept henc hlen⟩

/-- GETLEN ends with GETLEN's report (R146). -/
theorem exec_getlen_report {s : State} (hb : s.busy = false) :
    ∃ t, exec .getlen s = .next t ∧ EndsWith s t s.getlenReport ∧ t.pix = s.pix ∧ t.pay = s.pay := by
  unfold State.getlenReport
  cases h : s.lengthField with
  | ok l => exact exec_getlen_ok hb h
  | error c => exact exec_getlen_error hb h

/-- DECODE ends with DECODE's report and writes no pixel (R161). -/
theorem exec_decode_report {s : State} (hs : s.Ready) :
    ∃ t, exec .decode s = .next t ∧ EndsWith s t s.decodeReport ∧ t.pix = s.pix := by
  unfold State.decodeReport
  cases hm : s.isEncoded with
  | false =>
    obtain ⟨t, ht, he, hpix, _⟩ := exec_decode_unmarked hs.2 hm
    exact ⟨t, ht, he, hpix⟩
  | true =>
    cases h : s.lengthField with
    | error c =>
      obtain ⟨t, ht, he, hpix, _⟩ := exec_decode_error hs.2 hm h
      exact ⟨t, ht, he, hpix⟩
    | ok l =>
      by_cases hfit : s.npix < hdrPixels l + 4 * l
      · obtain ⟨t, ht, he, hpix, _⟩ := exec_decode_overrun hs hm h hfit
        exact ⟨t, ht, by simpa [hfit] using he, hpix⟩
      · obtain ⟨t, ht, he, hpix, _⟩ := exec_decode_ok hs hm h (Nat.not_lt.1 hfit)
        exact ⟨t, ht, by simpa [hfit] using he, hpix⟩

/-- What the operation i reports (R121, R136, R146, R161). -/
def State.reportOf (s : State) (i : Instr) : Report :=
  match i with
  | .encode => s.encodeReport
  | .detect => s.detectReport
  | .getlen => s.getlenReport
  | .decode => s.decodeReport

/-- Every operation, from a state that accepts it, ends with its report. -/
theorem exec_report (i : Instr) {s : State} (hs : s.Ready) : ∃ t, exec i s = .next t ∧ EndsWith s t (s.reportOf i) := by
  cases i with
  | encode => exact exec_encode_report hs
  | detect =>
    obtain ⟨t, ht, he, _⟩ := exec_detect_ends hs.2
    exact ⟨t, ht, he⟩
  | getlen =>
    obtain ⟨t, ht, he, _⟩ := exec_getlen_report hs.2
    exact ⟨t, ht, he⟩
  | decode =>
    obtain ⟨t, ht, he, _⟩ := exec_decode_report hs
    exact ⟨t, ht, he⟩

theorem exec_endsWith {i : Instr} {s t : State} (hs : s.Ready) (ht : exec i s = .next t) :
    EndsWith s t (s.reportOf i) := by
  obtain ⟨u, hu, he⟩ := exec_report i hs
  cases hu.symm.trans ht
  exact he

/-- ENCODE's row of R37's table. -/
theorem encodeReport_row (s : State) :
    s.encodeReport.enc = false ∧ (s.encodeReport.result = .ok ∨ s.encodeReport.result = .insufficientCapacity) ∧
    s.encodeReport.cause = .noCause ∧ s.encodeReport.len = 0 := by
  unfold State.encodeReport
  split
  · exact ⟨rfl, .inr rfl, rfl, rfl⟩
  · exact ⟨rfl, .inl rfl, rfl, rfl⟩

/-- GETLEN's row. -/
theorem getlenReport_row (s : State) :
    s.getlenReport.enc = false ∧
    (s.getlenReport.result = .ok ∧ s.getlenReport.cause = .noCause ∧ s.lengthField = .ok s.getlenReport.len ∨
      s.getlenReport.result = .parseError ∧ s.getlenReport.len = 0 ∧
        (s.getlenReport.cause = .exhausted ∨ s.getlenReport.cause = .empty ∨ s.getlenReport.cause = .notDecimal ∨
          s.getlenReport.cause = .range)) := by
  unfold State.getlenReport
  cases h : s.lengthField with
  | ok l => exact ⟨rfl, .inl ⟨rfl, rfl, rfl⟩⟩
  | error c => exact ⟨rfl, .inr ⟨rfl, rfl, lengthField_error h⟩⟩

/-- DECODE's row. -/
theorem decodeReport_row (s : State) :
    s.decodeReport.enc = s.isEncoded ∧
    (s.decodeReport.result = .notEncoded ∧ s.decodeReport.cause = .noCause ∧ s.decodeReport.len = 0 ∨
      s.decodeReport.result = .parseError ∧ s.decodeReport.len = 0 ∧
        (s.decodeReport.cause = .exhausted ∨ s.decodeReport.cause = .empty ∨ s.decodeReport.cause = .notDecimal ∨
          s.decodeReport.cause = .range) ∨
      s.decodeReport.result = .parseError ∧ s.decodeReport.cause = .overrun ∧
        s.lengthField = .ok s.decodeReport.len ∨
      s.decodeReport.result = .ok ∧ s.decodeReport.cause = .noCause ∧ s.lengthField = .ok s.decodeReport.len) := by
  unfold State.decodeReport
  cases s.isEncoded with
  | false => exact ⟨rfl, .inl ⟨rfl, rfl, rfl⟩⟩
  | true =>
    cases h : s.lengthField with
    | error c => exact ⟨rfl, .inr (.inl ⟨rfl, rfl, lengthField_error h⟩)⟩
    | ok l =>
      by_cases hfit : s.npix < hdrPixels l + 4 * l
      · simp [hfit]
      · simp [hfit]

/-- Settles O27: each operation ends with its report, and the report is in its row. -/
theorem resultTable : Obligations.ResultTable := by
  intro i s t hs ht
  obtain ⟨hdone, hbusy, hresult, hcause, henc, hlen⟩ := (exec_endsWith hs ht).registers
  refine ⟨hdone, hbusy, ?_⟩
  cases i with
  | encode => rw [henc, hresult, hcause, hlen]; exact encodeReport_row s
  | detect => exact ⟨henc, hresult, hcause, hlen⟩
  | getlen => rw [henc, hresult, hcause, hlen]; exact getlenReport_row s
  | decode => rw [henc, hresult, hcause, hlen]; exact decodeReport_row s

end Sys2Proof.Machine
end

section
/-! PROOFS. Memory (20_memory.md): the raster order, the block's and the host's accesses, and that the block issues none
that does not exist (R51, R52, R54, R61). -/

namespace Sys2Proof.Machine

/-! ## The raster order (R52) -/

theorem validPair_iff (s : State) (x y : Nat) : s.validPair x y = true ↔ x < s.gw ∧ y < s.gh := by
  simp [State.validPair]

/-- IDX and COORD on a valid pair: the index is inside the grid and the pair comes back. -/
theorem idx_valid {s : State} {x y : Nat} (h : s.validPair x y = true) :
    s.idx x y < s.npix ∧ s.coord (s.idx x y) = (x, y) := by
  obtain ⟨hx, hy⟩ := (validPair_iff s x y).1 h
  refine ⟨?_, coord_pair x hy⟩
  calc s.idx x y < x * s.gh + s.gh := Nat.add_lt_add_left hy _
    _ = (x + 1) * s.gh := (Nat.succ_mul x s.gh).symm
    _ ≤ s.npix := Nat.mul_le_mul_right _ hx

/-- PIX at a valid pair is PIX at its index. -/
theorem pixel_idx {s : State} {x y : Nat} (h : s.validPair x y = true) : s.pixel (s.idx x y) = s.pixAt x y := by
  rw [State.pixel, (idx_valid h).2]

/-- Settles O10: `pair_coord` and `coord_pair` are the two inverse laws, and the sample pixels are pairs of them. -/
theorem rasterOrderIsABijection : Obligations.RasterOrderIsABijection := by
  intro s
  refine ⟨fun n hn => ⟨coord_valid hn, pair_coord s n, rfl⟩, fun x y h => ⟨rfl, idx_valid h⟩, ?_, fun h1 => ?_,
    fun h0 => ?_⟩
  · simp [State.coord]
  · simpa using coord_pair (s := s) 0 h1
  · simpa using coord_pair (s := s) 1 h0

/-! ## The block's accesses (R51, R54, R61) -/

theorem State.writePixel_ok {s : State} {n : Nat} (h : n < s.npix) (v : Pixel) :
    s.writePixel n v = .ok (s.setPix (s.coord n).1 (s.coord n).2 v) := if_pos h

theorem State.readPay_ok {s : State} {i : Nat} (h : i < s.lmax) : s.readPay i = .ok (s.payAt i) := if_pos h

theorem State.writePay_ok {s : State} {i : Nat} (h : i < s.lmax) (c : Ch) : s.writePay i c = .ok (s.setPay i c) :=
  if_pos h

/-- Settles O12: inside the ranges a write is `State.setPix` or `State.setPay`, whose reads the memory laws give. -/
theorem portAccessesHitOnePlace : Obligations.PortAccessesHitOnePlace := by
  refine ⟨fun s n v hn => ⟨State.readPixel_ok hn, _, State.writePixel_ok hn v, ?_,
      fun x y h => s.setPix_pixAt_other h v, rfl⟩,
    fun s i c hi => ⟨State.readPay_ok hi, _, State.writePay_ok hi c, ?_, fun j h => s.setPay_payAt_other h c, rfl⟩,
    fun s n v hn => ⟨if_neg (Nat.not_lt.2 hn), if_neg (Nat.not_lt.2 hn)⟩,
    fun s i c hi => ⟨if_neg (Nat.not_lt.2 hi), if_neg (Nat.not_lt.2 hi)⟩⟩
  · rw [State.readPixel_ok (by exact hn), State.setPix_pixel_same]
  · rw [State.readPay_ok (by exact hi), State.setPay_payAt_same]

/-! ## The host's accesses (R51, R54, R188) -/

section HostMoves
variable {s : State} {rest : List HostMove} (hb : s.busy = false)
include hb

theorem step_pixWrite_idle {x y : Nat} {v : Pixel} (hm : s.host = .pixWrite x y v :: rest)
    (hp : s.pairInSpace x y = true) : step s = .next ((s.setHost rest).setPix x y v) := by
  rw [step_pixWrite hm]
  simp [State.hostPixWrite, hb, hp]

theorem step_pixRead_idle {x y : Nat} (hm : s.host = .pixRead x y :: rest) (hp : s.pairInSpace x y = true) :
    step s = .next ((s.setHost rest).setReply (.pixel (s.pixAt x y))) := by
  rw [step_pixRead hm]
  simp [State.hostPixRead, hb, hp]

theorem step_payWrite_idle {i : Nat} {c : Ch} (hm : s.host = .payWrite i c :: rest) (hi : i < s.lmax) :
    step s = .next ((s.setHost rest).setPay i c) := by
  rw [step_payWrite hm]
  simp [State.hostPayWrite, hb, State.writePay_ok (s := s.setHost rest) hi, outcomeOf]

theorem step_payRead_idle {i : Nat} (hm : s.host = .payRead i :: rest) (hi : i < s.lmax) :
    step s = .next ((s.setHost rest).setReply (.char (s.payAt i))) := by
  rw [step_payRead hm]
  simp [State.hostPayRead, hb, State.readPay_ok (s := s.setHost rest) hi]

end HostMoves

/-- Settles O13: the two steps are one write and one read of the same place, each with its frame. -/
theorem hostWritesThenReadsBack : Obligations.HostWritesThenReadsBack := by
  constructor
  · intro s x y v rest hm hb hp
    have hread := step_pixRead_idle (s := (s.setHost (.pixRead x y :: rest)).setPix x y v) hb rfl hp
    rw [State.setPix_pixAt_same] at hread
    exact ⟨_, _, step_pixWrite_idle hb hm hp, hread, rfl, rfl,
      fun a b h => (s.setHost (.pixRead x y :: rest)).setPix_pixAt_other h v, rfl⟩
  · intro s i c rest hm hb hi
    have hread := step_payRead_idle (s := (s.setHost (.payRead i :: rest)).setPay i c) hb rfl hi
    rw [State.setPay_payAt_same] at hread
    exact ⟨_, _, step_payWrite_idle hb hm hi, hread, rfl, rfl,
      fun j h => (s.setHost (.payRead i :: rest)).setPay_payAt_other h c, rfl⟩

/-! ## No access that does not exist (R61) -/

/-- From a state of the invariant the block's turn goes on: a block step while BUSY = 1, nothing else. -/
theorem blockTurn_goes_on {s : State} (h : s.Inv) : ∃ t, blockTurn s = .next t := by
  cases hb : s.busy with
  | true =>
    obtain ⟨t, ht, _⟩ := blockStep_ok h hb
    exact ⟨t, by simp [blockTurn, hb, ht, outcomeOf]⟩
  | false => exact ⟨s, by simp [blockTurn, hb]⟩

/-- Settles O45: the invariant's bounds let each step rule go on (`blockStep_ok`), hence a turn and an operation. -/
theorem noAccessFaultInTheBlock : Obligations.NoAccessFaultInTheBlock := by
  refine ⟨fun s h hb => ?_, fun s h hm => ?_, fun i s h => exec_goes_on i h⟩
  · obtain ⟨t, ht, _⟩ := blockStep_ok h hb
    exact ⟨t, ht⟩
  · rw [step_no_move hm]
    exact blockTurn_goes_on h

end Sys2Proof.Machine
end

section
/-! PROOFS. What the operations write (20_memory.md R60, R63): bits 31:2 of a pixel stay, the readers write no pixel, and a
second ENCODE writes what the first wrote. -/

namespace Sys2Proof.Machine

/-! ## The bits of an embedded pixel (R102) -/

theorem embed_upper (p : Pixel) (c : Symbol) : (embed p c).extractLsb' 2 30 = p.extractLsb' 2 30 := by
  apply BitVec.eq_of_getLsbD_eq
  intro i _
  simp only [BitVec.getLsbD_extractLsb', embed_getLsbD, if_neg (show ¬ 2 + i < 2 by omega)]

theorem embed_embed (p : Pixel) (a b : Symbol) : embed (embed p a) b = embed p b := by
  apply BitVec.eq_of_getLsbD_eq
  intro i _
  simp only [embed_getLsbD]
  split <;> rfl

/-! ## What a step rule can do -/

theorem markStep_cases {s t : State} (h : markStep s = .ok t) :
    (∃ b, t = markClose { s with matched := b }) ∨ t = s.afterSymbol ∨ ∃ k, t = s.afterSymbol.matchChar k := by
  by_cases h36 : s.npix < 36
  · cases (markStep_small h36).symm.trans h
    exact .inl ⟨false, rfl⟩
  · by_cases hn : s.n < 36
    · by_cases h4 : (s.n + 1) % 4 = 0
      · cases (markStep_char (by omega) hn h4).symm.trans h
        exact .inr (.inr ⟨_, rfl⟩)
      · cases (markStep_read (by omega) hn h4).symm.trans h
        exact .inr (.inl rfl)
    · cases (markStep_close (by omega) (by omega)).symm.trans h
      exact .inl ⟨s.matched, rfl⟩

theorem lenStep_cases {s t : State} (h : lenStep s = .ok t) :
    t = s.finish .parseError .exhausted ∨ t = s.afterSymbol ∨ t = lenTerminator s.afterSymbol ∨
      t = s.afterSymbol.accumulate := by
  by_cases hn : s.npix ≤ s.n
  · cases (lenStep_exhausted hn).symm.trans h
    exact .inl rfl
  · by_cases h4 : (s.n + 1) % 4 = 0
    · cases (lenStep_char (by omega) h4).symm.trans h
      split
      · exact .inr (.inr (.inl rfl))
      · exact .inr (.inr (.inr rfl))
    · cases (lenStep_read (by omega) h4).symm.trans h
      exact .inr (.inl rfl)

theorem writePay_cases {s t : State} {i : Nat} {c : Ch} (h : s.writePay i c = .ok t) : t = s.setPay i c := by
  unfold State.writePay at h
  split at h <;> cases h
  rfl

theorem extractStep_cases {s t : State} (h : extractStep s = .ok t) :
    t = s.finish .ok .noCause ∨ t = s.afterSymbol ∨ ∃ i c, t = s.afterSymbol.setPay i c := by
  unfold extractStep at h
  split at h
  · split at h
    · cases h
    · next u hu =>
      obtain ⟨_, rfl⟩ := State.readSymbol_cases hu
      split at h
      · exact .inr (.inr ⟨_, _, writePay_cases h⟩)
      · cases h; exact .inr (.inl rfl)
  · cases h; exact .inl rfl

theorem writePixel_cases {s t : State} {n : Nat} {v : Pixel} (h : s.writePixel n v = .ok t) :
    t = s.setPix (s.coord n).1 (s.coord n).2 v := by
  unfold State.writePixel at h
  split at h <;> cases h
  rfl

theorem readPixel_cases {s : State} {n : Nat} {v : Pixel} (h : s.readPixel n = .ok v) : v = s.pixel n := by
  unfold State.readPixel at h
  split at h <;> cases h
  rfl

theorem encodeWrite_cases {s t : State} (h : encodeWrite s = .ok t) :
    t = s.finish .ok .noCause ∨
      ∃ c, t = { s.setPix (s.coord s.n).1 (s.coord s.n).2 (embed (s.pixel s.n) c) with n := s.n + 1 } := by
  unfold encodeWrite at h
  split at h
  · split at h
    · cases h
    · split at h
      · cases h
      · next p hp =>
        split at h
        · cases h
        · next u hu =>
          cases h
          cases readPixel_cases hp
          cases writePixel_cases hu
          exact .inr ⟨_, rfl⟩
  · cases h; exact .inl rfl

/-- A block step is a step of one of the phases (R32). -/
theorem blockStep_cases {s t : State} (h : blockStep s = .ok t) :
    t = encodeCheck s ∨ encodeWrite s = .ok t ∨ markStep s = .ok t ∨ lenStep s = .ok t ∨ t = boundStep s ∨
      extractStep s = .ok t := by
  unfold blockStep encodeStep detectStep getlenStep decodeStep at h
  split at h <;> split at h <;> simp_all

/-! ## Which rules leave PIX (R63) -/

theorem encodeCheck_pix (s : State) : (encodeCheck s).pix = s.pix := by
  unfold encodeCheck
  split <;> rfl

theorem markClose_pix (s : State) : (markClose s).pix = s.pix := by
  unfold markClose
  split
  · rfl
  · split <;> rfl

theorem markStep_pix {s t : State} (h : markStep s = .ok t) : t.pix = s.pix := by
  obtain ⟨b, rfl⟩ | rfl | ⟨k, rfl⟩ := markStep_cases h
  · exact markClose_pix _
  · rfl
  · exact s.afterSymbol.matchChar_pix k

theorem lenTerminator_pix (s : State) : (lenTerminator s).pix = s.pix := by
  unfold lenTerminator
  split
  · rfl
  · split
    · rfl
    · split
      · rfl
      · dsimp only
        split <;> rfl

theorem lenStep_pix {s t : State} (h : lenStep s = .ok t) : t.pix = s.pix := by
  obtain rfl | rfl | rfl | rfl := lenStep_cases h
  · rfl
  · rfl
  · exact lenTerminator_pix _
  · rfl

theorem boundStep_pix (s : State) : (boundStep s).pix = s.pix := by
  unfold boundStep
  dsimp only
  split <;> rfl

theorem extractStep_pix {s t : State} (h : extractStep s = .ok t) : t.pix = s.pix := by
  obtain rfl | rfl | ⟨i, c, rfl⟩ := extractStep_cases h
  · rfl
  · rfl
  · rfl

/-! ## Bits 31:2 (R60) -/

/-- Bits 31:2 of the word at every pair are the same. -/
def SameUpper (s t : State) : Prop := ∀ x y, (t.pixAt x y).extractLsb' 2 30 = (s.pixAt x y).extractLsb' 2 30

theorem SameUpper.of_pix {s t : State} (h : t.pix = s.pix) : SameUpper s t := fun x y => by
  rw [State.pixAt_congr h]

theorem SameUpper.trans {s t u : State} (h : SameUpper s t) (k : SameUpper t u) : SameUpper s u := fun x y =>
  (k x y).trans (h x y)

/-- A write of an embedded pixel at its own place. -/
theorem sameUpper_setPix_embed (s : State) (n : Nat) (c : Symbol) :
    SameUpper s (s.setPix (s.coord n).1 (s.coord n).2 (embed (s.pixel n) c)) := by
  intro x y
  by_cases hxy : (x, y) = s.coord n
  · rw [← hxy, State.setPix_pixAt_same, embed_upper, State.pixel, ← hxy]
  · rw [State.setPix_pixAt_other s (x := (s.coord n).1) (y := (s.coord n).2) hxy]

theorem blockStep_sameUpper {s t : State} (h : blockStep s = .ok t) : SameUpper s t := by
  obtain rfl | hw | hm | hl | rfl | hx := blockStep_cases h
  · exact .of_pix (encodeCheck_pix s)
  · obtain rfl | ⟨c, rfl⟩ := encodeWrite_cases hw
    · exact .of_pix rfl
    · exact sameUpper_setPix_embed s s.n c
  · exact .of_pix (markStep_pix hm)
  · exact .of_pix (lenStep_pix hl)
  · exact .of_pix (boundStep_pix s)
  · exact .of_pix (extractStep_pix hx)

theorem exec_sameUpper {i : Instr} {s t : State} (hb : s.busy = false) (h : exec i s = .next t) : SameUpper s t := by
  rw [exec_idle i hb] at h
  have hstart : SameUpper s (s.start (encodeCmd i)) := .of_pix rfl
  exact runOp_keeps (SameUpper s) (fun _ _ hu _ hv => hu.trans (blockStep_sameUpper hv)) hstart h

/-- Settles O30: E_WRITE is the only rule that writes PIX, and it writes the pixel with another symbol embedded. -/
theorem upperPixelBitsNeverChange : Obligations.UpperPixelBitsNeverChange :=
  ⟨fun _ _ _ hs ht => exec_sameUpper hs.2 ht, fun _ _ _ ht => blockStep_sameUpper ht⟩

/-! ## Running an operation again (R63) -/

/-- What no operation writes and the function level sees: GW, GH, PLEN and the parameters. -/
theorem EndsWith.grid {s t : State} {r : Report} (h : EndsWith s t r) :
    t.gw = s.gw ∧ t.gh = s.gh ∧ t.npix = s.npix ∧ t.plen = s.plen ∧ t.cfg = s.cfg := by
  obtain ⟨_, _, _, _, _, _, _, hgw, hgh, hplen, hcfg, _⟩ := h
  exact ⟨hgw, hgh, by rw [State.npix, State.npix, hgw, hgh], hplen, hcfg⟩

/-- The end of an operation accepts the next command. -/
theorem exec_ready {i : Instr} {s t : State} (hs : s.Ready) (ht : exec i s = .next t) : t.Ready := by
  obtain ⟨hbusy, _⟩ := exec_endsWith hs ht
  exact ⟨exec_inv hs.1 ht, hbusy⟩

/-- DETECT and GETLEN write no memory. -/
theorem exec_reader_memory {i : Instr} {s t : State} (hs : s.Ready) (hi : i = .detect ∨ i = .getlen)
    (ht : exec i s = .next t) : t.pix = s.pix ∧ t.pay = s.pay := by
  rcases hi with rfl | rfl
  · obtain ⟨u, hu, _, hmem⟩ := exec_detect_ends hs.2
    cases hu.symm.trans ht
    exact hmem
  · obtain ⟨u, hu, _, hmem⟩ := exec_getlen_report hs.2
    cases hu.symm.trans ht
    exact hmem

theorem exec_decode_pix {s t : State} (hs : s.Ready) (ht : exec .decode s = .next t) : t.pix = s.pix := by
  obtain ⟨u, hu, _, hpix⟩ := exec_decode_report hs
  cases hu.symm.trans ht
  exact hpix

/-- ENCODE's writes: the grid word by word, no word outside it, and no character (R121). -/
theorem exec_encode_memory {s t : State} (hs : s.Ready) (ht : exec .encode s = .next t) :
    t.pay = s.pay ∧ (∀ n, n < s.npix → t.pixel n = s.encodedPixel n) ∧
      ∀ x y, s.validPair x y = false → t.pixAt x y = s.pixAt x y := by
  obtain ⟨hinv, hb⟩ := hs
  unfold State.encodedPixel
  by_cases hlt : s.npix < reqPixels s.plen
  · cases (exec_encode_small hb hlt).symm.trans ht
    exact ⟨rfl, fun n _ => (if_pos hlt).symm, fun _ _ _ => rfl⟩
  · obtain ⟨u, hu, hw⟩ := exec_encode_fits ((Inv_iff s).1 hinv).1.plen hb (Nat.not_lt.1 hlt)
    cases hu.symm.trans ht
    obtain ⟨_, _, _, hpay⟩ := hw.kept
    obtain ⟨_, hin, hout⟩ := hw
    exact ⟨hpay, fun n hn => (hin n hn).trans (if_neg hlt).symm, hout⟩

/-- Grids of one height that agree pixel by pixel and outside the grid agree at every pair (R52). -/
theorem samePix_of_pixel {s t : State} (hg : t.gh = s.gh) (hin : ∀ n, n < s.npix → t.pixel n = s.pixel n)
    (hout : ∀ x y, s.validPair x y = false → t.pixAt x y = s.pixAt x y) : SamePix s t := by
  intro x y
  cases hv : s.validPair x y with
  | false => exact hout x y hv
  | true =>
    obtain ⟨hlt, hpair⟩ := idx_valid hv
    have hpair' : t.coord (s.idx x y) = (x, y) := by rw [State.coord, hg]; exact hpair
    have hpix := hin _ hlt
    rwa [pixel_idx hv, State.pixel, hpair'] at hpix

/-- The readers' reports see only the grid and LMAX. -/
theorem reportOf_congr {s t : State} {i : Instr} (hi : i ≠ .encode) (hn : t.npix = s.npix)
    (he : t.isEncoded = s.isEncoded) (hl : t.lengthField = s.lengthField) : t.reportOf i = s.reportOf i := by
  cases i with
  | encode => exact absurd rfl hi
  | detect => simp only [State.reportOf, State.detectReport, he]
  | getlen => simp only [State.reportOf, State.getlenReport, hl]
  | decode => simp only [State.reportOf, State.decodeReport, he, hl, hn]

/-- A reader run again on an unmodified grid reports the same. -/
theorem reportOf_rerun {i j : Instr} {s t : State} (hs : s.Ready) (ht : exec j s = .next t) (hpix : t.pix = s.pix)
    (hi : i ≠ .encode) : t.reportOf i = s.reportOf i := by
  obtain ⟨hgw, hgh, hnpix, _, hcfg⟩ := (exec_endsWith hs ht).grid
  exact reportOf_congr hi hnpix (isEncoded_congr hpix hgh hgw)
    (lengthField_congr hpix hgh hgw hcfg)

/-- Two operations that end with the same report leave the same result registers. -/
theorem EndsWith.same_registers {s s' t t' : State} {r r' : Report} (h : EndsWith s t r) (h' : EndsWith s' t' r')
    (hr : r' = r) : t'.result = t.result ∧ t'.cause = t.cause ∧ t'.enc = t.enc ∧ t'.len = t.len := by
  obtain ⟨_, _, hresult, hcause, henc, hlen⟩ := h.registers
  obtain ⟨_, _, hresult', hcause', henc', hlen'⟩ := h'.registers
  rw [hresult, hresult', hcause, hcause', henc, henc', hlen, hlen', hr]
  exact ⟨rfl, rfl, rfl, rfl⟩

/-- The second ENCODE embeds into each pixel the symbol that is in it already. -/
theorem encodedPixel_encoded {s t : State} (hs : s.Ready) (ht : exec .encode s = .next t) {n : Nat}
    (hn : n < s.npix) : t.encodedPixel n = t.pixel n := by
  obtain ⟨_, _, hnpix, hplen, _⟩ := (exec_endsWith hs ht).grid
  obtain ⟨hpay, hin, _⟩ := exec_encode_memory hs ht
  have hpixel := hin n hn
  unfold State.encodedPixel at hpixel ⊢
  rw [hnpix, hplen, fsym_congr hplen hpay]
  split
  · rfl
  · rw [if_neg ‹_›] at hpixel
    split
    · rw [if_pos ‹_›] at hpixel
      rw [hpixel, embed_embed]
    · rfl

/-- A second ENCODE leaves every word and the RESULT as the first left them. -/
theorem exec_encode_again {s t u : State} (hs : s.Ready) (ht : exec .encode s = .next t)
    (hu : exec .encode t = .next u) : SamePix t u ∧ u.result = t.result := by
  have hs' := exec_ready hs ht
  obtain ⟨_, _, hnpix, hplen, _⟩ := (exec_endsWith hs ht).grid
  have hend := exec_endsWith hs' hu
  obtain ⟨_, hgh, _⟩ := hend.grid
  obtain ⟨_, hin, hout⟩ := exec_encode_memory hs' hu
  have hreport : t.reportOf .encode = s.reportOf .encode := by
    simp only [State.reportOf, State.encodeReport, hnpix, hplen]
  refine ⟨samePix_of_pixel hgh (fun n hn => ?_) hout, ((exec_endsWith hs ht).same_registers hend hreport).1⟩
  rw [hin n hn, encodedPixel_encoded hs ht (hnpix ▸ hn)]

/-- Settles O31: the readers' reports see only what the first run leaves, and embedding twice is embedding once. -/
theorem rerunningChangesNothing : Obligations.RerunningChangesNothing := by
  refine ⟨fun i s t u hs hi ht hu => ?_, fun s t => exec_decode_pix, fun s t u hs ht hu => ?_⟩
  · obtain ⟨hpix, hpay⟩ := exec_reader_memory hs hi ht
    have ht' := exec_ready hs ht
    obtain ⟨hpix', hpay'⟩ := exec_reader_memory ht' hi hu
    have hi' : i ≠ .encode := by rintro rfl; simp at hi
    exact ⟨hpix, hpay, hpix'.trans hpix, hpay'.trans hpay,
      (exec_endsWith hs ht).same_registers (exec_endsWith ht' hu) (reportOf_rerun hs ht hpix hi')⟩
  · obtain ⟨hpay, _, _⟩ := exec_encode_memory hs ht
    obtain ⟨hpay', _, _⟩ := exec_encode_memory (exec_ready hs ht) hu
    exact ⟨hpay, hpay'.trans hpay, exec_encode_again hs ht hu⟩

end Sys2Proof.Machine
end

section
/-! PROOFS. What the outcome of an operation depends on (20_memory.md R64; R21, R25, R103): the low bits of the pixels it reads,
and for ENCODE its frame. -/

namespace Sys2Proof.Machine

/-! ## The low bits of a range of pixels -/

/-- Bits 1:0 of the pixels a .. b-1 agree. -/
def SameLow (s t : State) (a b : Nat) : Prop := ∀ n, a ≤ n → n < b → extract (t.pixel n) = extract (s.pixel n)

theorem SameLow.mono {s t : State} {a b c d : Nat} (h : SameLow s t a b) (ha : a ≤ c) (hb : d ≤ b) : SameLow s t c d :=
  fun n hc hd => h n (Nat.le_trans ha hc) (Nat.lt_of_lt_of_le hd hb)

/-- CHARAT(k) sees bits 1:0 of its four pixels (R103, R104). -/
theorem charAt_congr_low {s t : State} {k : Nat} (h : SameLow s t (4 * k) (4 * k + 4)) : t.charAt k = s.charAt k := by
  unfold State.charAt
  rw [h (4 * k) (by omega) (by omega), h (4 * k + 1) (by omega) (by omega), h (4 * k + 2) (by omega) (by omega),
    h (4 * k + 3) (by omega) (by omega)]

/-- ISENC sees the pixels 0 .. 35, and none when NPIX < 36 (R64, R136). -/
theorem isEncoded_congr_low {s t : State} (hn : t.npix = s.npix) (h : 36 ≤ s.npix → SameLow s t 0 36) :
    t.isEncoded = s.isEncoded := by
  by_cases h36 : 36 ≤ s.npix
  · rw [isEncoded_eq h36, isEncoded_eq (hn ▸ h36), Bool.eq_iff_iff]
    simp only [List.all_eq_true, List.mem_range]
    refine forall₂_congr fun k hk => ?_
    rw [charAt_congr_low ((h h36).mono (by omega) (by omega))]
  · simp [State.isEncoded, hn, h36]

/-! ## The scan of the length field -/

/-- A scan that ends does so at a terminator inside the grid, with one character for each one before it. -/
theorem scanFrom_some {s : State} {fuel k : Nat} {acc str : List Ch} (h : s.scanFrom fuel k acc = some str) :
    ∃ j, k ≤ j ∧ 4 * j + 3 < s.npix ∧ s.charAt j = delim ∧ str.length + k = acc.length + j := by
  induction fuel generalizing k acc with
  | zero => cases h
  | succ fuel ih =>
    unfold State.scanFrom at h
    split at h
    · next hav =>
      have hk : 4 * k + 3 < s.npix := of_decide_eq_true hav
      split at h
      · cases h
        exact ⟨k, Nat.le_refl k, hk, ‹_›, rfl⟩
      · obtain ⟨j, hkj, hj, hd, hlen⟩ := ih h
        rw [List.length_append, List.length_singleton] at hlen
        exact ⟨j, by omega, hj, hd, by omega⟩
    · cases h

/-- N_end is the first pixel after the terminator (R64). -/
theorem scanEnd_of_some {s : State} {str : List Ch} (h : s.scan = some str) :
    ∃ j, 9 ≤ j ∧ 4 * j + 3 < s.npix ∧ s.charAt j = delim ∧ s.scanEnd = 4 * j + 4 := by
  obtain ⟨j, hj, hn, hd, hlen⟩ := scanFrom_some h
  rw [List.length_nil] at hlen
  exact ⟨j, hj, hn, hd, by rw [State.scanEnd_some h]; omega⟩

theorem scanEnd_le_npix (s : State) : s.scanEnd ≤ s.npix := by
  cases h : s.scan with
  | none => rw [State.scanEnd_none h]
  | some str =>
    obtain ⟨j, _, hn, _, hend⟩ := scanEnd_of_some h
    omega

theorem le_scanEnd {s : State} (h : 36 ≤ s.npix) : 36 ≤ s.scanEnd := by
  cases hscan : s.scan with
  | none => rwa [State.scanEnd_none hscan]
  | some str => rw [State.scanEnd_some hscan]; omega

/-- A character the scan comes to lies before N_end. -/
theorem scan_reads {s : State} {j : Nat} (hn : 4 * j + 3 < s.npix)
    (hd : ∀ i, 9 ≤ i → i < j → s.charAt i ≠ delim) : 4 * j + 4 ≤ s.scanEnd := by
  cases h : s.scan with
  | none => rw [State.scanEnd_none h]; omega
  | some str =>
    obtain ⟨e, he, _, hde, hend⟩ := scanEnd_of_some h
    have hje : j ≤ e := Nat.not_lt.1 fun hlt => hd e he hlt hde
    omega

/-- The scan sees only the characters up to the first terminator. -/
theorem scanFrom_congr_chars {s t : State} (hn : t.npix = s.npix) {fuel k : Nat} {acc : List Ch}
    (h : ∀ j, k ≤ j → 4 * j + 3 < s.npix → (∀ i, k ≤ i → i < j → s.charAt i ≠ delim) → t.charAt j = s.charAt j) :
    t.scanFrom fuel k acc = s.scanFrom fuel k acc := by
  induction fuel generalizing k acc with
  | zero => rfl
  | succ fuel ih =>
    unfold State.scanFrom State.avail
    rw [hn]
    by_cases hk : 4 * k + 3 < s.npix
    · rw [h k (Nat.le_refl k) hk fun i hi hlt => absurd hi (Nat.not_le.2 hlt)]
      by_cases hd : s.charAt k = delim
      · rw [if_pos hd, if_pos hd]
      · rw [if_neg hd, if_neg hd, ih fun j hj hnj hdj => h j (by omega) hnj fun i hi hlt => ?_]
        rcases Nat.eq_or_lt_of_le hi with rfl | hi
        · exact hd
        · exact hdj i hi hlt
    · rw [if_neg (by simpa using hk), if_neg (by simpa using hk)]

/-- The scan sees the pixels 36 .. N_end-1 (R64). -/
theorem scan_congr_low {s t : State} (hn : t.npix = s.npix) (h : SameLow s t 36 s.scanEnd) : t.scan = s.scan := by
  unfold State.scan
  rw [hn]
  exact scanFrom_congr_chars hn fun j hj hnj hd => charAt_congr_low (h.mono (by omega) (scan_reads hnj hd))

theorem lengthField_congr_low {s t : State} (hn : t.npix = s.npix) (hc : t.cfg = s.cfg)
    (h : SameLow s t 36 s.scanEnd) : t.lengthField = s.lengthField := by
  unfold State.lengthField State.lmax
  rw [scan_congr_low hn h, hc]

/-! ## The length field of a good parse -/

/-- A digit other than `0` has a value other than 0. -/
theorem digitVal_pos {c : Ch} (hd : isDigit c = true) (hc : c ≠ 0x30#8) : 1 ≤ digitVal c := by
  refine Nat.pos_of_ne_zero fun h0 => hc ?_
  rw [← digitChar_digitVal c hd, h0]
  rfl

/-- A canonical numeral has as many characters as its value has digits (R111), and a value other than 0 unless it is `0`. -/
theorem digits_val_of_canon {str : List Ch} (h : canon str = true) :
    digits (val str) = str.length ∧ (str.head? ≠ some 0x30#8 → 1 ≤ val str) := by
  induction str using List.reverseRecOn with
  | nil => simp [canon] at h
  | append_singleton str c ih =>
    rw [val_append, List.length_append, List.length_singleton]
    cases str with
    | nil =>
      have hd : isDigit c = true := by simpa [canon] using h
      have hval : val ([] : List Ch) = 0 := rfl
      rw [hval, Nat.mul_zero, Nat.zero_add, digits_small (digitVal_lt c hd)]
      exact ⟨rfl, fun hc => digitVal_pos hd (by simpa using hc)⟩
    | cons a r =>
      rw [canon_snoc (List.cons_ne_nil a r)] at h
      simp only [Bool.and_eq_true, decide_eq_true_eq] at h
      obtain ⟨⟨hcanon, hd⟩, hhead⟩ := h
      obtain ⟨hdigits, hpos⟩ := ih hcanon
      have hval := hpos hhead
      exact ⟨by rw [digits_append hval (digitVal_lt c hd), hdigits], fun _ => by omega⟩

theorem parse_ok {lmax l : Nat} {str : List Ch} (h : parse lmax str = .ok l) : canon str = true ∧ val str = l := by
  unfold parse at h
  split at h
  · cases h
  · split at h
    · cases h
    · next hc =>
      split at h
      · cases h
      · cases h
        exact ⟨by simpa using hc, rfl⟩

/-- After a good parse N_end is HDR (R64, R164). -/
theorem scanEnd_of_lengthField {s : State} {l : Nat} (h : s.lengthField = .ok l) : s.scanEnd = hdrPixels l := by
  cases hscan : s.scan with
  | none => cases (lengthField_of_scan_none hscan).symm.trans h
  | some str =>
    obtain ⟨hcanon, hval⟩ := parse_ok ((lengthField_of_scan_some hscan).symm.trans h)
    rw [State.scanEnd_some hscan, hdrPixels, ← hval, (digits_val_of_canon hcanon).1]

/-! ## DECODE's report, and its payload when it ends OK -/

theorem decodeReport_notEncoded_iff (s : State) : s.decodeReport.result = .notEncoded ↔ s.isEncoded = false := by
  unfold State.decodeReport
  cases s.isEncoded with
  | false => simp
  | true =>
    cases s.lengthField with
    | error c => simp
    | ok l => by_cases hfit : s.npix < hdrPixels l + 4 * l <;> simp [hfit]

theorem decodeReport_ok {s : State} (h : s.decodeReport.result = .ok) :
    s.isEncoded = true ∧ s.lengthField = .ok s.decodeReport.len ∧
      hdrPixels s.decodeReport.len + 4 * s.decodeReport.len ≤ s.npix := by
  unfold State.decodeReport at h ⊢
  cases hm : s.isEncoded with
  | false => simp [hm] at h
  | true =>
    cases hl : s.lengthField with
    | error c => simp [hm, hl] at h
    | ok l =>
      by_cases hfit : s.npix < hdrPixels l + 4 * l
      · simp [hm, hl, hfit] at h
      · simp [hfit, Nat.not_lt.1 hfit]

theorem exec_decode_payload {s t : State} (hs : s.Ready) (ht : exec .decode s = .next t) (hr : t.result = .ok) :
    s.isEncoded = true ∧ s.lengthField = .ok t.len ∧ hdrPixels t.len + 4 * t.len ≤ s.npix ∧
      ∀ i, i < t.len → t.payAt i = s.charAt (hdrPixels t.len / 4 + i) := by
  obtain ⟨_, _, hresult, _, _, hlen⟩ := (exec_endsWith hs ht).registers
  obtain ⟨hm, hl, hfit⟩ := decodeReport_ok (hresult.symm.trans hr)
  have hlen' : t.len = s.decodeReport.len := hlen
  rw [← hlen'] at hl hfit
  obtain ⟨u, hu, _, _, hpay⟩ := exec_decode_ok hs hm hl hfit
  cases hu.symm.trans ht
  exact ⟨hm, hl, hfit, fun i hi => (hpay i).trans (if_pos hi)⟩

/-! ## ENCODE's report and its frame -/

theorem encodeReport_ok_iff (s : State) : s.encodeReport.result = .ok ↔ reqPixels s.plen ≤ s.npix := by
  unfold State.encodeReport
  by_cases h : s.npix < reqPixels s.plen
  · simp [h]
  · simp [h, Nat.not_lt.1 h]

/-- A character of the frame sees PLEN and PAY[0 .. PLEN-1] (R113). -/
theorem fchar_congr_payload {s t : State} (hp : t.plen = s.plen) (h : ∀ i, i < s.plen → t.payAt i = s.payAt i)
    {k : Nat} (hk : k < frameChars s.plen) : t.fchar k = s.fchar k := by
  unfold frameChars at hk
  unfold State.fchar
  rw [hp]
  split
  · rfl
  · split
    · rfl
    · split
      · rfl
      · exact h _ (by omega)

theorem fsym_congr_payload {s t : State} (hp : t.plen = s.plen) (h : ∀ i, i < s.plen → t.payAt i = s.payAt i)
    {n : Nat} (hn : n < reqPixels s.plen) : t.fsym n = s.fsym n := by
  unfold reqPixels at hn
  rw [State.fsym, State.fsym, fchar_congr_payload hp h (by omega)]

/-! ## Two runs on grids that agree -/

section TwoRuns
variable {s s' t t' : State} (hs : s.Ready) (hs' : s'.Ready) (hcfg : s'.cfg = s.cfg) (hnpix : s'.npix = s.npix)

include hs hs' in
/-- Equal reports, equal result registers. -/
theorem exec_same_registers {i : Instr} (ht : exec i s = .next t) (ht' : exec i s' = .next t')
    (h : s'.reportOf i = s.reportOf i) :
    t'.result = t.result ∧ t'.cause = t.cause ∧ t'.enc = t.enc ∧ t'.len = t.len :=
  (exec_endsWith hs ht).same_registers (exec_endsWith hs' ht') h

include hs hs' hcfg hnpix in
/-- A reader whose marker and length field agree ends alike. -/
theorem exec_reader_congr {i : Instr} (hi : i ≠ .encode) (ht : exec i s = .next t) (ht' : exec i s' = .next t')
    (hmark : 36 ≤ s.npix → SameLow s s' 0 36) (hlen : SameLow s s' 36 s.scanEnd) :
    t'.result = t.result ∧ t'.cause = t.cause ∧ t'.enc = t.enc ∧ t'.len = t.len :=
  exec_same_registers hs hs' ht ht'
    (reportOf_congr hi hnpix (isEncoded_congr_low hnpix hmark) (lengthField_congr_low hnpix hcfg hlen))

include hs hs' in
/-- Two DECODEs that end OK with one length on pixels that agree up to the payload's end leave the same payload. -/
theorem exec_decode_payload_congr (ht : exec .decode s = .next t) (ht' : exec .decode s' = .next t')
    (hr : t.result = .ok) (hr' : t'.result = .ok) (hl : t'.len = t.len)
    (h : SameLow s s' 0 (hdrPixels t.len + 4 * t.len)) {i : Nat} (hi : i < t.len) : t'.payAt i = t.payAt i := by
  obtain ⟨_, _, _, hpay⟩ := exec_decode_payload hs ht hr
  obtain ⟨_, _, _, hpay'⟩ := exec_decode_payload hs' ht' hr'
  have hhdr := hdr_mod t.len
  rw [hpay i hi, hpay' i (hl ▸ hi), hl]
  exact charAt_congr_low (h.mono (by omega) (by omega))

include hs hs' hnpix in
/-- ENCODE's RESULT depends on NPIX and PLEN (R64, R121). -/
theorem exec_encode_congr (ht : exec .encode s = .next t) (ht' : exec .encode s' = .next t') (hp : s'.plen = s.plen) :
    t'.result = t.result := by
  refine (exec_same_registers hs hs' ht ht' ?_).1
  simp only [State.reportOf, State.encodeReport, hnpix, hp]

include hs hs' hnpix in
/-- The pixels 0 .. REQ-1 that an ENCODE leaves depend on what they held and on PAY[0 .. PLEN-1] (R64). -/
theorem exec_encode_pixel_congr (ht : exec .encode s = .next t) (ht' : exec .encode s' = .next t')
    (hp : s'.plen = s.plen) (hr : t.result = .ok) (hpix : ∀ n, n < reqPixels s.plen → s'.pixel n = s.pixel n)
    (hpay : ∀ i, i < s.plen → s'.payAt i = s.payAt i) {n : Nat} (hn : n < reqPixels s.plen) :
    t'.pixel n = t.pixel n := by
  obtain ⟨_, _, hresult, _⟩ := (exec_endsWith hs ht).registers
  have hfit := (encodeReport_ok_iff s).1 (hresult.symm.trans hr)
  obtain ⟨_, hin, _⟩ := exec_encode_memory hs ht
  obtain ⟨_, hin', _⟩ := exec_encode_memory hs' ht'
  rw [hin n (by omega), hin' n (by omega)]
  unfold State.encodedPixel
  rw [hnpix, hp, hpix n hn, fsym_congr_payload hp hpay hn]

include hs hs' hnpix in
/-- A DECODE that ends NOT_ENCODED has read the pixels 0 .. 35 at most (R64). -/
theorem exec_decode_notEncoded_congr (ht : exec .decode s = .next t) (ht' : exec .decode s' = .next t')
    (hr : t.result = .notEncoded) (h : 36 ≤ s.npix → SameLow s s' 0 36) :
    t'.result = t.result ∧ t'.cause = t.cause ∧ t'.enc = t.enc ∧ t'.len = t.len := by
  obtain ⟨_, _, hresult, _⟩ := (exec_endsWith hs ht).registers
  have hm := (decodeReport_notEncoded_iff s).1 (hresult.symm.trans hr)
  have hm' : s'.isEncoded = false := (isEncoded_congr_low hnpix h).trans hm
  refine exec_same_registers hs hs' ht ht' ?_
  simp only [State.reportOf, State.decodeReport, hm, hm', Bool.false_eq_true, if_false]

include hs hs' hcfg hnpix in
/-- A DECODE that ends OK has read the pixels 0 .. HDR + 4 L - 1 (R64). -/
theorem exec_decode_ok_congr (ht : exec .decode s = .next t) (ht' : exec .decode s' = .next t')
    (hr : t.result = .ok) (h : SameLow s s' 0 (hdrPixels t.len + 4 * t.len)) :
    t'.result = .ok ∧ t'.enc = true ∧ t'.len = t.len ∧ ∀ i, i < t.len → t'.payAt i = t.payAt i := by
  obtain ⟨hm, hl, _⟩ := exec_decode_payload hs ht hr
  have hend := scanEnd_of_lengthField hl
  have h36 : 36 ≤ hdrPixels t.len := Nat.le_add_right 36 _
  obtain ⟨hresult, _, _, hlen⟩ := exec_reader_congr hs hs' hcfg hnpix (by decide) ht ht'
    (fun _ => h.mono (Nat.le_refl 0) (by omega)) (h.mono (Nat.zero_le 36) (by omega))
  have hr' := hresult.trans hr
  obtain ⟨hm', _⟩ := exec_decode_payload hs' ht' hr'
  obtain ⟨_, _, _, _, henc', _⟩ := (exec_endsWith hs' ht').registers
  exact ⟨hr', henc'.trans ((decodeReport_row s').1.trans hm'), hlen,
    fun i hi => exec_decode_payload_congr hs hs' ht ht' hr hr' hlen h hi⟩

end TwoRuns

/-- Settles O32: the marker, the length field and the payload are characters of the grid, so they see its low bits only. -/
theorem readersDependOnLowBitsOnly : Obligations.ReadersDependOnLowBitsOnly := by
  intro i s s' t t' hs hs' hi hcfg hgw hgh hlow ht ht'
  have hnpix : s'.npix = s.npix := by rw [State.npix, State.npix, hgw, hgh]
  have h : SameLow s s' 0 s.npix := fun n _ hn => hlow n hn
  obtain ⟨hresult, hcause, henc, hlen⟩ := exec_reader_congr hs hs' hcfg hnpix hi ht ht'
    (h.mono (Nat.le_refl 0)) (h.mono (Nat.zero_le 36) (scanEnd_le_npix s))
  refine ⟨hresult, hcause, henc, hlen, ?_⟩
  rintro rfl hr i hil
  obtain ⟨_, _, hfit, _⟩ := exec_decode_payload hs ht hr
  exact exec_decode_payload_congr hs hs' ht ht' hr (hresult.trans hr) hlen (h.mono (Nat.le_refl 0) hfit) hil

/-- Pixels that agree have low bits that agree. -/
theorem SameLow.of_pixel {s t : State} {a b : Nat} (h : ∀ n, a ≤ n → n < b → t.pixel n = s.pixel n) : SameLow s t a b :=
  fun n ha hb => congrArg extract (h n ha hb)

/-- Settles O33: each operation's report and writes are functions of its row of R64. -/
theorem outcomeDependsOnItsFootprint : Obligations.OutcomeDependsOnItsFootprint := by
  intro s s' t t' hs hs' hcfg hgw hgh
  have hnpix : s'.npix = s.npix := by rw [State.npix, State.npix, hgw, hgh]
  refine ⟨fun ht ht' hp => ⟨exec_encode_congr hs hs' hnpix ht ht' hp, fun hr hpix hpay n hn =>
      exec_encode_pixel_congr hs hs' hnpix ht ht' hp hr hpix hpay hn⟩,
    fun hpix ht ht' => ?_, fun hpix ht ht' => ?_, fun ht ht' hr hpix => ?_, fun ht ht' hr hpix => ?_,
    fun ht ht' hr hpix => exec_decode_ok_congr hs hs' hcfg hnpix ht ht' hr (.of_pixel fun n _ => hpix n)⟩
  · have he := isEncoded_congr_low hnpix fun h36 => .of_pixel fun n _ => hpix h36 n
    obtain ⟨hresult, _, henc, _⟩ := exec_same_registers hs hs' ht ht'
      (by simp only [State.reportOf, State.detectReport, he])
    exact ⟨henc, hresult⟩
  · have hl := lengthField_congr_low hnpix hcfg (.of_pixel hpix)
    obtain ⟨hresult, hcause, _, hlen⟩ := exec_same_registers hs hs' ht ht'
      (by simp only [State.reportOf, State.getlenReport, hl])
    exact ⟨hresult, hcause, hlen⟩
  · obtain ⟨hresult, hrest⟩ := exec_decode_notEncoded_congr hs hs' hnpix ht ht' hr
      fun h36 => .of_pixel fun n _ => hpix h36 n
    exact ⟨hresult.trans hr, hrest⟩
  · have h : SameLow s s' 0 s.scanEnd := .of_pixel fun n _ => hpix n
    obtain ⟨hresult, hrest⟩ := exec_reader_congr hs hs' hcfg hnpix (by decide) ht ht'
      (fun h36 => h.mono (Nat.le_refl 0) (le_scanEnd h36)) (h.mono (Nat.zero_le 36) (Nat.le_refl _))
    exact ⟨hresult.trans hr, hrest⟩

end Sys2Proof.Machine
end

section
/-! PROOFS. The command word (30_encoding.md R90, R91): decoder and encoder are inverse on the two bits, hence on a byte
whose other bits are clear, and a step at a command line runs the operation its byte decodes to (R93). -/

namespace Sys2Proof.Machine

/-! ## The two bits of the command word -/

/-- All four values of OPC are defined, each by one operation (R91). -/
theorem encodeCmd_decodeCmd (w : CmdWord) : encodeCmd (decodeCmd w) = w := by
  revert w; decide

/-- Settles O6: the four rows of R90, and `encodeCmd_decodeCmd` for R91. -/
theorem commandWordsDecode : Obligations.CommandWordsDecode :=
  ⟨by decide, by decide, by decide, by decide, encodeCmd_decodeCmd⟩

/-! ## The byte that carries them (log 9) -/

theorem commandByteWellFormed_iff (b : BitVec 8) : commandByteWellFormed b = true ↔ b.extractLsb' 2 6 = 0#6 := by
  have hb := b.isLt
  simp only [commandByteWellFormed, decide_eq_true_eq, BitVec.toNat_eq, BitVec.extractLsb'_toNat,
    Nat.shiftRight_eq_div_pow, BitVec.toNat_ofNat]
  omega

/-- A byte whose upper six bits are clear is its low two bits. -/
theorem setWidth_low_bits {b : BitVec 8} (h : commandByteWellFormed b = true) :
    (b.extractLsb' 0 2).setWidth 8 = b := by
  have hb : b.toNat < 4 := of_decide_eq_true h
  simp only [BitVec.toNat_eq, BitVec.toNat_setWidth, BitVec.extractLsb'_toNat, Nat.shiftRight_zero]
  omega

/-- A byte decodes to the operation i exactly when it is the command byte of i. -/
theorem decodeByte_eq_ok_iff {b : BitVec 8} {i : Instr} : decodeByte b = .ok i ↔ b = (encodeCmd i).setWidth 8 := by
  constructor
  · intro h
    unfold decodeByte at h
    split at h
    · next hhigh =>
      cases h
      rw [encodeCmd_decodeCmd, setWidth_low_bits ((commandByteWellFormed_iff b).2 hhigh)]
    · cases h
  · rintro rfl
    cases i <;> rfl

theorem encode_commandByteWellFormed (i : Instr) : commandByteWellFormed ((encodeCmd i).setWidth 8) = true := by
  cases i <;> rfl

/-- Settles O7: both directions of `decodeByte_eq_ok_iff`. -/
theorem decodeAndEncodeAgree : Obligations.DecodeAndEncodeAgree := by
  refine ⟨fun i rest _ => ?_, fun b i h => ?_⟩
  · have h : decodeByte ((encodeCmd i).setWidth 8) = .ok i := decodeByte_eq_ok_iff.2 rfl
    simp [encode, decodeBytes, h]
  · obtain rfl := decodeByte_eq_ok_iff.1 h
    exact ⟨rfl, encode_commandByteWellFormed i⟩

/-! ## The step at a command line (R93) -/

/-- `withFetchWord` puts the command byte of i in front of the host's moves. -/
theorem withFetchWord_host (s : State) (i : Instr) :
    (s.withFetchWord 8 (encodeCmd i).toNat).host = .command ((encodeCmd i).setWidth 8) :: s.host := by
  rw [State.withFetchWord, State.withCommand_host, BitVec.ofNat_toNat]

/-- Settles O8: the step lemmas of a command line, the third clause being the first at the command byte of i. -/
theorem stepRunsTheDecodedOperation : Obligations.StepRunsTheDecodedOperation :=
  ⟨fun _ _ _ _ => step_command_ok, fun _ _ _ _ => step_command_error,
    fun s i => step_command_ok (withFetchWord_host s i) (decodeByte_eq_ok_iff.2 rfl)⟩

end Sys2Proof.Machine
end

section
/-! PROOFS. The frame (30_encoding.md R80, R82, R84): its lengths, and the 36 symbols of the marker on the grid. -/

namespace Sys2Proof.Machine

/-! ## Lengths (R82) -/

theorem digits_pos (l : Nat) : 1 ≤ digits l := by
  by_cases h : l < 10
  · rw [digits_small h]
  · rw [digits_big (by omega)]; omega

theorem frame_length (p : List Ch) : (frame p).length = frameChars p.length := by
  have hm : marker.length = 9 := rfl
  simp only [frame, frameChars, digits, List.length_append, List.length_singleton, hm]
  omega

/-- Settles O19: REQ and HDR are linear in d and L (R82), and d is at least 1. -/
theorem frameLengths : Obligations.FrameLengths := by
  refine ⟨frame_length, fun l => ?_⟩
  have hd := digits_pos l
  simp only [reqPixels, hdrPixels, frameChars, true_and]
  omega

/-! ## SPLIT and JOIN are inverse (R100, R101) -/

theorem join_symOf (c : Ch) : join (symOf c 0) (symOf c 1) (symOf c 2) (symOf c 3) = c := by
  apply BitVec.eq_of_getLsbD_eq
  intro i hi
  simp (disch := decide) only [join, BitVec.getLsbD_append, symOf_getLsbD]
  interval_cases i <;> simp

theorem symOf_join (s0 s1 s2 s3 : Symbol) :
    symOf (join s0 s1 s2 s3) 0 = s0 ∧ symOf (join s0 s1 s2 s3) 1 = s1 ∧ symOf (join s0 s1 s2 s3) 2 = s2 ∧
      symOf (join s0 s1 s2 s3) 3 = s3 := by
  refine ⟨?_, ?_, ?_, ?_⟩ <;>
  · apply BitVec.eq_of_getLsbD_eq
    intro i hi
    simp (disch := decide) only [symOf_getLsbD]
    simp only [join, BitVec.getLsbD_append]
    interval_cases i <;> simp

theorem join_eq_iff {s0 s1 s2 s3 : Symbol} {c : Ch} :
    join s0 s1 s2 s3 = c ↔ s0 = symOf c 0 ∧ s1 = symOf c 1 ∧ s2 = symOf c 2 ∧ s3 = symOf c 3 := by
  constructor
  · rintro rfl
    obtain ⟨h0, h1, h2, h3⟩ := symOf_join s0 s1 s2 s3
    exact ⟨h0.symm, h1.symm, h2.symm, h3.symm⟩
  · rintro ⟨rfl, rfl, rfl, rfl⟩
    exact join_symOf c

/-! ## The marker on the grid (R84, R136) -/

/-- CHARAT(k) is c exactly when the pixels 4k .. 4k+3 carry SPLIT(c) (R104). -/
theorem charAt_eq_iff {s : State} {k : Nat} {c : Ch} :
    s.charAt k = c ↔ ∀ j, j < 4 → extract (s.pixel (4 * k + j)) = symOf c j := by
  rw [State.charAt, join_eq_iff]
  constructor
  · rintro ⟨h0, h1, h2, h3⟩ j hj
    interval_cases j
    · exact h0
    · exact h1
    · exact h2
    · exact h3
  · intro h
    exact ⟨h 0 (by decide), h 1 (by decide), h 2 (by decide), h 3 (by decide)⟩

/-- Symbol j of the k-th character of a string in its stream (R77). -/
theorem streamAt_char (str : List Ch) (k : Nat) {j : Nat} (hj : j < 4) :
    streamAt str (4 * k + j) = symOf (str.getD k 0#8) j := by
  rw [streamAt, show (4 * k + j) / 4 = k by omega, show (4 * k + j) % 4 = j by omega]

/-- The grid is encoded exactly when it has 36 pixels and they carry the stream of MARKER (R84). -/
theorem isEncoded_iff_symbols (s : State) :
    s.isEncoded = true ↔ 36 ≤ s.npix ∧ ∀ n, n < 36 → extract (s.pixel n) = streamAt marker n := by
  have hchars : s.isEncoded = true ↔ 36 ≤ s.npix ∧ ∀ k, k < 9 → s.charAt k = markerChar k := by
    simp [State.isEncoded]
  rw [hchars]
  refine and_congr_right fun _ => ⟨fun h n hn => ?_, fun h k hk => charAt_eq_iff.2 fun j hj => ?_⟩
  · have hj : n % 4 < 4 := Nat.mod_lt n (by decide)
    have hsym := charAt_eq_iff.1 (h (n / 4) (by omega)) (n % 4) hj
    rwa [Nat.div_add_mod] at hsym
  · rw [h _ (by omega), streamAt_char marker k hj]
    rfl

/-- Settles O21: the list is the stream of MARKER, so its n-th entry is the n-th symbol of `isEncoded_iff_symbols`. -/
theorem markerOnTheGrid : Obligations.MarkerOnTheGrid := by
  unfold Obligations.MarkerOnTheGrid
  intro symbols
  have hstream : (List.range 36).map (streamAt marker) = symbols := by decide
  refine ⟨hstream, fun s => (isEncoded_iff_symbols s).trans (and_congr_right fun _ => forall₂_congr fun n hn => ?_)⟩
  rw [← hstream, List.getElem?_map, List.getElem?_range hn, Option.map_some, Option.some_inj]
  exact eq_comm

end Sys2Proof.Machine
end

section
/-! PROOFS. The lines of a host script (30_encoding.md R93), each as the port moves it stands for: writes of PIX, writes of
PAY, and writes of GW, GH and PLEN. -/

namespace Sys2Proof.Machine

/-! ## Runs of the machine in parts -/

/-- A run that goes on is continued from the state it reaches. -/
theorem run_add (M : Host.Core) {a : Nat} (b : Nat) {u v : M.State} (h : M.run a u = .next v) :
    M.run (a + b) u = M.run b v := by
  induction a generalizing u with
  | zero => cases h; rw [Nat.zero_add]
  | succ a ih =>
    rw [Nat.succ_add]
    cases hu : M.step u with
    | next w => rw [run_succ M _ hu] at h ⊢; exact ih h
    | fault f => simp [Host.Core.run, hu] at h
    | refused r => simp [Host.Core.run, hu] at h

/-! ## Lists of port moves -/

section Moves
variable {s : State} {rest : List HostMove} (hb : s.busy = false)
include hb

/-- A register write that goes through (R23). -/
theorem step_csrWrite_idle {k v : Nat} (hm : s.host = .csrWrite k v :: rest) (hv : k < 6 → v < 2 ^ s.csrWidth k) :
    step s = .next ((s.setHost rest).csrWriteIdle k v) := by
  rw [step_csrWrite hm, State.csrWrite_idle (s := s.setHost rest) hb hv]

/-- Writes of PIX, the word at a pair given by `f`: each pair listed holds its word, and nothing else has changed. -/
theorem run_pixWrites (f : Nat × Nat → Pixel) {places : List (Nat × Nat)}
    (hp : ∀ p ∈ places, s.pairInSpace p.1 p.2 = true)
    (hm : s.host = places.map (fun p => .pixWrite p.1 p.2 (f p)) ++ rest) :
    ∃ t, Host.Core.run Sys2Proof.core places.length s = .next t ∧ t = { s with pix := t.pix, host := rest } ∧
      ∀ x y, t.pixAt x y = if (x, y) ∈ places then f (x, y) else s.pixAt x y := by
  induction places generalizing s with
  | nil => exact ⟨s, rfl, (setHost_back hm []).symm, fun x y => by simp⟩
  | cons p places ih =>
    have hstep := step_pixWrite_idle hb hm (hp p List.mem_cons_self)
    obtain ⟨t, hrun, hframe, hread⟩ := ih (s := (s.setHost (places.map _ ++ rest)).setPix p.1 p.2 (f p)) hb
      (fun q hq => hp q (List.mem_cons_of_mem p hq)) rfl
    refine ⟨t, (core_run_succ _ hstep).trans hrun, hframe, fun x y => ?_⟩
    rw [hread x y]
    by_cases hxy : (x, y) = p
    · subst hxy
      simp [State.setPix_pixAt_same]
    · rw [State.setPix_pixAt_other _ hxy]
      simp [hxy]

/-- Writes of PAY, the character at an index given by `f`: each index listed holds its character, and nothing else has
changed. -/
theorem run_payWrites (f : Nat → Ch) {indices : List Nat} (hi : ∀ i ∈ indices, i < s.lmax)
    (hm : s.host = indices.map (fun i => .payWrite i (f i)) ++ rest) :
    ∃ t, Host.Core.run Sys2Proof.core indices.length s = .next t ∧ t = { s with pay := t.pay, host := rest } ∧
      ∀ j, t.payAt j = if j ∈ indices then f j else s.payAt j := by
  induction indices generalizing s with
  | nil => exact ⟨s, rfl, (setHost_back hm []).symm, fun j => by simp⟩
  | cons i indices ih =>
    have hstep := step_payWrite_idle hb hm (hi i List.mem_cons_self)
    obtain ⟨t, hrun, hframe, hread⟩ := ih (s := (s.setHost (indices.map _ ++ rest)).setPay i (f i)) hb
      (fun q hq => hi q (List.mem_cons_of_mem i hq)) rfl
    refine ⟨t, (core_run_succ _ hstep).trans hrun, hframe, fun j => ?_⟩
    rw [hread j]
    by_cases hj : j = i
    · subst hj
      simp [State.setPay_payAt_same]
    · rw [State.setPay_payAt_other _ hj]
      simp [hj]

/-- The two register writes of a SETDIM (R93, R178 step 2). -/
theorem run_dimMoves {w h : Nat} (hw : w < 2 ^ s.cfg.dw) (hh : h < 2 ^ s.cfg.dw)
    (hm : s.host = dimMoves w h ++ rest) :
    Host.Core.run Sys2Proof.core 2 s = .next { s with gw := w, gh := h, host := rest } := by
  have hwidth : step s = .next { s with gw := w, host := .csrWrite 1 h :: rest } :=
    step_csrWrite_idle hb hm fun _ => hw
  have hheight := step_csrWrite_idle (s := { s with gw := w, host := .csrWrite 1 h :: rest }) hb rfl fun _ => hh
  exact (core_run_succ 1 hwidth).trans (core_run_succ 0 hheight)

/-- The moves that load a text (R93, R178 step 3). -/
theorem run_textMoves {text : List Ch} (hl : text.length ≤ s.lmax) (hm : s.host = textMoves text ++ rest) :
    ∃ t, Host.Core.run Sys2Proof.core (text.length + 1) s = .next t ∧
      t = { s with pay := t.pay, plen := text.length, host := rest } ∧
      ∀ j, t.payAt j = if j < text.length then text.getD j 0#8 else s.payAt j := by
  rw [textMoves, List.append_assoc] at hm
  obtain ⟨u, hrun, hframe, hread⟩ := run_payWrites hb (fun i => text.getD i 0#8)
    (fun i hi => (List.mem_range.1 hi).trans_le hl) hm
  rw [List.length_range] at hrun
  have hfit : text.length < 2 ^ s.cfg.lw := by have := @lmax_succ s; omega
  have hlast := step_csrWrite_idle (s := u) (k := 2) (v := text.length) (rest := rest) (by rw [hframe]; exact hb)
    (by rw [hframe]; rfl) (fun _ => by rw [hframe]; exact hfit)
  refine ⟨_, (run_add _ 1 hrun).trans (core_run_succ 0 hlast), ?_, fun j => ?_⟩
  · rw [hframe]; rfl
  · show u.payAt j = _
    rw [hread j]
    simp only [List.mem_range]

end Moves

/-! ## The lines (R93) -/

/-- The places a FILL writes are the valid pairs (R52). -/
theorem mem_map_coord_iff {s : State} {x y : Nat} :
    (x, y) ∈ (List.range s.npix).map s.coord ↔ s.validPair x y = true := by
  rw [List.mem_map]
  constructor
  · rintro ⟨n, hn, hc⟩
    have hv := coord_valid (List.mem_range.1 hn)
    rwa [hc] at hv
  · intro hv
    obtain ⟨hlt, hc⟩ := idx_valid hv
    exact ⟨s.idx x y, List.mem_range.2 hlt, hc⟩

section Lines
variable {s : State} (hs : s.Ready)
include hs

theorem run_setDim {w h : Nat} (hm : s.host = [.line (.setDim w h)]) (hw : w < 2 ^ s.cfg.dw) (hh : h < 2 ^ s.cfg.dw) :
    Host.Core.run Sys2Proof.core 3 s = .next { s with gw := w, gh := h, host := [] } := by
  obtain ⟨_, hb⟩ := hs
  exact (core_run_succ 2 (step_line hm rfl)).trans
    (run_dimMoves (s := s.setHost (dimMoves w h)) hb hw hh rfl)

theorem run_loadPay {text : List Ch} (hm : s.host = [.line (.loadPay text)]) (hl : text.length ≤ s.lmax) :
    ∃ t, Host.Core.run Sys2Proof.core (text.length + 2) s = .next t ∧
      t = { s with pay := t.pay, plen := text.length, host := [] } ∧
      ∀ i, t.payAt i = if i < text.length then text.getD i 0#8 else s.payAt i := by
  obtain ⟨_, hb⟩ := hs
  obtain ⟨t, hrun, hframe, hread⟩ := run_textMoves (s := s.setHost (textMoves text ++ [])) hb hl rfl
  exact ⟨t, (core_run_succ _ (step_line hm rfl)).trans hrun, hframe, hread⟩

theorem run_fill {v : Pixel} (hm : s.host = [.line (.fill v)]) :
    ∃ t, Host.Core.run Sys2Proof.core (s.npix + 1) s = .next t ∧ t = { s with pix := t.pix, host := [] } ∧
      ∀ x y, t.pixAt x y = if s.validPair x y then v else s.pixAt x y := by
  obtain ⟨⟨hfit, _⟩, hb⟩ := hs
  have hexpand : (s.setHost []).expandLine (.fill v) =
      .ok (((List.range s.npix).map s.coord).map fun p => .pixWrite p.1 p.2 v) := by
    rw [List.map_map]
    rfl
  have hspace : ∀ p ∈ (List.range s.npix).map s.coord, s.pairInSpace p.1 p.2 = true := by
    simp only [List.mem_map, List.mem_range]
    rintro _ ⟨n, hn, rfl⟩
    exact coord_inSpace hfit hn
  obtain ⟨t, hrun, hframe, hread⟩ := run_pixWrites (s := s.setHost (List.map _ _ ++ [])) hb (fun _ => v)
    hspace rfl
  rw [List.length_map, List.length_range] at hrun
  refine ⟨t, (core_run_succ _ (step_line hm hexpand)).trans hrun, hframe, fun x y => ?_⟩
  rw [hread x y]
  simp only [mem_map_coord_iff]
  rfl

theorem run_setPix {n : Nat} {v : Pixel} (hm : s.host = [.line (.setPix n v)]) (hn : n < s.npix) :
    Host.Core.run Sys2Proof.core 2 s = .next ((s.setHost []).setPix (s.coord n).1 (s.coord n).2 v) := by
  obtain ⟨⟨hfit, _⟩, hb⟩ := hs
  have hwrite := step_pixWrite_idle (s := s.setHost [.pixWrite _ _ v]) hb rfl (coord_inSpace hfit hn)
  exact (core_run_succ 1 (step_line hm (if_pos hn))).trans (core_run_succ 0 hwrite)

theorem run_xorPix {n : Nat} {m : Pixel} (hm : s.host = [.line (.xorPix n m)]) (hn : n < s.npix) :
    Host.Core.run Sys2Proof.core 3 s = .next
      (((s.setHost []).setReply (.pixel (s.pixel n))).setPix (s.coord n).1 (s.coord n).2 (s.pixel n ^^^ m)) := by
  obtain ⟨⟨hfit, _⟩, hb⟩ := hs
  have hspace := coord_inSpace hfit hn
  have hread := step_pixRead_idle
    (s := s.setHost [.pixRead _ _, .pixWrite (s.coord n).1 (s.coord n).2 (s.pixel n ^^^ m)]) hb rfl hspace
  have hwrite := step_pixWrite_idle
    (s := (s.setHost [.pixWrite _ _ (s.pixel n ^^^ m)]).setReply (.pixel (s.pixel n))) hb rfl hspace
  exact (core_run_succ 2 (step_line hm (if_pos hn))).trans
    ((core_run_succ 1 hread).trans (core_run_succ 0 hwrite))

end Lines

/-- Settles O50: each line is the run of the moves it stands for, read back by the memory laws. -/
theorem scriptLinesDoWhatTheySay : Obligations.ScriptLinesDoWhatTheySay := by
  refine ⟨fun s w h hs hm hw hh => run_setDim hs hm hw hh, fun s text hs hm hl => ?_, fun s v hs hm => run_fill hs hm,
    fun s n v hs hm hn => ⟨_, run_setPix hs hm hn, rfl, (s.setHost []).setPix_pixel_same n v,
      fun x y h => (s.setHost []).setPix_pixAt_other h v⟩,
    fun s n m hs hm hn => ⟨_, run_xorPix hs hm hn, rfl, State.setPix_pixel_same _ n _,
      fun x y h => State.setPix_pixAt_other _ h _⟩⟩
  obtain ⟨t, hrun, hframe, hread⟩ := run_loadPay hs hm hl
  refine ⟨t, hrun, hframe, fun i hi => ?_, fun i hi => ?_⟩
  · rw [hread i, if_pos hi]
    simp [hi]
  · rw [hread i, if_neg (Nat.not_lt.2 hi)]

end Sys2Proof.Machine
end

section
/-! PROOFS. The primitive functions (40_primitives.md): the laws of symbols and pixels, and of decimal numerals, and the
frame character by character. -/

namespace Sys2Proof.Machine

/-! ## Symbols and pixels (R100 to R105) -/

/-- The two forms of SPLIT, by bit pairs and by shifts, are one function (R100). -/
theorem split_eq_symOf (c : Ch) : split c = [symOf c 0, symOf c 1, symOf c 2, symOf c 3] := by
  have hpair : ∀ j, j < 4 → c.extractLsb' (6 - 2 * j) 2 = symOf c j := fun j hj =>
    BitVec.eq_of_getLsbD_eq fun i _ => by rw [BitVec.getLsbD_extractLsb', symOf_getLsbD c j i hj]
  rw [← hpair 0 (by decide), ← hpair 1 (by decide), ← hpair 2 (by decide), ← hpair 3 (by decide)]
  rfl

theorem split_join (s0 s1 s2 s3 : Symbol) : split (join s0 s1 s2 s3) = [s0, s1, s2, s3] := by
  obtain ⟨h0, h1, h2, h3⟩ := symOf_join s0 s1 s2 s3
  rw [split_eq_symOf, h0, h1, h2, h3]

theorem extract_embed (p : Pixel) (c : Symbol) : extract (embed p c) = c := by
  apply BitVec.eq_of_getLsbD_eq
  intro i hi
  rw [extract_getLsbD, embed_getLsbD, if_pos hi, decide_eq_true hi, Bool.true_and]

theorem embed_extract (p : Pixel) : embed p (extract p) = p := by
  apply BitVec.eq_of_getLsbD_eq
  intro i _
  rw [embed_getLsbD, extract_getLsbD]
  split
  · next hi => rw [decide_eq_true hi, Bool.true_and]
  · rfl

/-- Settles O15: JOIN undoes SPLIT and back, and EMBED replaces exactly the two bits that EXTRACT reads. -/
theorem symbolAndPixelLaws : Obligations.SymbolAndPixelLaws :=
  ⟨split_eq_symOf, join_symOf, split_join, extract_embed, embed_upper, embed_extract, embed_embed⟩

/-! ## DEC and DIGITS (R106, R107) -/

/-- Settles O16: the recursions are `dec_small` and `dec_big`, and those of DIGITS count their characters. -/
theorem decimalNumeralRecursion : Obligations.DecimalNumeralRecursion :=
  ⟨rfl, fun _ _ h => dec_small (by omega), fun _ h => dec_big h, fun _ => rfl, rfl, fun _ h => digits_small (by omega),
    fun _ h => (digits_big h).trans (Nat.add_comm _ _)⟩

/-- Induction along the digits of a numeral: the numbers of one digit, then one digit more behind a positive number. -/
theorem digitInduction {P : Nat → Prop} (one : ∀ d, d < 10 → P d)
    (snoc : ∀ a d, 1 ≤ a → d < 10 → P a → P (10 * a + d)) (l : Nat) : P l := by
  induction l using Nat.strongRecOn with
  | ind l ih =>
    by_cases h : l < 10
    · exact one l h
    · have hs := snoc (l / 10) (l % 10) (by omega) (by omega) (ih _ (by omega))
      rwa [Nat.div_add_mod] at hs

theorem dec_snoc {a d : Nat} (ha : 1 ≤ a) (hd : d < 10) : dec (10 * a + d) = dec a ++ [digitChar d] := by
  rw [dec_big (by omega), show (10 * a + d) / 10 = a by omega, show (10 * a + d) % 10 = d by omega]

theorem dec_ne_nil (l : Nat) : dec l ≠ [] :=
  List.ne_nil_of_length_pos (digits_pos l)

/-! ## VAL and CANON of a numeral (R109 to R111) -/

theorem val_dec (l : Nat) : val (dec l) = l := by
  induction l using digitInduction with
  | one d hd =>
    rw [dec_small hd]
    exact (val_append [] (digitChar d)).trans ((Nat.zero_add _).trans (digitVal_digitChar d hd))
  | snoc a d ha hd ih => rw [dec_snoc ha hd, val_append, ih, digitVal_digitChar d hd]

/-- No leading zeros: only DEC(0) begins with `0` (R106). -/
theorem dec_head_ne_zero {l : Nat} (hl : 1 ≤ l) : (dec l).head? ≠ some 0x30#8 := by
  induction l using digitInduction with
  | one d hd =>
    rw [dec_small hd]
    intro h
    have hval := digitVal_digitChar d hd
    rw [show digitChar d = 0x30#8 from Option.some.inj h, show digitVal 0x30#8 = 0 from rfl] at hval
    omega
  | snoc a d ha hd ih =>
    rw [dec_snoc ha hd, List.head?_append_of_ne_nil _ (dec_ne_nil a)]
    exact ih ha

theorem canon_dec (l : Nat) : canon (dec l) = true := by
  induction l using digitInduction with
  | one d hd => simp [dec_small hd, canon, digitChar_isDigit d hd]
  | snoc a d ha hd ih =>
    rw [dec_snoc ha hd, canon_snoc (dec_ne_nil a), ih, digitChar_isDigit d hd, decide_eq_true (dec_head_ne_zero ha)]
    rfl

/-- A canonical numeral is the numeral of its value. -/
theorem dec_val {str : List Ch} (h : canon str = true) : dec (val str) = str := by
  induction str using List.reverseRecOn with
  | nil => cases h
  | append_singleton str c ih =>
    rw [val_append]
    by_cases hnil : str = []
    · subst hnil
      have hd : isDigit c = true := by simpa [canon] using h
      rw [show 10 * val [] + digitVal c = digitVal c from Nat.zero_add _, dec_small (digitVal_lt c hd),
        digitChar_digitVal c hd]
      rfl
    · rw [canon_snoc hnil] at h
      simp only [Bool.and_eq_true, decide_eq_true_eq] at h
      obtain ⟨⟨hcanon, hd⟩, hhead⟩ := h
      rw [dec_snoc ((digits_val_of_canon hcanon).2 hhead) (digitVal_lt c hd), ih hcanon, digitChar_digitVal c hd]

/-- "That is: s is DEC(v) for some natural v" (R110). -/
theorem canon_iff_exists_dec {str : List Ch} : canon str = true ↔ ∃ v, str = dec v :=
  ⟨fun h => ⟨val str, (dec_val h).symm⟩, fun ⟨v, hv⟩ => hv ▸ canon_dec v⟩

theorem isDigit_of_mem_dec {l : Nat} {c : Ch} (h : c ∈ dec l) : isDigit c = true := by
  have hcanon := canon_dec l
  simp only [canon, Bool.and_eq_true, List.all_eq_true] at hcanon
  obtain ⟨⟨_, hdigits⟩, _⟩ := hcanon
  exact hdigits c h

theorem ne_delim_of_mem_dec {l : Nat} {c : Ch} (h : c ∈ dec l) : c ≠ delim := by
  rintro rfl
  exact absurd (isDigit_of_mem_dec h) (by decide)

/-! ## PARSE (R108) -/

theorem parse_not_canon (lmax : Nat) {str : List Ch} (hne : str ≠ []) (h : canon str = false) :
    parse lmax str = .error .notDecimal := by
  simp [parse, hne, h]

theorem parse_dec (lmax v : Nat) : parse lmax (dec v) = if lmax < v then .error .range else .ok v := by
  simp [parse, dec_ne_nil, canon_dec, val_dec]

theorem parse_dec_ok {lmax v : Nat} (h : v ≤ lmax) : parse lmax (dec v) = .ok v :=
  (parse_dec lmax v).trans (if_neg (Nat.not_lt.2 h))

/-- Settles O17: DEC and VAL are inverse between the naturals and the canonical numerals, which hold digits only. -/
theorem decimalNumeralLaws : Obligations.DecimalNumeralLaws :=
  ⟨canon_dec, val_dec, fun _ _ => parse_dec_ok, fun _ h => ⟨dec_val h, (digits_val_of_canon h).1⟩,
    fun _ _ => ne_delim_of_mem_dec⟩

/-- Settles O18: a string is DEC of some natural exactly when it is canonical, and on DEC(v) PARSE compares v with LMAX. -/
theorem parseIsDecidedByTheNumeral : Obligations.ParseIsDecidedByTheNumeral := by
  refine fun lmax => ⟨rfl, fun s hne hno => ?_, fun v hv => (parse_dec lmax v).trans (if_pos hv), fun _ => parse_dec_ok⟩
  have hcanon : ¬ canon s = true := fun h =>
    let ⟨v, hv⟩ := canon_iff_exists_dec.1 h
    hno v hv
  exact parse_not_canon lmax hne (Bool.eq_false_iff.2 hcanon)

/-! ## FCHAR by its four ranges (R113) -/

section Fchar
variable (s : State)

theorem fchar_marker {k : Nat} (h : k < 9) : s.fchar k = markerChar k := if_pos h

theorem fchar_digit {k : Nat} (h : k < digits s.plen) : (dec s.plen)[k]? = some (s.fchar (9 + k)) := by
  rw [State.fchar, if_neg (by omega), if_pos (by omega), Nat.add_sub_cancel_left, List.getD_eq_getElem?_getD,
    List.getElem?_eq_getElem h]
  rfl

theorem fchar_delim : s.fchar (9 + digits s.plen) = delim := by
  rw [State.fchar, if_neg (by omega), if_neg (by omega), if_pos rfl]

theorem fchar_payload (i : Nat) : s.fchar (10 + digits s.plen + i) = s.payAt i := by
  rw [State.fchar, if_neg (by omega), if_neg (by omega), if_neg (by omega),
    show 10 + digits s.plen + i - 10 - digits s.plen = i by omega]

end Fchar

/-! ## The frame as a list (R80) -/

section FrameList
variable (s : State)

theorem payText_length (l : Nat) : (s.payText l).length = l := by
  rw [State.payText, List.length_map, List.length_range]

theorem payText_getElem? {l i : Nat} (h : i < l) : (s.payText l)[i]? = some (s.payAt i) := by
  rw [State.payText, List.getElem?_map, List.getElem?_range h, Option.map_some]

theorem frame_payText (l : Nat) : frame (s.payText l) = marker ++ (dec l ++ delim :: s.payText l) := by
  simp [frame, payText_length]

/-- FCHAR(k) is the k-th character of the frame: one case per part of the list. -/
theorem frame_getElem? {k : Nat} (h : k < frameChars s.plen) :
    (frame (s.payText s.plen))[k]? = some (s.fchar k) := by
  have hmarker : marker.length = 9 := rfl
  have hdec : (dec s.plen).length = digits s.plen := rfl
  unfold frameChars at h
  rw [frame_payText]
  by_cases h9 : k < 9
  · rw [List.getElem?_append_left h9, fchar_marker s h9, markerChar, List.getD_eq_getElem?_getD,
      List.getElem?_eq_getElem h9]
    rfl
  · obtain ⟨k, rfl⟩ := Nat.exists_eq_add_of_le (Nat.not_lt.1 h9)
    rw [List.getElem?_append_right (by omega), hmarker, Nat.add_sub_cancel_left]
    rcases Nat.lt_trichotomy k (digits s.plen) with hd | rfl | hd
    · rw [List.getElem?_append_left hd, fchar_digit s hd]
    · rw [List.getElem?_append_right (Nat.le_of_eq hdec), hdec, Nat.sub_self, fchar_delim]
      rfl
    · obtain ⟨i, rfl⟩ := Nat.exists_eq_add_of_lt hd
      rw [List.getElem?_append_right (by omega), hdec, show digits s.plen + i + 1 - digits s.plen = i + 1 by omega,
        List.getElem?_cons_succ, payText_getElem? s (by omega),
        show 9 + (digits s.plen + i + 1) = 10 + digits s.plen + i by omega, fchar_payload]

theorem fsym_eq_streamAt {n : Nat} (h : n < reqPixels s.plen) :
    s.fsym n = streamAt (frame (s.payText s.plen)) n := by
  unfold reqPixels at h
  rw [streamAt, List.getD_eq_getElem?_getD, frame_getElem? s (by omega)]
  rfl

end FrameList

/-- Settles O20: the ranges of FCHAR are the parts of the frame's list, and FSYM reads its stream. -/
theorem frameCharacterByCharacter : Obligations.FrameCharacterByCharacter := by
  refine fun s => ⟨fun _ => frame_getElem? s, fun _ => fchar_marker s, fun k h9 hk => ?_, fchar_delim s,
    fun i _ => fchar_payload s i, fun _ hn => ⟨rfl, fsym_eq_streamAt s hn⟩⟩
  obtain ⟨j, rfl⟩ := Nat.exists_eq_add_of_le h9
  rw [Nat.add_sub_cancel_left]
  exact fchar_digit s (by omega)

end Sys2Proof.Machine
end

section
/-! PROOFS. ENCODE (41_encode.md): its result and its grid (R121), the capacity boundary (R122), and the frame that the
grid spells afterwards (R130). -/

namespace Sys2Proof.Machine

/-! ## The result and the grid (R121) -/

/-- The capacity test fails before any pixel is touched (R123). -/
theorem exec_encode_small_pix {s t : State} (hb : s.busy = false) (hlt : s.npix < reqPixels s.plen)
    (ht : exec .encode s = .next t) : t.pix = s.pix := by
  cases (exec_encode_small hb hlt).symm.trans ht
  rfl

theorem encodedPixel_of_fits {s : State} (hr : reqPixels s.plen ≤ s.npix) (n : Nat) :
    s.encodedPixel n = if n < reqPixels s.plen then embed (s.pixel n) (s.fsym n) else s.pixel n :=
  if_neg (Nat.not_lt.2 hr)

/-- Settles O22: ENCODE ends with its report (`exec_encode_report`) and its writes are those of `exec_encode_memory`. -/
theorem encodeIsItsFunction : Obligations.EncodeIsItsFunction := by
  intro s hs
  obtain ⟨t, ht, hend⟩ := exec_encode_report hs
  obtain ⟨hpay, hin, hout⟩ := exec_encode_memory hs ht
  exact ⟨t, ht, hend, fun hlt => exec_encode_small_pix hs.2 hlt ht,
    fun hr n hn => (hin n hn).trans (encodedPixel_of_fits hr n), hout, hpay⟩

/-! ## The capacity boundary (R122) -/

theorem reqPixels_eq (l : Nat) : reqPixels l = 4 * (9 + digits l + 1 + l) := by
  unfold reqPixels frameChars
  omega

theorem encodeReport_insufficient_iff (s : State) :
    s.encodeReport.result = .insufficientCapacity ↔ s.npix < reqPixels s.plen := by
  unfold State.encodeReport
  by_cases h : s.npix < reqPixels s.plen
  · simp [h]
  · simp [h]

/-- The RESULT of an ENCODE is that of its report. -/
theorem exec_encode_result {s t : State} (hs : s.Ready) (ht : exec .encode s = .next t) :
    t.result = s.encodeReport.result := by
  obtain ⟨_, _, hresult, _⟩ := (exec_endsWith hs ht).registers
  exact hresult

theorem exec_encode_ok_iff {s t : State} (hs : s.Ready) (ht : exec .encode s = .next t) :
    t.result = .ok ↔ reqPixels s.plen ≤ s.npix := by
  rw [exec_encode_result hs ht, encodeReport_ok_iff]

theorem exec_encode_insufficient_iff {s t : State} (hs : s.Ready) (ht : exec .encode s = .next t) :
    t.result = .insufficientCapacity ↔ s.npix < reqPixels s.plen := by
  rw [exec_encode_result hs ht, encodeReport_insufficient_iff]

/-- Settles O28: the RESULT compares NPIX with REQ, and REQ is 4 (9 + d + 1 + L) with d at least 1. -/
theorem capacityBoundary : Obligations.CapacityBoundary := by
  intro s t hs ht
  have hd := digits_pos s.plen
  have hreq := reqPixels_eq s.plen
  rw [← hreq]
  refine ⟨exec_encode_insufficient_iff hs ht, fun h => (exec_encode_ok_iff hs ht).2 h.ge, fun h => ?_, rfl,
    by omega, by omega⟩
  have hlt : s.npix < reqPixels s.plen := by omega
  exact ⟨(exec_encode_insufficient_iff hs ht).2 hlt, exec_encode_small_pix hs.2 hlt ht⟩

/-! ## The frame on the grid (R130) -/

/-- Symbol j of the k-th character of the frame (R113). -/
theorem fsym_char (s : State) (k : Nat) {j : Nat} (hj : j < 4) : s.fsym (4 * k + j) = symOf (s.fchar k) j := by
  rw [State.fsym, show (4 * k + j) / 4 = k by omega, show (4 * k + j) % 4 = j by omega]

/-- Each of the pixels 0 .. REQ-1 that an ENCODE ending OK left carries its symbol of the frame. -/
theorem extract_pixel_encoded {s t : State} (hs : s.Ready) (ht : exec .encode s = .next t) (hok : t.result = .ok)
    {n : Nat} (hn : n < reqPixels s.plen) : extract (t.pixel n) = s.fsym n := by
  have hr := (exec_encode_ok_iff hs ht).1 hok
  obtain ⟨_, hin, _⟩ := exec_encode_memory hs ht
  rw [hin n (by omega), encodedPixel_of_fits hr, if_pos hn, extract_embed]

/-- CHARAT(k) = FCHAR(k) on every grid that holds the pixels an ENCODE ending OK left. -/
theorem charAt_eq_fchar {s t s' : State} (hs : s.Ready) (ht : exec .encode s = .next t) (hok : t.result = .ok)
    (hkeep : ∀ n, n < reqPixels s.plen → s'.pixel n = t.pixel n) {k : Nat} (hk : k < frameChars s.plen) :
    s'.charAt k = s.fchar k := by
  refine charAt_eq_iff.2 fun j hj => ?_
  have hn : 4 * k + j < reqPixels s.plen := by
    unfold reqPixels
    omega
  rw [hkeep _ hn, extract_pixel_encoded hs ht hok hn, fsym_char s k hj]

/-- Settles O34: the grid's characters are FCHAR (`charAt_eq_fchar`), and the other clauses are FCHAR's four ranges. -/
theorem gridSpellsTheFrame : Obligations.GridSpellsTheFrame := by
  intro s t s' hs ht hok _ hkeep
  have hchar : ∀ k, k < 10 + digits s.plen + s.plen → s'.charAt k = s.fchar k :=
    fun k => charAt_eq_fchar hs ht hok hkeep
  refine ⟨hchar, fun k hk => ?_, fun i hi => ?_, ?_, fun i hi => ?_⟩
  · rw [hchar k (by omega), fchar_marker s hk]
  · rw [hchar _ (by omega), fchar_digit s hi]
  · rw [hchar _ (by omega), fchar_delim]
    rfl
  · rw [hchar _ (by omega), fchar_payload]

end Sys2Proof.Machine
end

section
/-! PROOFS. DETECT (42_detect.md): its end, with ISENC written out (R136). -/

namespace Sys2Proof.Machine

/-- Settles O23: D_MARK's run (`exec_detect_ends`) leaves ENC = ISENC, which is by definition NPIX >= 36 and the nine
characters of MARKER. -/
theorem detectIsItsFunction : Obligations.DetectIsItsFunction := fun _ hs => exec_detect_ends hs.2

end Sys2Proof.Machine
end

section
/-! PROOFS. GETLEN (43_getlen.md): its end (R146), the closed form of the scan of the length field (R146, R104), and the
length and the marker that GETLEN and DETECT find after an ENCODE (R147, R89). -/

namespace Sys2Proof.Machine

/-! ## The end of GETLEN (R146) -/

/-- Settles O24: without a terminator the length field is EXHAUSTED, else it is PARSE of the string scanned, and
`exec_getlen_error` and `exec_getlen_ok` are GETLEN's end for the one and the other. -/
theorem getlenIsItsFunction : Obligations.GetlenIsItsFunction := by
  intro s hs
  cases hscan : s.scan with
  | none => exact exec_getlen_error hs.2 (lengthField_of_scan_none hscan)
  | some str =>
    have hfield := lengthField_of_scan_some hscan
    cases hparse : parse s.lmax str with
    | ok l => simpa only [hparse] using exec_getlen_ok hs.2 (hfield.trans hparse)
    | error c => simpa only [hparse] using exec_getlen_error hs.2 (hfield.trans hparse)

/-! ## The scan in closed form (R146) -/

/-- The n characters from character k on (R104). -/
def State.charsFrom (s : State) (k n : Nat) : List Ch := (List.range n).map fun i => s.charAt (k + i)

theorem charsFrom_succ (s : State) (k n : Nat) : s.charsFrom k (n + 1) = s.charAt k :: s.charsFrom (k + 1) n := by
  simp [State.charsFrom, List.range_succ_eq_map, Nat.add_assoc, Nat.add_comm 1]

/-- Character k + n is the first terminator from character k on, and lies inside the grid. -/
def State.TerminatesAfter (s : State) (k n : Nat) : Prop :=
  4 * (k + n) + 3 < s.npix ∧ s.charAt (k + n) = delim ∧ ∀ i, i < n → s.charAt (k + i) ≠ delim

/-- Past a character that is no terminator the terminator is one nearer. -/
theorem State.TerminatesAfter.tail {s : State} {k n : Nat} (h : s.TerminatesAfter k (n + 1)) :
    s.TerminatesAfter (k + 1) n := by
  obtain ⟨hin, hdelim, hfirst⟩ := h
  have hshift : ∀ i, k + 1 + i = k + (i + 1) := by omega
  unfold State.TerminatesAfter
  rw [hshift]
  exact ⟨hin, hdelim, fun i hi => hshift i ▸ hfirst (i + 1) (by omega)⟩

/-- The loop of R146 collects the characters before the first terminator, given a round for each and one more. -/
theorem scanFrom_of_terminatesAfter {s : State} {fuel k n : Nat} {acc : List Ch} (h : s.TerminatesAfter k n)
    (hfuel : n < fuel) : s.scanFrom fuel k acc = some (acc ++ s.charsFrom k n) := by
  induction fuel generalizing k n acc with
  | zero => omega
  | succ fuel ih =>
    have ⟨hin, hdelim, hfirst⟩ := h
    have havail : s.avail k = true := decide_eq_true (by omega)
    rw [State.scanFrom, if_pos havail]
    cases n with
    | zero =>
      have hk : s.charAt k = delim := hdelim
      rw [if_pos hk, State.charsFrom, List.range_zero, List.map_nil, List.append_nil]
    | succ n =>
      have hk : s.charAt k ≠ delim := hfirst 0 (by omega)
      rw [if_neg hk, ih h.tail (by omega), charsFrom_succ, List.append_assoc, List.singleton_append]

theorem scan_of_terminatesAfter {s : State} {n : Nat} (h : s.TerminatesAfter 9 n) : s.scan = some (s.charsFrom 9 n) :=
  scanFrom_of_terminatesAfter h (by obtain ⟨hin, _⟩ := h; omega)

/-- When some terminator lies inside the grid, one of them is the first. -/
theorem exists_terminatesAfter {s : State} {k : Nat} (h9 : 9 ≤ k) (hin : 4 * k + 3 < s.npix)
    (hdelim : s.charAt k = delim) : ∃ n, s.TerminatesAfter 9 n := by
  have hex : ∃ n, s.charAt (9 + n) = delim := ⟨k - 9, by rwa [Nat.add_sub_cancel' h9]⟩
  have hle : Nat.find hex ≤ k - 9 := Nat.find_min' hex (by rwa [Nat.add_sub_cancel' h9])
  exact ⟨Nat.find hex, by omega, Nat.find_spec hex, fun i => Nat.find_min hex⟩

/-- The scan ends exactly when a terminator lies inside the grid, and then with the characters before the first. -/
theorem scan_eq_some_iff {s : State} {str : List Ch} :
    s.scan = some str ↔ ∃ n, s.TerminatesAfter 9 n ∧ str = s.charsFrom 9 n := by
  constructor
  · intro h
    obtain ⟨j, hj, hin, hdelim, _⟩ := scanEnd_of_some h
    obtain ⟨n, hn⟩ := exists_terminatesAfter hj hin hdelim
    exact ⟨n, hn, Option.some.inj (h.symm.trans (scan_of_terminatesAfter hn))⟩
  · rintro ⟨n, hn, rfl⟩
    exact scan_of_terminatesAfter hn

theorem scan_eq_none_iff {s : State} :
    s.scan = none ↔ ∀ k, 9 ≤ k → 4 * k + 3 < s.npix → s.charAt k ≠ delim := by
  constructor
  · intro h k h9 hin hdelim
    obtain ⟨n, hn⟩ := exists_terminatesAfter h9 hin hdelim
    cases h.symm.trans (scan_of_terminatesAfter hn)
  · intro h
    refine Option.eq_none_iff_forall_ne_some.2 fun str hscan => ?_
    obtain ⟨j, hj, hin, hdelim, _⟩ := scanEnd_of_some hscan
    exact h j hj hin hdelim

/-- `TerminatesAfter` by the terminator's own place on the grid, as R146 counts its characters. -/
theorem terminatesAfter_sub_iff {s : State} {k : Nat} (h9 : 9 ≤ k) : s.TerminatesAfter 9 (k - 9) ↔
    4 * k + 3 < s.npix ∧ s.charAt k = delim ∧ ∀ j, 9 ≤ j → j < k → s.charAt j ≠ delim := by
  rw [State.TerminatesAfter, Nat.add_sub_cancel' h9]
  refine and_congr_right fun _ => and_congr_right fun _ => ⟨fun h j hj hjk => ?_,
    fun h i hi => h (9 + i) (by omega) (by omega)⟩
  have hchar := h (j - 9) (by omega)
  rwa [Nat.add_sub_cancel' hj] at hchar

/-- Settles O25: `scan_eq_some_iff` and `scan_eq_none_iff`, the number of characters scanned being k - 9. -/
theorem scanStopsAtTheFirstTerminator : Obligations.ScanStopsAtTheFirstTerminator := by
  refine fun s => ⟨fun str => scan_eq_some_iff.trans ⟨?_, ?_⟩, scan_eq_none_iff⟩
  · rintro ⟨n, hn, rfl⟩
    have h9 : 9 ≤ 9 + n := Nat.le_add_right 9 n
    have hsub : 9 + n - 9 = n := Nat.add_sub_cancel_left 9 n
    obtain ⟨hin, hdelim, hfirst⟩ := (terminatesAfter_sub_iff h9).1 (hsub.symm ▸ hn)
    exact ⟨9 + n, h9, hin, hdelim, hfirst, by rw [hsub, State.charsFrom]⟩
  · rintro ⟨k, h9, hin, hdelim, hfirst, rfl⟩
    exact ⟨k - 9, (terminatesAfter_sub_iff h9).2 ⟨hin, hdelim, hfirst⟩, rfl⟩

/-! ## The readers on a grid that holds a frame (R147, R89) -/

/-- The grid of u holds the frame of s's payload text from character 0 on (R80, R130). -/
def HoldsFrame (s u : State) : Prop :=
  reqPixels s.plen ≤ u.npix ∧ ∀ k, k < frameChars s.plen → u.charAt k = s.fchar k

/-- An ENCODE that ended OK leaves its frame on every grid that still has its pixels 0 .. REQ-1. -/
theorem holdsFrame_of_encode {s t u : State} (hs : s.Ready) (ht : exec .encode s = .next t) (hok : t.result = .ok)
    (hgw : u.gw = s.gw) (hgh : u.gh = s.gh) (hkeep : ∀ n, n < reqPixels s.plen → u.pixel n = t.pixel n) :
    HoldsFrame s u := by
  have hnpix : u.npix = s.npix := by rw [State.npix, State.npix, hgw, hgh]
  exact ⟨hnpix ▸ (exec_encode_ok_iff hs ht).1 hok, fun k => charAt_eq_fchar hs ht hok hkeep⟩

section HoldsFrame
variable {s u : State}

theorem HoldsFrame.isEncoded (h : HoldsFrame s u) : u.isEncoded = true := by
  obtain ⟨hreq, hchar⟩ := h
  unfold reqPixels frameChars at hreq
  rw [isEncoded_eq (by omega), List.all_eq_true]
  intro k hk
  have h9 : k < 9 := List.mem_range.1 hk
  rw [hchar k (by unfold frameChars; omega), fchar_marker s h9, decide_eq_true rfl]

/-- The characters from 9 on are the digits of DEC(PLEN) (R113). -/
theorem HoldsFrame.digit (h : HoldsFrame s u) {i : Nat} (hi : i < digits s.plen) :
    (dec s.plen)[i]? = some (u.charAt (9 + i)) := by
  obtain ⟨_, hchar⟩ := h
  rw [hchar _ (by unfold frameChars; omega), fchar_digit s hi]

/-- No digit of DEC(PLEN) is the terminator, so the first terminator is the one behind them. -/
theorem HoldsFrame.terminatesAfter (h : HoldsFrame s u) : u.TerminatesAfter 9 (digits s.plen) := by
  have ⟨hreq, hchar⟩ := h
  refine ⟨?_, ?_, fun i hi => ne_delim_of_mem_dec (List.mem_of_getElem? (h.digit hi))⟩
  · unfold reqPixels frameChars at hreq
    omega
  · rw [hchar _ (by unfold frameChars; omega), fchar_delim]

theorem HoldsFrame.charsFrom_eq_dec (h : HoldsFrame s u) : u.charsFrom 9 (digits s.plen) = dec s.plen := by
  have hlen : (u.charsFrom 9 (digits s.plen)).length = digits s.plen := by simp [State.charsFrom]
  refine List.ext_getElem? fun i => ?_
  by_cases hi : i < digits s.plen
  · rw [h.digit hi, State.charsFrom, List.getElem?_map, List.getElem?_range hi, Option.map_some]
  · rw [List.getElem?_eq_none (by omega), List.getElem?_eq_none (Nat.not_lt.1 hi)]

/-- The scan gives DEC(PLEN), and PARSE of it is PLEN, which is at most LMAX (R111). -/
theorem HoldsFrame.lengthField (h : HoldsFrame s u) (hplen : s.plen ≤ u.lmax) : u.lengthField = .ok s.plen := by
  have hscan := scan_of_terminatesAfter h.terminatesAfter
  rw [h.charsFrom_eq_dec] at hscan
  rw [lengthField_of_scan_some hscan, parse_dec_ok hplen]

end HoldsFrame

/-- PLEN fits its register, so it is at most LMAX = 2^LW - 1 (R23). -/
theorem plen_le_lmax {s : State} (hs : s.Ready) : s.plen ≤ s.lmax := by
  have hlt := ((Inv_iff s).1 hs.1).1.plen
  have hmax := @lmax_succ s
  omega

/-- Settles O35: the ENCODE's frame is still on the grid, so its marker is found and its length field parses to PLEN. -/
theorem lengthFidelity : Obligations.LengthFidelity := by
  intro s t s' hs ht hok hs' hcfg hgw hgh hkeep
  have hframe := holdsFrame_of_encode hs ht hok hgw hgh hkeep
  have hplen : s.plen ≤ s'.lmax := by
    rw [State.lmax, hcfg]
    exact plen_le_lmax hs
  obtain ⟨u, hu, hend, _⟩ := exec_getlen_ok hs'.2 (hframe.lengthField hplen)
  obtain ⟨v, hv, hend', _⟩ := exec_detect_ends hs'.2
  obtain ⟨_, _, hresult, _, _, hlen⟩ := hend.registers
  obtain ⟨_, _, hresult', _, henc, _⟩ := hend'.registers
  exact ⟨⟨u, hu, hresult, hlen⟩, v, hv, hresult', henc.trans hframe.isEncoded⟩

end Sys2Proof.Machine
end

section
/-! PROOFS. DECODE (44_decode.md): its end (R161), the round trip with ENCODE (R170), one flipped bit pair of the payload
(R173), and the cursor at the end of the header (R164, R152). -/

namespace Sys2Proof.Machine

/-! ## The end of DECODE (R161) -/

/-- Settles O26: the marker, the length field and the capacity test select one of DECODE's four ends, each of which has
its lemma (`exec_decode_unmarked`, `exec_decode_error`, `exec_decode_overrun`, `exec_decode_ok`). -/
theorem decodeIsItsFunction : Obligations.DecodeIsItsFunction := by
  intro s hs
  cases hm : s.isEncoded with
  | false =>
    obtain ⟨t, ht, hend, hpix, hpay⟩ := exec_decode_unmarked hs.2 hm
    exact ⟨t, ht, hpix, fun _ => ⟨hend, hpay⟩, nofun⟩
  | true =>
    cases hl : s.lengthField with
    | error c =>
      obtain ⟨t, ht, hend, hpix, hpay⟩ := exec_decode_error hs.2 hm hl
      exact ⟨t, ht, hpix, nofun, fun _ => ⟨hend, hpay⟩⟩
    | ok l =>
      dsimp only
      split
      · next hsmall =>
        obtain ⟨t, ht, hend, hpix, hpay⟩ := exec_decode_overrun hs hm hl hsmall
        exact ⟨t, ht, hpix, nofun, fun _ => ⟨hend, hpay⟩⟩
      · next hfit =>
        obtain ⟨t, ht, hend, hpix, hpay⟩ := exec_decode_ok hs hm hl (Nat.not_lt.1 hfit)
        exact ⟨t, ht, hpix, nofun, fun _ => ⟨hend, fun i hi => (hpay i).trans (if_pos hi),
          fun i hi => (hpay i).trans (if_neg (Nat.not_lt.2 hi))⟩⟩

/-! ## The round trip (R170) -/

/-- The payload begins at character 10 + d of the grid (R82). -/
theorem hdrPixels_div_four (l : Nat) : hdrPixels l / 4 = 10 + digits l := by
  unfold hdrPixels
  omega

theorem reqPixels_eq_hdrPixels_add (l : Nat) : reqPixels l = hdrPixels l + 4 * l := by
  rw [reqPixels_eq, hdrPixels]
  omega

/-- The characters behind the header are the payload text (R113). -/
theorem HoldsFrame.payload {s u : State} (h : HoldsFrame s u) {i : Nat} (hi : i < s.plen) :
    u.charAt (hdrPixels s.plen / 4 + i) = s.payAt i := by
  obtain ⟨_, hchar⟩ := h
  rw [hdrPixels_div_four, hchar _ (by unfold frameChars; omega), fchar_payload]

/-- Settles O36: the ENCODE's frame is still on the grid (`holdsFrame_of_encode`), so DECODE finds the marker, parses PLEN,
has the pixels for PLEN characters, and reads the payload text. -/
theorem decodeAfterEncodeGivesTheText : Obligations.DecodeAfterEncodeGivesTheText := by
  intro s t s' hs ht hok hs' hcfg hgw hgh hkeep
  have hframe := holdsFrame_of_encode hs ht hok hgw hgh hkeep
  have hplen : s.plen ≤ s'.lmax := by
    rw [State.lmax, hcfg]
    exact plen_le_lmax hs
  have ⟨hreq, _⟩ := hframe
  rw [reqPixels_eq_hdrPixels_add] at hreq
  obtain ⟨u, hu, hend, _, hpay⟩ := exec_decode_ok hs' hframe.isEncoded (hframe.lengthField hplen) hreq
  obtain ⟨_, _, hresult, _, henc, hlen⟩ := hend.registers
  refine ⟨u, hu, hresult, henc, hlen, fun i hi => ?_⟩
  rw [hpay i, if_pos hi, hframe.payload hi]

/-! ## One flipped bit pair (R173) -/

theorem extract_xor (p q : Pixel) : extract (p ^^^ q) = extract p ^^^ extract q := BitVec.extractLsb'_xor

theorem extract_setWidth (m : Symbol) : extract (m.setWidth 32) = m := by
  apply BitVec.eq_of_getLsbD_eq
  intro i hi
  rw [extract_getLsbD, BitVec.getLsbD_setWidth, decide_eq_true hi, decide_eq_true (by omega : i < 32), Bool.true_and,
    Bool.true_and]

theorem symOf_xor (a b : Ch) {j : Nat} (hj : j < 4) : symOf (a ^^^ b) j = symOf a j ^^^ symOf b j := by
  apply BitVec.eq_of_getLsbD_eq
  intro i hi
  rw [BitVec.getLsbD_xor]
  simp only [symOf_getLsbD _ _ _ hj, BitVec.getLsbD_xor, decide_eq_true hi, Bool.true_and]

/-- A symbol moved to place j of a character is its symbol j, and the other three are 0 (R100). -/
theorem symOf_shiftLeft (m : Symbol) {j k : Nat} (hj : j < 4) (hk : k < 4) :
    symOf (m.setWidth 8 <<< (6 - 2 * j)) k = if k = j then m else 0#2 := by
  apply BitVec.eq_of_getLsbD_eq
  intro i hi
  rw [symOf_getLsbD _ _ _ hk]
  interval_cases j <;> interval_cases k <;> interval_cases i <;> simp

/-- The grid with the low bits of pixel n xored by m (R173). -/
def State.flipPixel (s : State) (n : Nat) (m : Symbol) : State :=
  s.setPix (s.coord n).1 (s.coord n).2 (s.pixel n ^^^ m.setWidth 32)

section FlipPixel
variable {s : State} {n : Nat} (m : Symbol)

theorem flipPixel_ready (hs : s.Ready) (hn : n < s.npix) : (s.flipPixel n m).Ready := by
  obtain ⟨hinv, hb⟩ := hs
  have ⟨hfit, _⟩ := hinv
  exact ⟨setPixAt_inv hinv (coord_inSpace hfit hn) _, hb⟩

theorem extract_flipPixel_same : extract ((s.flipPixel n m).pixel n) = extract (s.pixel n) ^^^ m := by
  rw [State.flipPixel, State.setPix_pixel_same, extract_xor, extract_setWidth]

theorem extract_flipPixel_other {k : Nat} (hk : k ≠ n) :
    extract ((s.flipPixel n m).pixel k) = extract (s.pixel k) := by
  rw [State.flipPixel, State.setPix_pixel_other s hk]

theorem sameLow_flipPixel {a b : Nat} (h : n < a ∨ b ≤ n) : SameLow s (s.flipPixel n m) a b :=
  fun _ _ _ => extract_flipPixel_other m (by omega)

/-- The character of pixel 4 k + j changes by m in the two bits that pixel carries (R103, R104). -/
theorem charAt_flipPixel_same {k j : Nat} (hj : j < 4) :
    (s.flipPixel (4 * k + j) m).charAt k = s.charAt k ^^^ (m.setWidth 8 <<< (6 - 2 * j)) := by
  refine charAt_eq_iff.2 fun i hi => ?_
  rw [symOf_xor _ _ hi, symOf_shiftLeft m hj hi, ← charAt_eq_iff.1 rfl i hi]
  by_cases hij : i = j
  · rw [if_pos hij, hij, extract_flipPixel_same]
  · rw [if_neg hij, extract_flipPixel_other m (by omega), BitVec.xor_zero]

/-- No other character changes. -/
theorem charAt_flipPixel_other {k : Nat} (hk : k ≠ n / 4) : (s.flipPixel n m).charAt k = s.charAt k :=
  charAt_congr_low (sameLow_flipPixel m (by omega))

/-- A pixel behind the header is seen neither by the marker nor by the length field (R64). -/
theorem flipPixel_header (hm : s.isEncoded = true) {l : Nat} (hl : s.lengthField = .ok l) (hn : hdrPixels l ≤ n) :
    (s.flipPixel n m).isEncoded = true ∧ (s.flipPixel n m).lengthField = .ok l := by
  have hend := scanEnd_of_lengthField hl
  have h36 : 36 ≤ hdrPixels l := Nat.le_add_right 36 _
  have hnpix : (s.flipPixel n m).npix = s.npix := rfl
  have hcfg : (s.flipPixel n m).cfg = s.cfg := rfl
  exact ⟨(isEncoded_congr_low hnpix fun _ => sameLow_flipPixel m (.inr (by omega))).trans hm,
    (lengthField_congr_low hnpix hcfg (sameLow_flipPixel m (.inr (by omega)))).trans hl⟩

end FlipPixel

/-- Settles O37: the header is as before (`flipPixel_header`), so DECODE ends alike, and PAY is the grid's characters, of
which only character HDR div 4 + i is another. -/
theorem oneFlippedPayloadPixel : Obligations.OneFlippedPayloadPixel := by
  intro s t i j m hs ht hr hi hj n s'
  obtain ⟨hm, hl, hfit, _⟩ := exec_decode_payload hs ht hr
  have hhdr := hdr_mod t.len
  have hn : n = 4 * (hdrPixels t.len / 4 + i) + j := by omega
  obtain ⟨hm', hl'⟩ := flipPixel_header (n := n) m hm hl (by omega)
  obtain ⟨v, hv, _, _, hpay⟩ := exec_decode_ok hs hm hl hfit
  cases hv.symm.trans ht
  obtain ⟨u, hu, hend, _, hpay'⟩ := exec_decode_ok (flipPixel_ready m hs (by omega)) hm' hl' hfit
  obtain ⟨_, _, hresult, _, henc, hlen⟩ := hend.registers
  refine ⟨u, hu, hresult, henc, hlen, ?_, fun k hk => ?_⟩
  · rw [hpay' i, hpay i, if_pos hi, if_pos hi, hn, charAt_flipPixel_same m hj]
  · rw [hpay' k, hpay k, charAt_flipPixel_other m (by omega)]
    rfl

/-! ## The cursor at the end of the header (R164, R152) -/

/-- A step of DECODE is a step of its phase (R32, R167). -/
theorem decodeStep_cases {s t : State} (h : decodeStep s = .ok t) :
    s.phase = .dMark ∧ markStep s = .ok t ∨ s.phase = .dLen ∧ lenStep s = .ok t ∨
      s.phase = .dBound ∧ t = boundStep s ∨ s.phase = .dXtr ∧ extractStep s = .ok t := by
  unfold decodeStep at h
  cases hp : s.phase <;> simp_all

theorem inv_dBound_op {s : State} (h : s.Inv) (hp : s.phase = .dBound) : decodeCmd s.op = .decode := by
  have hP := ((Inv_iff s).1 h).2
  unfold State.phaseCoherent at hP
  rw [hp] at hP
  obtain ⟨_, hop, _⟩ := hP
  exact hop

/-- In D_LEN the cursor is in the character behind the DCNT accumulated ones (R152). -/
theorem inv_dLen {s : State} (h : s.Inv) (hp : s.phase = .dLen) :
    36 + 4 * s.dcnt ≤ s.n ∧ s.n < 36 + 4 * s.dcnt + 4 := by
  have hP := ((Inv_iff s).1 h).2
  unfold State.phaseCoherent at hP
  rw [hp] at hP
  obtain ⟨_, _, hlow, hhigh, _⟩ := hP
  exact ⟨hlow, hhigh⟩

theorem lenTerminator_n (s : State) : (lenTerminator s).n = s.n := by
  unfold lenTerminator
  split
  · rfl
  · split
    · rfl
    · split
      · rfl
      · dsimp only
        split <;> rfl

theorem markClose_phase_ne_dBound (s : State) : (markClose s).phase ≠ .dBound := by
  unfold markClose
  split
  · nofun
  · split <;> nofun

theorem boundStep_phase_ne_dBound (s : State) : (boundStep s).phase ≠ .dBound := by
  unfold boundStep
  dsimp only
  split <;> nofun

/-- The only way into D_BOUND is the terminator of the length field (R210). -/
theorem decodeStep_into_dBound {s t : State} (h : decodeStep s = .ok t) (hp : t.phase = .dBound) :
    s.phase = .dLen ∧ t = lenTerminator s.afterSymbol := by
  obtain ⟨hs, h⟩ | ⟨hs, h⟩ | ⟨_, rfl⟩ | ⟨hs, h⟩ := decodeStep_cases h
  · obtain ⟨b, rfl⟩ | rfl | ⟨k, rfl⟩ := markStep_cases h
    · exact absurd hp (markClose_phase_ne_dBound _)
    · cases hs.symm.trans hp
    · cases hs.symm.trans ((s.afterSymbol.matchChar_phase k).symm.trans hp)
  · obtain rfl | rfl | rfl | rfl := lenStep_cases h
    · cases hp
    · cases hs.symm.trans hp
    · exact ⟨hs, rfl⟩
    · cases hs.symm.trans hp
  · exact absurd hp (boundStep_phase_ne_dBound s)
  · obtain rfl | rfl | ⟨i, c, rfl⟩ := extractStep_cases h
    · cases hp
    · cases hs.symm.trans hp
    · cases hs.symm.trans hp

theorem blockStep_decode {s : State} (ho : decodeCmd s.op = .decode) : blockStep s = decodeStep s := by
  simp only [blockStep, ho]

/-- D_BOUND sets HDR from the length, whichever way it goes on (R168). -/
theorem boundStep_hdr (s : State) : (boundStep s).hdr = hdrPixels s.len := by
  unfold boundStep
  dsimp only
  split <;> rfl

/-- Settles O43: the step into D_BOUND reads the last pixel of the character behind the DCNT digits, and the invariant at
D_BOUND puts the cursor at HDR, which `boundStep` writes. -/
theorem cursorReachesTheHeaderEnd : Obligations.CursorReachesTheHeaderEnd := by
  intro s t hs hb h
  refine ⟨fun hp => ?_, fun hp _ => ?_⟩
  · have ht := blockStep_inv hs hb h
    obtain ⟨hn, _⟩ := inv_dBound ht hp
    obtain ⟨_, _, _, _, hop, _⟩ := blockStep_kept h
    rw [blockStep_decode (hop ▸ inv_dBound_op ht hp)] at h
    obtain ⟨hlen, hterm⟩ := decodeStep_into_dBound h hp
    obtain ⟨hlow, hhigh⟩ := inv_dLen hs hlen
    have hnext : t.n = s.n + 1 := by
      rw [hterm, lenTerminator_n]
      rfl
    have hmod := hdr_mod t.len
    exact ⟨hn, by omega⟩
  · obtain ⟨hn, _⟩ := inv_dBound hs hp
    rw [blockStep_decode (inv_dBound_op hs hp), decodeStep, hp] at h
    cases h
    rw [boundStep_hdr]
    exact ⟨hn.symm, hdr_mod s.len, hdrPixels_div_four s.len⟩

end Sys2Proof.Machine
end

section
/-! PROOFS. The host's sequences around the cipher (45_host_collaborators.md R178, R179, R182): their scripts as runs of
the machine, what they report and give back, where they stop (log 23), and the round trip of the whole system. -/

namespace Sys2Proof.Machine

/-! ## Runs of the machine -/

/-- The first step of a run that goes on. -/
theorem core_run_succ_cases {k : Nat} {s t : State} (h : Host.Core.run Sys2Proof.core (k + 1) s = .next t) :
    ∃ u, step s = .next u ∧ Host.Core.run Sys2Proof.core k u = .next t := by
  cases hu : step s with
  | next u => exact ⟨u, rfl, (core_run_succ k hu).symm.trans h⟩
  | fault f => simp [Host.Core.run, Sys2Proof.core, hu] at h
  | refused r => simp [Host.Core.run, Sys2Proof.core, hu] at h

theorem core_run_inv {k : Nat} {s t : State} (hs : s.Inv) (h : Host.Core.run Sys2Proof.core k s = .next t) : t.Inv := by
  induction k generalizing s with
  | zero => cases h; exact hs
  | succ k ih =>
    obtain ⟨u, hu, hrun⟩ := core_run_succ_cases h
    exact ih (step_inv hs hu) hrun

/-- With no host move to come, none appears. -/
theorem core_run_host_nil {k : Nat} {s t : State} (hm : s.host = [])
    (h : Host.Core.run Sys2Proof.core k s = .next t) : t.host = [] := by
  rw [core_run_eq_runOp k hm] at h
  obtain ⟨_, _, _, _, _, hhost, _⟩ := runOp_kept (fun _ _ => blockStep_kept) h
  exact hhost.trans hm

/-- A script takes the machine's steps as long as host moves are left. -/
theorem runScript_of_run {k : Nat} (m : Nat) {s t : State} (h : Host.Core.run Sys2Proof.core k s = .next t)
    (ht : t.host ≠ []) : runScript (k + m) s = runScript m t := by
  induction k generalizing s with
  | zero => cases h; rw [Nat.zero_add]
  | succ k ih =>
    have hs : s.host ≠ [] := fun hm => ht (core_run_host_nil hm h)
    obtain ⟨u, hu, hrun⟩ := core_run_succ_cases h
    rw [Nat.succ_add, runScript_next _ hs hu, ih hrun]

/-! ## Sequences -/

/-- The command line that ends the script of a sequence (R178 step 4, R179 step 2). -/
abbrev commandLine (i : Instr) : HostMove := .command ((encodeCmd i).setWidth 8)

/-- The host's script is over, its last port read being that of STATUS (R93). -/
def State.polled (s : State) : State := (s.setHost []).setReply (.csr 4 (s.csrRead 4))

theorem poll_done {s : State} (hb : s.busy = false) (hd : s.done = true) : s.poll [] = .next s.polled := by
  simp [State.poll, State.polled, hb, hd]

/-- The fuel of a sequence's script is enough for its moves, the command line and the end of the wait. -/
theorem scriptBound_eq (s : State) (moves : List HostMove) (i : Instr) :
    scriptBound s (moves ++ [commandLine i]) = moves.length + (reqPixels s.plen + s.npix + 40 + 2) := by
  simp only [scriptBound, List.length_append, List.length_singleton]
  omega

/-- The last two steps of a script: the operation, and the poll that finds it ended. -/
theorem runScript_command {i : Instr} {l u : State} (hl : l.Ready) (hm : l.host = [commandLine i])
    (hu : exec i (l.setHost [.waitDone]) = .next u) (k : Nat) : runScript (k + 2) l = .ok u.polled := by
  obtain ⟨hbusy, hdone, _, _, _, _, _, _, _, _, _, hhost, _⟩ := exec_endsWith (s := l.setHost [.waitDone]) hl hu
  have hcommand : step l = .next u := (step_command_ok hm (decodeByte_eq_ok_iff.2 rfl)).trans hu
  have hpoll : step u = .next u.polled := (step_waitDone hhost).trans (poll_done hbusy hdone)
  rw [runScript_next _ (by simp [hm]) hcommand, runScript_next _ (by simp [hhost]) hpoll, runScript_done _ rfl]

section Sequence
variable {moves : List HostMove} {i : Instr} {s l : State}

/-- A sequence whose moves go through to a state that accepts its command: the operation runs there. -/
theorem runSequence_of_moves {u : State}
    (hrun : Host.Core.run Sys2Proof.core moves.length (s.setHost (moves ++ [commandLine i])) = .next l)
    (hl : l.Ready) (hm : l.host = [commandLine i]) (hu : exec i (l.setHost [.waitDone]) = .next u) :
    runSequence moves i s = match resultReport u.result u.cause with | none => .ok u.polled | some e => .error e := by
  refine runSequence_of_run (t := u.polled) ?_
  rw [scriptBound_eq, runScript_of_run _ hrun (by simp [hm])]
  exact runScript_command hl hm hu _

/-- A sequence that reaches a step the machine does not take, its script having moves left there. -/
theorem runSequence_of_stop {k : Nat} {e : HostError} (hk : k ≤ moves.length)
    (hrun : Host.Core.run Sys2Proof.core k (s.setHost (moves ++ [commandLine i])) = .next l) (hm : l.host ≠ [])
    (hstop : ∀ m, runScript (m + 1) l = .error e) : runSequence moves i s = .error e := by
  obtain ⟨m, hlen⟩ := Nat.exists_eq_add_of_le hk
  refine runSequence_of_error ?_
  rw [scriptBound_eq, hlen, Nat.add_assoc, runScript_of_run _ hrun hm]
  exact hstop _

theorem runSequence_of_refused {k : Nat} {r : Refusal} (hk : k ≤ moves.length)
    (hrun : Host.Core.run Sys2Proof.core k (s.setHost (moves ++ [commandLine i])) = .next l) (hm : l.host ≠ [])
    (hstep : step l = .refused r) : runSequence moves i s = .error (.machineRefused r) :=
  runSequence_of_stop hk hrun hm fun m => runScript_refused m hm hstep

end Sequence

/-! ## Loading the grid and the text (R178 steps 2 and 3) -/

/-- The block after the two dimensions are written, the moves `rest` being still to come. -/
def State.resized (s : State) (w h : Nat) (rest : List HostMove) : State := { s with gw := w, gh := h, host := rest }

/-- The grid's words are written at the valid pairs, in raster order (R178 step 2). -/
theorem gridMoves_resized (g : PixelGrid) (s : State) (rest : List HostMove) :
    gridMoves g = dimMoves g.width g.height ++
      ((List.range (g.width * g.height)).map (s.resized g.width g.height rest).coord).map
        fun p => .pixWrite p.1 p.2 (g.getPixel p.1 p.2) := by
  rw [List.map_map]
  rfl

/-- Loading a grid that fits leaves a block that holds it and accepts commands. -/
theorem run_gridMoves {g : PixelGrid} {s : State} {rest : List HostMove} (hs : s.Ready) (hfit : g.Fits s)
    (hm : s.host = gridMoves g ++ rest) :
    ∃ l : State, Host.Core.run Sys2Proof.core (gridMoves g).length s = .next l ∧ l.Ready ∧ l.Holds g ∧ l.cfg = s.cfg ∧
      l.host = rest := by
  obtain ⟨hinv, hb⟩ := hs
  obtain ⟨hw, hh⟩ := hfit
  rw [gridMoves_resized g s rest, List.append_assoc] at hm
  have hdim := run_dimMoves hb hw hh hm
  have hspace : ∀ p ∈ (List.range (g.width * g.height)).map (s.resized g.width g.height rest).coord,
      s.pairInSpace p.1 p.2 = true := by
    simp only [List.mem_map, List.mem_range]
    rintro _ ⟨n, hn, rfl⟩
    obtain ⟨hregs, _⟩ := core_run_inv hinv hdim
    exact coord_inSpace hregs hn
  obtain ⟨l, hrun, hframe, hread⟩ := run_pixWrites (s := s.resized g.width g.height _) hb _ hspace rfl
  have hall := (run_add _ _ hdim).trans hrun
  rw [← List.length_map (as := List.map _ _), show 2 = (dimMoves g.width g.height).length from rfl,
    ← List.length_append, ← gridMoves_resized g s rest] at hall
  refine ⟨l, hall, ⟨core_run_inv hinv hall, ?_⟩, ⟨?_, ?_, fun x y hx hy => ?_⟩, ?_, ?_⟩
  · rw [hframe]; exact hb
  · rw [hframe]; rfl
  · rw [hframe]; rfl
  · have hv : (s.resized g.width g.height rest).validPair x y = true := (validPair_iff _ x y).2 ⟨hx, hy⟩
    exact (hread x y).trans (if_pos (mem_map_coord_iff.2 hv))
  · rw [hframe]; rfl
  · rw [hframe]

/-- The block accepts ENCODE with the grid and the text loaded. -/
def TextLoaded (g : PixelGrid) (text : List Ch) (l : State) : Prop :=
  l.Ready ∧ l.Holds g ∧ l.plen = text.length ∧ l.payText text.length = text

theorem payText_eq_of_read {l : State} {text : List Ch} (h : ∀ i, i < text.length → l.payAt i = text.getD i 0#8) :
    l.payText text.length = text := by
  refine List.ext_getElem (payText_length l _) fun i _ hi => ?_
  simp [State.payText, h i hi, hi]

/-- Loading a grid that fits and a text that fits PAY. -/
theorem run_loadMoves {g : PixelGrid} {text : List Ch} {s : State} {rest : List HostMove} (hs : s.Ready)
    (hfit : g.Fits s) (hlen : text.length ≤ s.lmax) (hm : s.host = (gridMoves g ++ textMoves text) ++ rest) :
    ∃ l : State, Host.Core.run Sys2Proof.core (gridMoves g ++ textMoves text).length s = .next l ∧ TextLoaded g text l ∧
      l.host = rest := by
  rw [List.append_assoc] at hm
  obtain ⟨d, hgrid, ⟨_, hb⟩, ⟨hgw, hgh, hpix⟩, hcfg, hhost⟩ := run_gridMoves hs hfit hm
  have hmax : text.length ≤ d.lmax := by rw [State.lmax, hcfg]; exact hlen
  obtain ⟨l, htext, hframe, hread⟩ := run_textMoves hb hmax hhost
  have hall := (run_add _ _ hgrid).trans htext
  rw [← length_textMoves, ← List.length_append] at hall
  refine ⟨l, hall, ⟨⟨core_run_inv hs.1 hall, ?_⟩, ⟨?_, ?_, fun x y hx hy => ?_⟩, ?_, ?_⟩, ?_⟩
  · rw [hframe]; exact hb
  · rw [hframe]; exact hgw
  · rw [hframe]; exact hgh
  · rw [hframe]; exact hpix x y hx hy
  · rw [hframe]
  · exact payText_eq_of_read fun i hi => (hread i).trans (if_pos hi)
  · rw [hframe]

/-! ## The encode sequence (R178) -/

section Encode
variable {g : PixelGrid} {text : List Ch} {s l u : State}

/-- The encode sequence runs ENCODE on the loaded grid and text, and gives the grid back or reports ENCODE's RESULT. -/
theorem hostEncodeText_eq (hs : s.Ready) (hfit : g.Fits s) (hlen : text.length ≤ s.lmax) :
    ∃ l u, TextLoaded g text l ∧ exec .encode l = .next u ∧
      (u.result = .insufficientCapacity → hostEncodeText g text s = .error .insufficientCapacityError) ∧
      (u.result = .ok → hostEncodeText g text s = .ok (g.readBack u)) := by
  obtain ⟨l, hrun, hl, hm⟩ := run_loadMoves (rest := [commandLine .encode])
    (s := s.setHost (gridMoves g ++ textMoves text ++ [commandLine .encode])) hs hfit hlen rfl
  obtain ⟨u, hu⟩ := exec_goes_on .encode (setHost_inv hl.1.1 [.waitDone])
  have hend := runSequence_of_moves hrun hl.1 hm hu
  refine ⟨l.setHost [.waitDone], u, hl, hu, fun hr => ?_, fun hr => ?_⟩
  all_goals
    rw [hr] at hend
    rw [hostEncodeText, hend]
    rfl

theorem TextLoaded.result_ok_iff (hl : TextLoaded g text l) (hu : exec .encode l = .next u) :
    u.result = .ok ↔ reqPixels text.length ≤ g.width * g.height := by
  obtain ⟨hl, hgrid, hplen, _⟩ := hl
  rw [exec_encode_ok_iff hl hu, hplen, hgrid.npix]

theorem TextLoaded.result_insufficient_iff (hl : TextLoaded g text l) (hu : exec .encode l = .next u) :
    u.result = .insufficientCapacity ↔ g.width * g.height < reqPixels text.length := by
  obtain ⟨hl, hgrid, hplen, _⟩ := hl
  rw [exec_encode_insufficient_iff hl hu, hplen, hgrid.npix]

/-- ENCODE keeps the dimensions of the grid behind the port, so the grid read back is the one the block then holds. -/
theorem TextLoaded.holds_readBack (hl : TextLoaded g text l) (hu : exec .encode l = .next u) :
    u.Holds (g.readBack u) := by
  obtain ⟨hl, ⟨hgw, hgh, _⟩, _⟩ := hl
  obtain ⟨hugw, hugh, _⟩ := (exec_endsWith hl hu).grid
  refine ⟨by rw [hugw, hgw, g.readBack_width], by rw [hugh, hgh, g.readBack_height], fun x y hx hy => ?_⟩
  rw [g.readBack_width] at hx
  rw [g.readBack_height] at hy
  rw [g.readBack_getPixel, if_pos ⟨hx, hy⟩]

/-- ENCODE's grid pair by pair (R121). -/
theorem pixAt_encoded (hl : l.Ready) (hu : exec .encode l = .next u) {x y : Nat} (hv : l.validPair x y = true) :
    u.pixAt x y = l.encodedPixel (l.idx x y) := by
  obtain ⟨hlt, hpair⟩ := idx_valid hv
  obtain ⟨_, hgh, _⟩ := (exec_endsWith hl hu).grid
  obtain ⟨_, hin, _⟩ := exec_encode_memory hl hu
  rw [← hin _ hlt, State.pixel, State.coord, hgh, ← State.coord, hpair]

/-- The pixels of the grid read back: the stream of the frame in the low bits of the first REQ, the caller's else. -/
theorem TextLoaded.readBack_getPixel (hl : TextLoaded g text l) (hu : exec .encode l = .next u)
    (hreq : reqPixels text.length ≤ g.width * g.height) (x y : Nat) :
    (g.readBack u).getPixel x y =
      if x < g.width ∧ y < g.height ∧ x * g.height + y < reqPixels text.length then
        embed (g.getPixel x y) (streamAt (frame text) (x * g.height + y))
      else g.getPixel x y := by
  obtain ⟨hl, hgrid, hplen, htext⟩ := hl
  have hnpix := hgrid.npix
  obtain ⟨hgw, hgh, hpix⟩ := hgrid
  rw [g.readBack_getPixel]
  by_cases hxy : x < g.width ∧ y < g.height
  · have hv : l.validPair x y = true := (validPair_iff l x y).2 (by rwa [hgw, hgh])
    have hfits : reqPixels l.plen ≤ l.npix := by rwa [hplen, hnpix]
    have hidx : l.idx x y = x * g.height + y := by rw [State.idx, hgh]
    rw [if_pos hxy, pixAt_encoded hl hu hv, encodedPixel_of_fits hfits, pixel_idx hv, hpix x y hxy.1 hxy.2, hidx, hplen]
    by_cases hn : x * g.height + y < reqPixels text.length
    · rw [if_pos hn, if_pos ⟨hxy.1, hxy.2, hn⟩, fsym_eq_streamAt l (hplen ▸ hn), hplen, htext]
    · rw [if_neg hn, if_neg fun h => hn h.2.2]
  · rw [if_neg hxy, if_neg fun h => hxy ⟨h.1, h.2.1⟩]

end Encode

/-- Settles O38: ENCODE runs on the loaded grid and text (`hostEncodeText_eq`), its RESULT compares REQ with the number
of the caller's pixels, and the grid read back is the function level's (`TextLoaded.readBack_getPixel`). -/
theorem encodeSequenceReports : Obligations.EncodeSequenceReports := by
  intro Msg Pwd Iv cipher g m p iv s
  refine ⟨fun hfail => by rw [hostEncode, hfail], fun text htext hs hfit hlen => ?_⟩
  have hsequence : hostEncode cipher g m p iv s = hostEncodeText g text s := by rw [hostEncode, htext]
  obtain ⟨l, u, hl, hu, hsmall, hok⟩ := hostEncodeText_eq hs hfit hlen
  rw [hsequence]
  exact ⟨fun hlt => hsmall ((hl.result_insufficient_iff hu).2 hlt), fun hreq =>
    ⟨g.readBack u, hok ((hl.result_ok_iff hu).2 hreq), g.readBack_width u, g.readBack_height u,
      hl.readBack_getPixel hu hreq⟩⟩

/-! ## Two states that hold one grid -/

section Holds
variable {g : PixelGrid} {s t : State}

theorem State.Holds.pixel_eq (hs : s.Holds g) (ht : t.Holds g) {n : Nat} (hn : n < s.npix) : t.pixel n = s.pixel n := by
  obtain ⟨hx, hy⟩ := (validPair_iff s _ _).1 (coord_valid hn)
  obtain ⟨hgw, hgh, hpix⟩ := hs
  obtain ⟨_, hgh', hpix'⟩ := ht
  rw [hgw] at hx
  rw [hgh] at hy
  have hcoord : t.coord n = s.coord n := by rw [State.coord, State.coord, hgh', hgh]
  rw [State.pixel, State.pixel, hcoord, hpix' _ _ hx hy, hpix _ _ hx hy]

theorem State.Holds.sameLow (hs : s.Holds g) (ht : t.Holds g) (a : Nat) {b : Nat} (hb : b ≤ s.npix) : SameLow s t a b :=
  SameLow.of_pixel fun _ _ hn => hs.pixel_eq ht (hn.trans_le hb)

/-- DECODE's report is one of the grid and of LMAX. -/
theorem State.Holds.decodeReport_eq (hs : s.Holds g) (ht : t.Holds g) (hc : t.cfg = s.cfg) :
    t.decodeReport = s.decodeReport := by
  have hn : t.npix = s.npix := by rw [ht.npix, hs.npix]
  exact reportOf_congr (i := .decode) (by decide) hn (isEncoded_congr_low hn fun h36 => hs.sameLow ht 0 h36)
    (lengthField_congr_low hn hc (hs.sameLow ht 36 (scanEnd_le_npix s)))

end Holds

/-! ## DECODE's report, case by case (R161) -/

section DecodeReport
variable {s : State}

theorem decodeReport_unmarked (hm : s.isEncoded = false) : s.decodeReport = ⟨.notEncoded, .noCause, false, 0⟩ := by
  simp [State.decodeReport, hm]

theorem decodeReport_error (hm : s.isEncoded = true) {c : Cause} (hl : s.lengthField = .error c) :
    s.decodeReport = ⟨.parseError, c, true, 0⟩ := by
  simp [State.decodeReport, hm, hl]

theorem decodeReport_overrun (hm : s.isEncoded = true) {l : Nat} (hl : s.lengthField = .ok l)
    (hlt : s.npix < hdrPixels l + 4 * l) : s.decodeReport = ⟨.parseError, .overrun, true, l⟩ := by
  simp [State.decodeReport, hm, hl, hlt]

theorem decodeReport_fits (hm : s.isEncoded = true) {l : Nat} (hl : s.lengthField = .ok l)
    (hfit : hdrPixels l + 4 * l ≤ s.npix) : s.decodeReport = ⟨.ok, .noCause, true, l⟩ := by
  simp [State.decodeReport, hm, hl, Nat.not_lt.2 hfit]

end DecodeReport

/-! ## The decode sequence (R179) -/

/-- The L characters of the grid behind the header of a length field that says L (R161). -/
def State.gridText (s : State) (l : Nat) : List Ch := (List.range l).map fun i => s.charAt (hdrPixels l / 4 + i)

section Decode
variable {Msg Pwd Iv : Type} (cipher : Cipher Msg Pwd Iv) {g : PixelGrid} (p : Pwd) (iv : Iv) {s u : State}

/-- A DECODE ends as the report on any grid like the one it ran on says, and when OK with that grid's text in PAY. -/
theorem exec_decode_held {l t : State} (hl : l.Ready) (hgrid : l.Holds g) (hu : u.Holds g) (hc : u.cfg = l.cfg)
    (ht : exec .decode l = .next t) :
    t.result = u.decodeReport.result ∧ t.cause = u.decodeReport.cause ∧ t.len = u.decodeReport.len ∧
      (t.result = .ok → t.payText t.len = u.gridText t.len) := by
  have hend : EndsWith l t l.decodeReport := exec_endsWith hl ht
  rw [hu.decodeReport_eq hgrid hc.symm] at hend
  obtain ⟨_, _, hresult, hcause, _, hlen⟩ := hend.registers
  refine ⟨hresult, hcause, hlen, fun hr => List.map_congr_left fun i hi => ?_⟩
  obtain ⟨_, _, hfit, hpay⟩ := exec_decode_payload hl ht hr
  have hhdr := hdr_mod t.len
  have hlt : i < t.len := List.mem_range.1 hi
  have hin : 4 * (hdrPixels t.len / 4 + i) + 4 ≤ u.npix := by
    rw [hu.npix, ← hgrid.npix]
    omega
  rw [hpay i hlt, charAt_congr_low (hu.sameLow hgrid _ hin)]

/-- The decode sequence runs DECODE on the loaded grid, and reports its RESULT or decrypts the text of the grid: all
seen on any state that holds the caller's grid. -/
theorem hostDecode_eq (hs : s.Ready) (hfit : g.Fits s) (hu : u.Holds g) (hc : u.cfg = s.cfg) :
    (∀ e, resultReport u.decodeReport.result u.decodeReport.cause = some e → hostDecode cipher g p iv s = .error e) ∧
    (u.decodeReport.result = .ok → hostDecode cipher g p iv s =
      match cipher.decrypt (u.gridText u.decodeReport.len) p iv with
      | some m => .ok m
      | none => .error .cryptoError) := by
  obtain ⟨l, hrun, hl, hgrid, hcfg, hm⟩ := run_gridMoves (s := s.setHost (gridMoves g ++ [commandLine .decode]))
    (rest := [commandLine .decode]) hs hfit rfl
  obtain ⟨t, ht⟩ := exec_goes_on .decode (setHost_inv hl.1 [.waitDone])
  have hend := runSequence_of_moves hrun hl hm ht
  obtain ⟨hresult, hcause, hlen, htext⟩ :=
    exec_decode_held (l := l.setHost [.waitDone]) hl hgrid hu (hc.trans hcfg.symm) ht
  rw [← hresult, ← hcause, ← hlen]
  refine ⟨fun e he => ?_, fun hr => ?_⟩
  · rw [hostDecode, hend, he]
  · rw [hr] at hend
    rw [hostDecode, hend, ← htext hr]
    rfl

end Decode

/-- Settles O39: the decode sequence ends as DECODE's report on the caller's grid says (`hostDecode_eq`), and the
clauses are that report's four cases. -/
theorem decodeSequenceReports : Obligations.DecodeSequenceReports := by
  intro Msg Pwd Iv cipher g p iv s u hs hfit hu hc
  obtain ⟨herror, hok⟩ := hostDecode_eq cipher p iv hs hfit hu hc
  refine ⟨fun hm => ?_, fun c hm hl => ?_, fun l hm hl hlt => ?_, fun l hm hl hfits => ?_⟩
  · rw [decodeReport_unmarked hm] at herror
    exact herror _ rfl
  · rw [decodeReport_error hm hl] at herror
    exact herror _ rfl
  · rw [decodeReport_overrun hm hl hlt] at herror
    exact herror _ rfl
  · rw [decodeReport_fits hm hl hfits] at hok
    exact hok rfl

/-! ## Where a sequence stops (log 23) -/

section Stops
variable {s : State} {rest : List HostMove}

/-- A value wider than its register is no write (R23; log 8). -/
theorem step_csrWrite_wide {k v : Nat} (hm : s.host = .csrWrite k v :: rest) (hk : k < 6) (hv : 2 ^ s.csrWidth k ≤ v) :
    step s = .refused (.valueTooWide k v) := by
  rw [step_csrWrite hm]
  exact if_pos ⟨hk, hv⟩

/-- PIX is not the host's while BUSY = 1 (R231; log 7). -/
theorem step_pixWrite_busy (hb : s.busy = true) {x y : Nat} {v : Pixel} (hm : s.host = .pixWrite x y v :: rest) :
    step s = .refused .hostAccessWhileBusy := by
  rw [step_pixWrite hm]
  exact if_pos hb

/-- PAY has LMAX characters (R54). -/
theorem step_payWrite_outside (hb : s.busy = false) {i : Nat} {c : Ch} (hm : s.host = .payWrite i c :: rest)
    (hi : s.lmax ≤ i) : step s = .fault .payOutsideBuffer := by
  rw [step_payWrite hm]
  simp [State.hostPayWrite, State.writePay, outcomeOf, hb, Nat.not_lt.2 hi]

/-- A write of GW or GH that fits goes on, taken or ignored: the parameters and BUSY stay (R23, R34). -/
theorem step_dimWrite {k v : Nat} (hk : k < 2) (hm : s.host = .csrWrite k v :: rest) (hv : v < 2 ^ s.cfg.dw) :
    ∃ t : State, step s = .next t ∧ t.host = rest ∧ t.cfg = s.cfg ∧ t.busy = s.busy := by
  have hwidth : k < 6 → v < 2 ^ s.csrWidth k := fun _ => by interval_cases k <;> exact hv
  cases hb : s.busy with
  | false =>
    refine ⟨_, step_csrWrite_idle hb hm hwidth, ?_⟩
    interval_cases k <;> exact ⟨rfl, rfl, hb⟩
  | true =>
    rw [step_csrWrite hm, State.csrWrite_busy (s := s.setHost rest) hb hwidth]
    exact ⟨_, rfl, rfl, rfl, hb⟩

variable {g : PixelGrid} (moves : List HostMove) (i : Instr)

theorem runSequence_width_tooWide (hw : 2 ^ s.cfg.dw ≤ g.width) :
    runSequence (gridMoves g ++ moves) i s = .error (.machineRefused (.valueTooWide 0 g.width)) :=
  runSequence_of_refused (Nat.zero_le _) rfl (List.cons_ne_nil _ _) (step_csrWrite_wide rfl (by decide) hw)

theorem two_le_length_gridMoves_append : 2 ≤ (gridMoves g ++ moves).length := by
  rw [List.length_append, length_gridMoves]
  omega

theorem runSequence_height_tooWide (hw : g.width < 2 ^ s.cfg.dw) (hh : 2 ^ s.cfg.dw ≤ g.height) :
    runSequence (gridMoves g ++ moves) i s = .error (.machineRefused (.valueTooWide 1 g.height)) := by
  obtain ⟨t, ht, hm, hcfg, _⟩ := step_dimWrite (s := s.setHost (gridMoves g ++ moves ++ [commandLine i])) (k := 0)
    (by decide) rfl hw
  have hwide : 2 ^ t.csrWidth 1 ≤ g.height := by
    rw [State.csrWidth, hcfg]
    exact hh
  exact runSequence_of_refused (Nat.le_of_succ_le (two_le_length_gridMoves_append moves)) (core_run_succ 0 ht)
    (hm ▸ List.cons_ne_nil _ _) (step_csrWrite_wide hm (by decide) hwide)

/-- A grid with a pixel: its first word follows the dimensions. -/
theorem gridMoves_cons (h : 0 < g.width * g.height) :
    ∃ x y v after, gridMoves g = dimMoves g.width g.height ++ .pixWrite x y v :: after := by
  obtain ⟨n, hn⟩ := Nat.exists_eq_succ_of_ne_zero h.ne'
  rw [gridMoves, hn, List.range_succ_eq_map]
  exact ⟨_, _, _, _, rfl⟩

theorem runSequence_busy (hfit : g.Fits s) (hb : s.busy = true) (hpos : 0 < g.width * g.height) :
    runSequence (gridMoves g ++ moves) i s = .error (.machineRefused .hostAccessWhileBusy) := by
  obtain ⟨hw, hh⟩ := hfit
  obtain ⟨x, y, v, after, hgrid⟩ := gridMoves_cons hpos
  obtain ⟨d, hd, hdm, hdcfg, hdb⟩ := step_dimWrite (s := s.setHost (gridMoves g ++ moves ++ [commandLine i])) (k := 0)
    (rest := .csrWrite 1 g.height :: .pixWrite x y v :: (after ++ moves ++ [commandLine i])) (by decide)
    (by rw [hgrid]; rfl) hw
  obtain ⟨t, ht, htm, _, htb⟩ := step_dimWrite (by decide) hdm (by rw [hdcfg]; exact hh)
  exact runSequence_of_refused (two_le_length_gridMoves_append moves) ((core_run_succ 1 hd).trans (core_run_succ 0 ht))
    (htm ▸ List.cons_ne_nil _ _) (step_pixWrite_busy (htb.trans (hdb.trans hb)) htm)

/-- Both sequences begin with the grid's moves, so what stops there stops both. -/
theorem hostSequences_of_gridMoves_error {Msg Pwd Iv : Type} (cipher : Cipher Msg Pwd Iv) (text : List Ch) (p : Pwd)
    (iv : Iv) {e : HostError} (h : ∀ moves i, runSequence (gridMoves g ++ moves) i s = .error e) :
    hostEncodeText g text s = .error e ∧ hostDecode cipher g p iv s = .error e := by
  have hdecode := h [] .decode
  rw [List.append_nil] at hdecode
  exact ⟨by rw [hostEncodeText, h], by rw [hostDecode, hdecode]⟩

/-- The moves of a text longer than n: n characters, then the one at index n. -/
theorem textMoves_split {text : List Ch} {n : Nat} (h : n < text.length) :
    ∃ after, textMoves text = (List.range n).map (fun i => .payWrite i (text.getD i 0#8)) ++
      .payWrite n (text.getD n 0#8) :: after := by
  obtain ⟨k, hk⟩ := Nat.exists_eq_add_of_lt h
  rw [textMoves, hk, Nat.add_assoc, List.range_add, List.range_succ_eq_map, List.map_append, List.append_assoc]
  exact ⟨_, rfl⟩

/-- A text longer than LMAX: its first LMAX characters are written, the next write is one outside PAY. -/
theorem hostEncodeText_tooLong {text : List Ch} (hs : s.Ready) (hfit : g.Fits s) (hlong : s.lmax < text.length) :
    hostEncodeText g text s = .error (.machineFault .payOutsideBuffer) := by
  obtain ⟨after, hsplit⟩ := textMoves_split hlong
  obtain ⟨d, hgrid, ⟨_, hb⟩, _, hcfg, hdm⟩ := run_gridMoves (g := g)
    (s := s.setHost (gridMoves g ++ textMoves text ++ [commandLine .encode])) hs hfit (List.append_assoc _ _ _)
  have hmax : d.lmax = s.lmax := by rw [State.lmax, hcfg]; rfl
  rw [hsplit, List.append_assoc] at hdm
  obtain ⟨t, htext, hframe, _⟩ := run_payWrites hb _ (by simp [hmax]) hdm
  have hrun := (run_add _ _ hgrid).trans htext
  have hm : t.host = .payWrite s.lmax (text.getD s.lmax 0#8) :: (after ++ [commandLine .encode]) := by
    rw [hframe]
    rfl
  have hne : t.host ≠ [] := hm ▸ List.cons_ne_nil _ _
  have hbusy : t.busy = false := by rw [hframe]; exact hb
  have hout : State.lmax t ≤ s.lmax := by rw [hframe]; exact hmax.le
  have hmoves : (gridMoves g).length + (List.range s.lmax).length ≤ (gridMoves g ++ textMoves text).length := by
    rw [List.length_range, List.length_append, length_textMoves]
    omega
  have hstop := runSequence_of_stop hmoves hrun hne fun m =>
    runScript_fault m hne (step_payWrite_outside hbusy hm hout)
  rw [hostEncodeText, hstop]

end Stops

/-- Settles O40: a text longer than LMAX stops at its character LMAX (`hostEncodeText_tooLong`); in the other cases the
grid's own moves stop, in both sequences alike (`hostSequences_of_gridMoves_error`). -/
theorem sequencesThatStop : Obligations.SequencesThatStop := by
  refine ⟨fun _ _ _ => hostEncodeText_tooLong, fun Msg Pwd Iv cipher g text p iv s => ?_⟩
  refine ⟨fun hw => ?_, fun hw hh => ?_, fun hfit hb hpos => ?_⟩
  · exact hostSequences_of_gridMoves_error cipher text p iv fun moves i => runSequence_width_tooWide moves i hw
  · exact hostSequences_of_gridMoves_error cipher text p iv fun moves i => runSequence_height_tooWide moves i hw hh
  · exact hostSequences_of_gridMoves_error cipher text p iv fun moves i => runSequence_busy moves i hfit hb hpos

/-! ## The round trip of the whole system (R182) -/

/-- The text of a grid that holds a frame is the payload text (R170). -/
theorem HoldsFrame.gridText {s u : State} (h : HoldsFrame s u) : u.gridText s.plen = s.payText s.plen :=
  List.map_congr_left fun _ hi => h.payload (List.mem_range.1 hi)

/-- DECODE's report and text on the grid that ENCODE leaves, read with the parameters c of another block (R170). -/
theorem TextLoaded.decodes {g : PixelGrid} {text : List Ch} {l u : State} (hl : TextLoaded g text l)
    (hu : exec .encode l = .next u) (hreq : reqPixels text.length ≤ g.width * g.height) {c : Config}
    (hmax : text.length ≤ c.lmax) :
    ({ u with cfg := c } : State).decodeReport = ⟨.ok, .noCause, true, text.length⟩ ∧
      ({ u with cfg := c } : State).gridText text.length = text := by
  have hres := (hl.result_ok_iff hu).2 hreq
  obtain ⟨hl, _, hplen, hpay⟩ := hl
  obtain ⟨hgw, hgh, _⟩ := (exec_endsWith hl hu).grid
  have hframe : HoldsFrame l { u with cfg := c } := holdsFrame_of_encode hl hu hres hgw hgh fun _ _ => rfl
  have hfield := hframe.lengthField (by rw [hplen]; exact hmax)
  have ⟨hroom, _⟩ := hframe
  rw [reqPixels_eq_hdrPixels_add] at hroom
  rw [← hplen] at hpay ⊢
  exact ⟨decodeReport_fits hframe.isEncoded hfield hroom, hframe.gridText.trans hpay⟩

/-- Settles O41: the grid that the encode sequence gives back is one that ENCODE left, so the decode sequence decrypts
the text (`TextLoaded.decodes`), on any block whose PAY has room for it. -/
theorem wholeSystemRoundTrip : Obligations.WholeSystemRoundTrip := by
  intro Msg Pwd Iv cipher hinverse g m p iv text s s' htext hs hs' hfit hfit' hlen hlen' hreq
  obtain ⟨l, u, hl, hu, _, hok⟩ := hostEncodeText_eq hs hfit hlen
  refine ⟨g.readBack u, by rw [hostEncode, htext]; exact hok ((hl.result_ok_iff hu).2 hreq), ?_⟩
  obtain ⟨hreport, hgridText⟩ := hl.decodes hu hreq (c := s'.cfg) hlen'
  have hfits : (g.readBack u).Fits s' := by
    rw [PixelGrid.Fits, g.readBack_width, g.readBack_height]
    exact hfit'
  have hgrid := hl.holds_readBack hu
  obtain ⟨_, hdecode⟩ := hostDecode_eq cipher p iv hs' hfits (u := { u with cfg := s'.cfg }) hgrid rfl
  rw [hreport] at hdecode
  rw [hdecode rfl, hgridText, hinverse m p iv text htext]

end Sys2Proof.Machine
end

section
/-! PROOFS. How an operation goes and how it ends (10_state.md R35, R210; 60_exceptions.md R206, R209): an error writes
no memory, each block step takes one row of the table of phases, and every operation ends within its bound. -/

namespace Sys2Proof.Machine

/-! ## An error writes no memory (R206) -/

/-- DECODE's last test, for OVERRUN, precedes its first write of PAY (R206). -/
theorem exec_decode_failed_pay {s t : State} (hs : s.Ready) (ht : exec .decode s = .next t) (hr : t.result ≠ .ok) :
    t.pay = s.pay := by
  cases hm : s.isEncoded with
  | false =>
    obtain ⟨u, hu, _, _, hpay⟩ := exec_decode_unmarked hs.2 hm
    cases hu.symm.trans ht
    exact hpay
  | true =>
    cases hl : s.lengthField with
    | error c =>
      obtain ⟨u, hu, _, _, hpay⟩ := exec_decode_error hs.2 hm hl
      cases hu.symm.trans ht
      exact hpay
    | ok l =>
      rcases Nat.lt_or_ge s.npix (hdrPixels l + 4 * l) with hlt | hfit
      · obtain ⟨u, hu, _, _, hpay⟩ := exec_decode_overrun hs hm hl hlt
        cases hu.symm.trans ht
        exact hpay
      · obtain ⟨u, hu, hend, _⟩ := exec_decode_ok hs hm hl hfit
        cases hu.symm.trans ht
        obtain ⟨_, _, hresult, _⟩ := hend.registers
        exact absurd hresult hr

/-- Settles O29: ENCODE fails only in its capacity test, DETECT and GETLEN write no memory, and DECODE writes PAY only
after its last test. -/
theorem resultsArePrecise : Obligations.ResultsArePrecise := by
  intro i s t hs ht hr
  cases i with
  | encode =>
    have hlt : s.npix < reqPixels s.plen := Nat.not_le.1 (mt (exec_encode_ok_iff hs ht).2 hr)
    obtain ⟨hpay, _⟩ := exec_encode_memory hs ht
    exact ⟨exec_encode_small_pix hs.2 hlt ht, hpay⟩
  | detect => exact exec_reader_memory hs (.inl rfl) ht
  | getlen => exact exec_reader_memory hs (.inr rfl) ht
  | decode => exact ⟨exec_decode_pix hs ht, exec_decode_failed_pay hs ht hr⟩

/-! ## The end within the bound (R209) -/

/-- Settles O46: the machine's steps are the operation's own, which end with its report within its bound. -/
theorem everyOperationEnds : Obligations.EveryOperationEnds := by
  intro s i hs hm
  obtain ⟨t, ht, hend⟩ := exec_report i hs
  obtain ⟨hdone, hbusy, _⟩ := hend.registers
  have hrun := core_run_eq_runOp (s := s.start (encodeCmd i)) (opBound i s) hm
  refine ⟨opBound i s, t, ?_, hrun.trans ((exec_idle i hs.2).symm.trans ht), hbusy, hdone⟩
  cases i with
  | encode | detect | getlen | decode => exact Nat.le_refl _

/-! ## The step rule of a PHASE (R32) -/

/-- The step rule of the state's PHASE; D_MARK and D_LEN are the same in each operation that passes through them. -/
def phaseStep (s : State) : Except Fault State :=
  match s.phase with
  | .idle => .error .noStepRule
  | .eCheck => .ok (encodeCheck s)
  | .eWrite => encodeWrite s
  | .dMark => markStep s
  | .dLen => lenStep s
  | .dBound => .ok (boundStep s)
  | .dXtr => extractStep s

/-- Where the operation in OP has a step rule, it is the rule of the PHASE. -/
theorem phaseStep_of_blockStep {s t : State} (h : blockStep s = .ok t) : phaseStep s = .ok t := by
  unfold blockStep at h
  unfold phaseStep
  cases ho : decodeCmd s.op with
  | encode => cases hp : s.phase <;> simp_all [encodeStep]
  | detect => cases hp : s.phase <;> simp_all [detectStep]
  | getlen => cases hp : s.phase <;> simp_all [getlenStep]
  | decode => cases hp : s.phase <;> simp_all [decodeStep]

/-! ## The rows of R210's table, PHASE by PHASE -/

/-- E_CHECK's rows (R125). -/
theorem encodeCheck_rows (s : State) :
    s.npix < reqPixels s.plen ∧ (encodeCheck s).Finished .insufficientCapacity .noCause ∨
    reqPixels s.plen ≤ s.npix ∧ (encodeCheck s).phase = .eWrite ∧ (encodeCheck s).n = s.n := by
  unfold encodeCheck
  split
  · exact .inl ⟨‹_›, s.finish_finished _ _⟩
  · exact .inr ⟨Nat.not_lt.1 ‹_›, rfl, rfl⟩

/-- E_WRITE's rows (R126): while the cursor is short of REQ a pixel is written, there the operation ends. -/
theorem encodeWrite_rows {s t : State} (hplen : s.plen < 2 ^ s.cfg.lw) (hp : s.phase = .eWrite)
    (hn : s.n ≤ reqPixels s.plen) (hr : reqPixels s.plen ≤ s.npix) (h : encodeWrite s = .ok t) :
    s.n < reqPixels s.plen ∧ t.phase = .eWrite ∧ t.n = s.n + 1 ∨
    s.n = reqPixels s.plen ∧ t.Finished .ok .noCause := by
  rcases Nat.lt_or_ge s.n (reqPixels s.plen) with hlt | hge
  · cases (encodeWrite_ok hplen hlt hr).symm.trans h
    exact .inl ⟨hlt, hp, rfl⟩
  · cases (encodeWrite_close hge).symm.trans h
    exact .inr ⟨Nat.le_antisymm hn hge, s.finish_finished _ _⟩

/-- D_MARK on a pixel of the marker (R138). -/
theorem markStep_reads {s t : State} (h36 : 36 ≤ s.npix) (hn : s.n < 36) (h : markStep s = .ok t) :
    t.phase = s.phase ∧ t.n = s.n + 1 := by
  by_cases h4 : (s.n + 1) % 4 = 0
  · cases (markStep_char h36 hn h4).symm.trans h
    exact ⟨s.afterSymbol.matchChar_phase _, s.afterSymbol.matchChar_n _⟩
  · cases (markStep_read h36 hn h4).symm.trans h
    exact ⟨rfl, rfl⟩

/-- D_MARK's closing step, where a grid of fewer than 36 pixels is one without the marker (R138). -/
theorem markStep_closes {s : State} (h : s.npix < 36 ∨ s.n = 36) :
    markStep s = .ok (markClose { s with matched := decide (36 ≤ s.npix) && s.matched }) := by
  rcases Nat.lt_or_ge s.npix 36 with hlt | hge
  · rw [markStep_small hlt, decide_eq_false (Nat.not_le.2 hlt), Bool.false_and]
  · rw [markStep_close hge (by omega), decide_eq_true hge, Bool.true_and]

/-- What the closing step answers by the operation and by MATCH (R138). -/
theorem markClose_rows {s : State} (ho : decodeCmd s.op = .detect ∨ decodeCmd s.op = .decode) :
    decodeCmd s.op = .detect ∧ (markClose s).Finished .ok .noCause ∧ (markClose s).enc = s.matched ∨
    s.matched = false ∧ decodeCmd s.op = .decode ∧ (markClose s).Finished .notEncoded .noCause ∧
      (markClose s).enc = false ∨
    s.matched = true ∧ decodeCmd s.op = .decode ∧ (markClose s).phase = .dLen ∧ (markClose s).n = s.n ∧
      (markClose s).enc = true := by
  unfold markClose
  rcases ho with ho | ho
  · rw [if_pos ho]
    exact .inl ⟨ho, State.finish_finished _ _ _, rfl⟩
  · rw [if_neg (by simp [ho])]
    cases hm : s.matched with
    | false => exact .inr (.inl ⟨rfl, ho, State.finish_finished _ _ _, rfl⟩)
    | true => exact .inr (.inr ⟨rfl, ho, rfl, rfl, rfl⟩)

/-- D_MARK's rows (R138). -/
theorem markStep_rows {s t : State} (hp : s.phase = .dMark)
    (ho : decodeCmd s.op = .detect ∨ decodeCmd s.op = .decode) (hn : s.n ≤ 36) (h : markStep s = .ok t) :
    36 ≤ s.npix ∧ s.n < 36 ∧ t.phase = .dMark ∧ t.n = s.n + 1 ∨
    (s.npix < 36 ∨ s.n = 36) ∧ decodeCmd s.op = .detect ∧ t.Finished .ok .noCause ∧
      t.enc = (decide (36 ≤ s.npix) && s.matched) ∨
    (s.npix < 36 ∨ s.n = 36 ∧ s.matched = false) ∧ decodeCmd s.op = .decode ∧ t.Finished .notEncoded .noCause ∧
      t.enc = false ∨
    36 ≤ s.npix ∧ s.n = 36 ∧ s.matched = true ∧ decodeCmd s.op = .decode ∧ t.phase = .dLen ∧ t.n = 36 ∧
      t.enc = true := by
  by_cases hclosing : s.npix < 36 ∨ s.n = 36
  · cases (markStep_closes hclosing).symm.trans h
    obtain hdetect | ⟨hm, hdecode⟩ | ⟨hm, hop, hphase, hcursor, henc⟩ :=
      markClose_rows (s := { s with matched := decide (36 ≤ s.npix) && s.matched }) ho
    · exact .inr (.inl ⟨hclosing, hdetect⟩)
    · have hnot : s.npix < 36 ∨ s.n = 36 ∧ s.matched = false := by
        rcases hclosing with hsmall | hend
        · exact .inl hsmall
        · rcases Bool.and_eq_false_iff.1 hm with hsmall | hmatched
          · exact .inl (Nat.not_le.1 (of_decide_eq_false hsmall))
          · exact .inr ⟨hend, hmatched⟩
      exact .inr (.inr (.inl ⟨hnot, hdecode⟩))
    · obtain ⟨h36, hmatched⟩ : 36 ≤ s.npix ∧ s.matched = true := by simpa using hm
      have hend : s.n = 36 := by omega
      exact .inr (.inr (.inr ⟨h36, hend, hmatched, hop, hphase, hcursor.trans hend, henc⟩))
  · obtain ⟨hphase, hcursor⟩ := markStep_reads (by omega) (by omega) h
    exact .inl ⟨by omega, by omega, hphase.trans hp, hcursor⟩

/-- The terminator where no test fails (R151). -/
theorem lenTerminator_good {s : State} (hd : 1 ≤ s.dcnt) (hb : s.lbad = false) (hv : s.lovf = false) :
    lenTerminator s = lenAccept s s.lacc := by
  unfold lenTerminator lenAccept
  rw [if_neg (Nat.pos_iff_ne_zero.1 hd), if_neg (by simp [hb]), if_neg (by simp [hv])]

theorem lenAccept_rows {s : State} (l : Nat) (ho : decodeCmd s.op = .getlen ∨ decodeCmd s.op = .decode) :
    decodeCmd s.op = .getlen ∧ (lenAccept s l).Finished .ok .noCause ∧ (lenAccept s l).len = l ∨
    decodeCmd s.op = .decode ∧ (lenAccept s l).phase = .dBound ∧ (lenAccept s l).len = l := by
  unfold lenAccept
  rcases ho with ho | ho
  · rw [if_pos ho]
    exact .inl ⟨ho, State.finish_finished _ _ _, rfl⟩
  · rw [if_neg (by simp [ho])]
    exact .inr ⟨ho, rfl, rfl⟩

/-- The terminator's rows, by its tests in R151's order. -/
theorem lenTerminator_rows {s : State} (ho : decodeCmd s.op = .getlen ∨ decodeCmd s.op = .decode) :
    s.dcnt = 0 ∧ (lenTerminator s).Finished .parseError .empty ∨
    1 ≤ s.dcnt ∧ s.lbad = true ∧ (lenTerminator s).Finished .parseError .notDecimal ∨
    1 ≤ s.dcnt ∧ s.lbad = false ∧ s.lovf = true ∧ (lenTerminator s).Finished .parseError .range ∨
    (1 ≤ s.dcnt ∧ s.lbad = false ∧ s.lovf = false) ∧ decodeCmd s.op = .getlen ∧
      (lenTerminator s).Finished .ok .noCause ∧ (lenTerminator s).len = s.lacc ∨
    (1 ≤ s.dcnt ∧ s.lbad = false ∧ s.lovf = false) ∧ decodeCmd s.op = .decode ∧
      (lenTerminator s).phase = .dBound ∧ (lenTerminator s).len = s.lacc := by
  rcases Nat.eq_zero_or_pos s.dcnt with hd | hd
  · have hempty : lenTerminator s = s.finish .parseError .empty := if_pos hd
    exact .inl ⟨hd, hempty ▸ s.finish_finished _ _⟩
  · cases hb : s.lbad with
    | true =>
      have hbad : lenTerminator s = s.finish .parseError .notDecimal := by
        rw [lenTerminator, if_neg (Nat.pos_iff_ne_zero.1 hd), if_pos hb]
      exact .inr (.inl ⟨hd, rfl, hbad ▸ s.finish_finished _ _⟩)
    | false =>
      cases hv : s.lovf with
      | true =>
        have hrange : lenTerminator s = s.finish .parseError .range := by
          rw [lenTerminator, if_neg (Nat.pos_iff_ne_zero.1 hd), if_neg (by simp [hb]), if_pos hv]
        exact .inr (.inr (.inl ⟨hd, rfl, rfl, hrange ▸ s.finish_finished _ _⟩))
      | false =>
        rw [lenTerminator_good hd hb hv]
        rcases lenAccept_rows s.lacc ho with hgetlen | hdecode
        · exact .inr (.inr (.inr (.inl ⟨⟨hd, rfl, rfl⟩, hgetlen⟩)))
        · exact .inr (.inr (.inr (.inr ⟨⟨hd, rfl, rfl⟩, hdecode⟩)))

/-- D_LEN's step where it neither ends the scan nor finds the grid exhausted (R151). -/
theorem lenStep_reads {s t : State} (hn : s.n < s.npix) (hc : (s.n + 1) % 4 ≠ 0 ∨ s.afterSymbol.acc ≠ delim)
    (h : lenStep s = .ok t) : t.phase = s.phase ∧ t.n = s.n + 1 := by
  by_cases h4 : (s.n + 1) % 4 = 0
  · rw [lenStep_char hn h4, if_neg (hc.resolve_left (not_not_intro h4))] at h
    cases h
    exact ⟨rfl, rfl⟩
  · cases (lenStep_read hn h4).symm.trans h
    exact ⟨rfl, rfl⟩

theorem lenStep_terminator {s : State} (hn : s.n < s.npix) (h4 : (s.n + 1) % 4 = 0) (hc : s.afterSymbol.acc = delim) :
    lenStep s = .ok (lenTerminator s.afterSymbol) := by
  rw [lenStep_char hn h4, if_pos hc]

/-- D_LEN's rows (R151): the grid exhausted, a character complete and the terminator, or a step of the scan. -/
theorem lenStep_rows {s t : State} (hp : s.phase = .dLen) (h : lenStep s = .ok t) :
    s.n < s.npix ∧ ((s.n + 1) % 4 ≠ 0 ∨ s.afterSymbol.acc ≠ delim) ∧ t.phase = .dLen ∧ t.n = s.n + 1 ∨
    s.npix ≤ s.n ∧ t.Finished .parseError .exhausted ∨
    (s.n < s.npix ∧ (s.n + 1) % 4 = 0 ∧ s.afterSymbol.acc = delim) ∧ t = lenTerminator s.afterSymbol := by
  rcases Nat.lt_or_ge s.n s.npix with hn | hn
  · by_cases hc : (s.n + 1) % 4 = 0 ∧ s.afterSymbol.acc = delim
    · obtain ⟨h4, hdelim⟩ := hc
      cases (lenStep_terminator hn h4 hdelim).symm.trans h
      exact .inr (.inr ⟨⟨hn, h4, hdelim⟩, rfl⟩)
    · have hscan := not_and_or.1 hc
      obtain ⟨hphase, hcursor⟩ := lenStep_reads hn hscan h
      exact .inl ⟨hn, hscan, hphase.trans hp, hcursor⟩
  · cases (lenStep_exhausted hn).symm.trans h
    exact .inr (.inl ⟨hn, s.finish_finished _ _⟩)

/-- D_BOUND's rows (R168). -/
theorem boundStep_rows (s : State) :
    s.npix < hdrPixels s.len + 4 * s.len ∧ (boundStep s).Finished .parseError .overrun ∨
    hdrPixels s.len + 4 * s.len ≤ s.npix ∧ (boundStep s).phase = .dXtr ∧ (boundStep s).n = hdrPixels s.len ∧
      (boundStep s).hdr = hdrPixels s.len := by
  rw [boundStep_hdr]
  unfold boundStep
  split
  · exact .inl ⟨‹_›, State.finish_finished _ _ _⟩
  · exact .inr ⟨Nat.not_lt.1 ‹_›, rfl, rfl, rfl⟩

/-- D_XTR's rows (R169): while the cursor is short of the payload's end a pixel is read, there the operation ends. -/
theorem extractStep_rows {s t : State} (hlen : s.len < 2 ^ s.cfg.lw) (hp : s.phase = .dXtr) (hhdr : s.hdr ≤ s.n)
    (hn : s.n ≤ s.hdr + 4 * s.len) (hfit : s.hdr + 4 * s.len ≤ s.npix) (h : extractStep s = .ok t) :
    s.n < s.hdr + 4 * s.len ∧ t.phase = .dXtr ∧ t.n = s.n + 1 ∨
    s.n = s.hdr + 4 * s.len ∧ t.Finished .ok .noCause := by
  rcases Nat.lt_or_ge s.n (s.hdr + 4 * s.len) with hlt | hge
  · by_cases h4 : (s.n + 1) % 4 = 0
    · have hlmax := lmax_succ (s := s)
      cases (extractStep_char (by omega) hlt h4 (by omega)).symm.trans h
      exact .inl ⟨hlt, hp, rfl⟩
    · cases (extractStep_read (by omega) hlt h4).symm.trans h
      exact .inl ⟨hlt, hp, rfl⟩
  · cases (extractStep_close hge).symm.trans h
    exact .inr ⟨Nat.le_antisymm hn hge, s.finish_finished _ _⟩

/-- Settles O42: a CMD write with BUSY = 0 is the command start, and a block step is the step rule of its PHASE, whose
rows the invariant's bounds on the cursor and on OP make R210's. -/
theorem phaseTransitions : Obligations.PhaseTransitions := by
  refine ⟨fun s w rest hm hb => ⟨_, step_cmdWrite_idle hm hb, rfl, ?_⟩, fun s t hs hb h => ?_⟩
  · cases ho : decodeCmd w <;> simp [firstPhase, firstCursor, ho]
  · intro c terminator parseGood closing
    have hrule := phaseStep_of_blockStep h
    obtain ⟨hbase, hphase⟩ := (Inv_iff s).1 hs
    unfold phaseStep at hrule
    unfold State.phaseCoherent at hphase
    cases hp : s.phase with
    | idle => simp [hp] at hrule
    | eCheck =>
      rw [hp] at hrule
      cases hrule
      exact encodeCheck_rows s
    | eWrite =>
      rw [hp] at hrule hphase
      obtain ⟨_, _, hn, hr, _⟩ := hphase
      exact encodeWrite_rows hbase.plen hp hn hr hrule
    | dMark =>
      rw [hp] at hrule hphase
      obtain ⟨_, ho, hn, _⟩ := hphase
      exact markStep_rows hp ho hn hrule
    | dLen =>
      rw [hp] at hrule hphase
      obtain ⟨_, hop, _⟩ := hphase
      have ho : decodeCmd s.op = .getlen ∨ decodeCmd s.op = .decode := hop.imp And.left And.left
      obtain hscan | hexhausted | ⟨hterm, rfl⟩ := lenStep_rows hp hrule
      · exact .inl hscan
      · exact .inr (.inl hexhausted)
      · obtain hempty | hbad | hrange | hgetlen | hdecode := lenTerminator_rows (s := s.afterSymbol) ho
        · exact .inr (.inr (.inl ⟨hterm, hempty⟩))
        · exact .inr (.inr (.inr (.inl ⟨hterm, hbad⟩)))
        · exact .inr (.inr (.inr (.inr (.inl ⟨hterm, hrange⟩))))
        · exact .inr (.inr (.inr (.inr (.inr (.inl ⟨hterm, hgetlen⟩)))))
        · exact .inr (.inr (.inr (.inr (.inr (.inr ⟨hterm, hdecode⟩)))))
    | dBound =>
      rw [hp] at hrule
      cases hrule
      exact boundStep_rows s
    | dXtr =>
      rw [hp] at hrule hphase
      obtain ⟨_, _, _, _, hhdr, hn, hfit⟩ := hphase
      exact extractStep_rows hbase.len hp hhdr hn hfit hrule

end Sys2Proof.Machine
end

section
/-! PROOFS. Reset and hazards (70_reset_and_hazards.md): the reset event (R225), what it can find in the memories when
it falls into an operation (R226), and the host's moves that the model refuses (R231, R23). -/

namespace Sys2Proof.Machine

/-! ## The reset event (R225) -/

/-- Settles O1: the reset event is one step (`step_reset`), and it leaves BUSY = 0, so the block then stands still. -/
theorem resetEventLeavesResetValues : Obligations.ResetEventLeavesResetValues := by
  intro s rest hm
  have hstands : rest = [] → step (s.setHost rest).resetRegisters = .next (s.setHost rest).resetRegisters :=
    fun hrest => step_idle hrest rfl
  exact ⟨_, step_reset hm, by simpa using hstands⟩

/-! ## The host's moves that are refused (R231, R23) -/

section Refused
variable {s : State} {rest : List HostMove} (hb : s.busy = true)
include hb

theorem step_pixRead_busy {x y : Nat} (hm : s.host = .pixRead x y :: rest) :
    step s = .refused .hostAccessWhileBusy := by
  rw [step_pixRead hm]
  exact if_pos hb

theorem step_payWrite_busy {i : Nat} {c : Ch} (hm : s.host = .payWrite i c :: rest) :
    step s = .refused .hostAccessWhileBusy := by
  rw [step_payWrite hm]
  exact if_pos hb

theorem step_payRead_busy {i : Nat} (hm : s.host = .payRead i :: rest) : step s = .refused .hostAccessWhileBusy := by
  rw [step_payRead hm]
  exact if_pos hb

end Refused

/-- Settles O14: each access to PIX or PAY asks for BUSY = 0 first, and a CSR write for its register's width. -/
theorem hostMovesThatAreRefused : Obligations.HostMovesThatAreRefused := by
  refine ⟨fun s m rest hm hb haccess => ?_, fun s k v rest hm hk hv => step_csrWrite_wide hm hk hv⟩
  obtain ⟨x, y, v, rfl⟩ | ⟨x, y, rfl⟩ | ⟨i, c, rfl⟩ | ⟨i, rfl⟩ := haccess
  · exact step_pixWrite_busy hb hm
  · exact step_pixRead_busy hb hm
  · exact step_payWrite_busy hb hm
  · exact step_payRead_busy hb hm

/-! ## Which rules leave PAY, and do not enter D_XTR (R210) -/

theorem markClose_pay_phase (s : State) : (markClose s).pay = s.pay ∧ (markClose s).phase ≠ .dXtr := by
  unfold markClose
  split
  · exact ⟨rfl, nofun⟩
  · split <;> exact ⟨rfl, nofun⟩

theorem markStep_pay_phase {s t : State} (hp : s.phase = .dMark) (h : markStep s = .ok t) :
    t.pay = s.pay ∧ t.phase ≠ .dXtr := by
  obtain ⟨b, rfl⟩ | rfl | ⟨k, rfl⟩ := markStep_cases h
  · exact markClose_pay_phase _
  · exact ⟨rfl, ne_of_eq_of_ne hp nofun⟩
  · exact ⟨s.afterSymbol.matchChar_pay k, ne_of_eq_of_ne ((s.afterSymbol.matchChar_phase k).trans hp) nofun⟩

theorem lenTerminator_pay_phase (s : State) : (lenTerminator s).pay = s.pay ∧ (lenTerminator s).phase ≠ .dXtr := by
  unfold lenTerminator
  split
  · exact ⟨rfl, nofun⟩
  · split
    · exact ⟨rfl, nofun⟩
    · split
      · exact ⟨rfl, nofun⟩
      · dsimp only
        split <;> exact ⟨rfl, nofun⟩

theorem lenStep_pay_phase {s t : State} (hp : s.phase = .dLen) (h : lenStep s = .ok t) :
    t.pay = s.pay ∧ t.phase ≠ .dXtr := by
  obtain rfl | rfl | rfl | rfl := lenStep_cases h
  · exact ⟨rfl, nofun⟩
  · exact ⟨rfl, ne_of_eq_of_ne hp nofun⟩
  · exact lenTerminator_pay_phase _
  · exact ⟨rfl, ne_of_eq_of_ne hp nofun⟩

/-! ## The run of a started operation -/

/-- With no host move to come, the machine's run of a started operation is the run of that operation's rule (R20). -/
theorem runOp_of_core_run {rule : State → Except Fault State} (i : Instr)
    (hrule : ∀ u, decodeCmd u.op = i → rule u = blockStep u) {k : Nat} {s t : State} (hm : s.host = [])
    (h : Host.Core.run Sys2Proof.core k (s.start (encodeCmd i)) = .next t) :
    runOp rule k (s.start (encodeCmd i)) = .next t := by
  rw [core_run_eq_runOp (s := s.start (encodeCmd i)) k hm] at h
  exact (runOp_eq_blockStep hrule k (decodeCmd_encodeCmd i)).trans h

/-! ## ENCODE in progress -/

/-- A started ENCODE of s before its capacity test, writing the grid, or at its end (R125, R126). -/
def Encoding (s u : State) : Prop :=
  u = s.start 0#2 ∨ (reqPixels s.plen ≤ s.npix ∧ ∃ j, Writing s j u) ∨ u.busy = false

theorem Encoding.step {s u v : State} (hplen : s.plen < 2 ^ s.cfg.lw) (h : Encoding s u) (hb : u.busy = true)
    (hv : encodeStep u = .ok v) : Encoding s v := by
  obtain rfl | ⟨hfit, j, hw⟩ | hend := h
  · have hcheck : encodeStep (s.start 0#2) = .ok (encodeCheck (s.start 0#2)) := rfl
    cases hcheck.symm.trans hv
    unfold encodeCheck
    split
    · exact .inr (.inr rfl)
    · exact .inr (.inl ⟨Nat.not_lt.1 ‹_›, 0, writing_zero s⟩)
  · rcases Nat.lt_or_ge j (reqPixels s.plen) with hlt | hge
    · obtain ⟨w, hstep, hnext⟩ := hw.step hplen hlt hfit
      cases hstep.symm.trans hv
      exact .inr (.inl ⟨hfit, j + 1, hnext⟩)
    · have hclose : encodeStep u = .ok (u.finish .ok .noCause) := by
        rw [hw.1]
        exact encodeWrite_close hge
      cases hclose.symm.trans hv
      exact .inr (.inr rfl)
  · cases hend.symm.trans hb

/-- ENCODE's memories while BUSY = 1. -/
theorem Encoding.memory {s t : State} (h : Encoding s t) (hb : t.busy = true) :
    (∀ n, n < s.npix → t.pixel n = if n < t.n then embed (s.pixel n) (s.fsym n) else s.pixel n) ∧
      (∀ x y, s.validPair x y = false → t.pixAt x y = s.pixAt x y) ∧ t.pay = s.pay := by
  obtain rfl | ⟨_, j, hw⟩ | hend := h
  · exact ⟨fun n _ => (if_neg (Nat.not_lt_zero n)).symm, fun _ _ _ => rfl, rfl⟩
  · obtain ⟨_, _, _, hpay⟩ := hw.kept
    obtain ⟨hreg, hin, hout⟩ := hw
    have hn : t.n = j := by rw [hreg]
    exact ⟨hn ▸ hin, hout, hpay⟩
  · cases hend.symm.trans hb

theorem encodeStep_eq_blockStep (u : State) (ho : decodeCmd u.op = .encode) : encodeStep u = blockStep u := by
  simp only [blockStep, ho]

theorem core_run_encoding {k : Nat} {s t : State} (hs : s.Ready) (hm : s.host = [])
    (h : Host.Core.run Sys2Proof.core k (s.start 0#2) = .next t) : Encoding s t := by
  have hplen := ((Inv_iff s).1 hs.1).1.plen
  have hrun := runOp_of_core_run .encode encodeStep_eq_blockStep hm h
  exact runOp_keeps (Encoding s) (fun _ _ hu => hu.step hplen) (.inl rfl) hrun

/-! ## DECODE in progress -/

/-- D_XTR's step (R169): its end, a symbol read, or the symbol that completes a character and its write to PAY. -/
theorem extractStep_writes {s t : State} (h : extractStep s = .ok t) :
    t = s.finish .ok .noCause ∨
      (s.n + 1) % 4 ≠ 0 ∧ t = s.afterSymbol ∨
      s.n < s.hdr + 4 * s.len ∧ (s.n + 1) % 4 = 0 ∧
        t = s.afterSymbol.setPay ((s.n + 1 - s.hdr) / 4 - 1) s.afterSymbol.acc := by
  unfold extractStep at h
  split at h
  · next hn =>
    split at h
    · cases h
    · next u hu =>
      obtain ⟨_, rfl⟩ := State.readSymbol_cases hu
      split at h
      · next h4 => exact .inr (.inr ⟨hn, h4, writePay_cases h⟩)
      · next h4 => cases h; exact .inr (.inl ⟨h4, rfl⟩)
  · cases h; exact .inl rfl

/-- r symbols read one after the other change ACC and N only. -/
theorem afterSymbol_iterate (c : State) (r : Nat) :
    State.afterSymbol^[r] c = { c with acc := (State.afterSymbol^[r] c).acc, n := c.n + r } := by
  induction r with
  | zero => rfl
  | succ r ih =>
    rw [Function.iterate_succ_apply', State.afterSymbol, ih]
    rfl

/-- A DECODE of s in D_XTR with i characters written and the cursor at the first pixel of the next (R169). -/
structure PayloadRead (s : State) (i : Nat) (c : State) : Prop where
  pix : c.pix = s.pix
  gh : c.gh = s.gh
  phase : c.phase = .dXtr
  hdr : c.hdr = hdrPixels c.len
  cursor : c.n = c.hdr + 4 * i
  within : i ≤ c.len
  pay : ∀ j, c.payAt j = if j < i then s.charAt (hdrPixels c.len / 4 + j) else s.payAt j

/-- The four symbols of the next character and its write. -/
theorem PayloadRead.next {s c : State} {i : Nat} (h : PayloadRead s i c) (hi : i < c.len) :
    PayloadRead s (i + 1) ((State.afterSymbol^[4] c).setPay i (State.afterSymbol^[4] c).acc) := by
  obtain ⟨hpix, hgh, hp, hhdr, hn, _, hpay⟩ := h
  have hmod := hdr_mod c.len
  have hfirst : c.n = 4 * (hdrPixels c.len / 4 + i) := by omega
  have hchar : State.afterSymbol^[4] c = c.afterChar (hdrPixels c.len / 4 + i) := State.afterSymbol_four hfirst
  rw [hchar]
  refine ⟨hpix, hgh, hp, hhdr, ?_, hi, fun j => ?_⟩
  · show 4 * (hdrPixels c.len / 4 + i) + 4 = c.hdr + 4 * (i + 1)
    omega
  · by_cases hj : j = i
    · subst hj
      rw [State.setPay_payAt_same, if_pos (Nat.lt_succ_self j)]
      exact charAt_congr hpix hgh _
    · rw [State.setPay_payAt_other _ hj]
      refine (hpay j).trans (if_congr ?_ rfl rfl)
      omega

/-- PAY in a started DECODE of s: as before until D_XTR (R206), there a whole number of characters is written and up to
three symbols more are in ACC; or the operation has ended. -/
def PayProgress (s u : State) : Prop :=
  (u.phase ≠ .dXtr ∧ u.pay = s.pay) ∨ (∃ i c r, PayloadRead s i c ∧ r < 4 ∧ u = State.afterSymbol^[r] c) ∨
    u.busy = false

theorem PayProgress.after_extractStep {s u v : State} (h : PayProgress s u) (hb : u.busy = true) (hp : u.phase = .dXtr)
    (hv : extractStep u = .ok v) : PayProgress s v := by
  obtain ⟨hne, _⟩ | ⟨i, c, r, hc, hr, hu⟩ | hend := h
  · exact absurd hp hne
  · have hhdr := hc.hdr
    have hn := hc.cursor
    have hmod := hdr_mod c.len
    have hreg := hu.trans (afterSymbol_iterate c r)
    have hun : u.n = c.n + r := by rw [hreg]
    have huhdr : u.hdr = c.hdr := by rw [hreg]
    have hulen : u.len = c.len := by rw [hreg]
    obtain rfl | ⟨h4, rfl⟩ | ⟨hlt, h4, rfl⟩ := extractStep_writes hv
    · exact .inr (.inr rfl)
    · refine .inr (.inl ⟨i, c, r + 1, hc, by omega, ?_⟩)
      rw [Function.iterate_succ_apply', ← hu]
    · have hr3 : r = 3 := by omega
      have hindex : (u.n + 1 - u.hdr) / 4 - 1 = i := by omega
      have hfour : u.afterSymbol = State.afterSymbol^[4] c := by rw [hu, hr3, Function.iterate_succ_apply' _ 3]
      rw [hindex, hfour]
      exact .inr (.inl ⟨i + 1, _, 0, hc.next (by omega), Nat.succ_pos 3, rfl⟩)
  · cases hend.symm.trans hb

theorem boundStep_payProgress {s u : State} (hpix : u.pix = s.pix) (hgh : u.gh = s.gh) (hpay : u.pay = s.pay) :
    PayProgress s (boundStep u) := by
  unfold boundStep
  split
  · exact .inr (.inr rfl)
  · have hread : PayloadRead s 0 (u.extracting u.len) :=
      ⟨hpix, hgh, rfl, rfl, rfl, Nat.zero_le _, fun j =>
        (State.payAt_congr hpay j).trans (if_neg (Nat.not_lt_zero j)).symm⟩
    exact .inr (.inl ⟨0, _, 0, hread, Nat.succ_pos 3, rfl⟩)

theorem decodeStep_pix {s t : State} (h : decodeStep s = .ok t) : t.pix = s.pix := by
  obtain ⟨_, h⟩ | ⟨_, h⟩ | ⟨_, rfl⟩ | ⟨_, h⟩ := decodeStep_cases h
  · exact markStep_pix h
  · exact lenStep_pix h
  · exact boundStep_pix s
  · exact extractStep_pix h

theorem PayProgress.pay_of_not_dXtr {s u : State} (h : PayProgress s u) (hb : u.busy = true) (hp : u.phase ≠ .dXtr) :
    u.pay = s.pay := by
  obtain ⟨_, hpay⟩ | ⟨i, c, r, hc, _, hu⟩ | hend := h
  · exact hpay
  · rw [hu, afterSymbol_iterate] at hp
    exact absurd hc.phase hp
  · cases hend.symm.trans hb

/-- A started DECODE of s: it leaves GH and PIX, and PAY progresses. -/
def Decoding (s u : State) : Prop := (u.pix = s.pix ∧ u.gh = s.gh) ∧ PayProgress s u

theorem Decoding.step {s u v : State} (h : Decoding s u) (hb : u.busy = true) (hv : decodeStep u = .ok v) :
    Decoding s v := by
  obtain ⟨⟨hpix, hgh⟩, hprog⟩ := h
  obtain ⟨_, _, hvgh, _⟩ := decodeStep_kept hv
  refine ⟨⟨(decodeStep_pix hv).trans hpix, hvgh.trans hgh⟩, ?_⟩
  have hbefore : ∀ {ph}, u.phase = ph → ph ≠ .dXtr → u.pay = s.pay := fun hp hne =>
    hprog.pay_of_not_dXtr hb (ne_of_eq_of_ne hp hne)
  obtain ⟨hp, hm⟩ | ⟨hp, hl⟩ | ⟨hp, rfl⟩ | ⟨hp, hx⟩ := decodeStep_cases hv
  · obtain ⟨hpay, hne⟩ := markStep_pay_phase hp hm
    exact .inl ⟨hne, hpay.trans (hbefore hp nofun)⟩
  · obtain ⟨hpay, hne⟩ := lenStep_pay_phase hp hl
    exact .inl ⟨hne, hpay.trans (hbefore hp nofun)⟩
  · exact boundStep_payProgress hpix hgh (hbefore hp nofun)
  · exact hprog.after_extractStep hb hp hx

/-- What PAY holds while BUSY = 1: the first i characters of the payload, and behind them what it held. -/
theorem PayProgress.payload_written {s t : State} (h : PayProgress s t) (hb : t.busy = true) :
    ∃ i, i ≤ t.len ∧ (∀ j, j < i → t.payAt j = s.charAt (hdrPixels t.len / 4 + j)) ∧
      ∀ j, i ≤ j → t.payAt j = s.payAt j := by
  obtain ⟨_, hpay⟩ | ⟨i, c, r, hc, _, hu⟩ | hend := h
  · exact ⟨0, Nat.zero_le _, fun j hj => absurd hj (Nat.not_lt_zero j), fun j _ => State.payAt_congr hpay j⟩
  · rw [hu, afterSymbol_iterate]
    exact ⟨i, hc.within, fun j hj => (hc.pay j).trans (if_pos hj),
      fun j hj => (hc.pay j).trans (if_neg (Nat.not_lt.2 hj))⟩
  · cases hend.symm.trans hb

theorem core_run_decoding {k : Nat} {s t : State} (hm : s.host = [])
    (h : Host.Core.run Sys2Proof.core k (s.start 3#2) = .next t) : Decoding s t := by
  have hphase : firstPhase 3#2 ≠ .dXtr := by decide
  have hstart : Decoding s (s.start 3#2) := ⟨⟨rfl, rfl⟩, .inl ⟨hphase, rfl⟩⟩
  have hrun := runOp_of_core_run .decode (fun _ ho => (blockStep_decode ho).symm) hm h
  exact runOp_keeps (Decoding s) (fun _ _ hu => hu.step) hstart hrun

/-! ## DETECT and GETLEN, in progress or ended -/

theorem detectStep_memory {s t : State} (h : detectStep s = .ok t) : t.pix = s.pix ∧ t.pay = s.pay := by
  unfold detectStep at h
  split at h
  · next hp => exact ⟨markStep_pix h, (markStep_pay_phase hp h).1⟩
  all_goals cases h

theorem getlenStep_memory {s t : State} (h : getlenStep s = .ok t) : t.pix = s.pix ∧ t.pay = s.pay := by
  unfold getlenStep at h
  split at h
  · next hp => exact ⟨lenStep_pix h, (lenStep_pay_phase hp h).1⟩
  all_goals cases h

/-- A run under a rule that writes no memory. -/
theorem runOp_memory {rule : State → Except Fault State} (hrule : ∀ u v, rule u = .ok v → v.pix = u.pix ∧ v.pay = u.pay)
    {k : Nat} {s t : State} (h : runOp rule k s = .next t) : t.pix = s.pix ∧ t.pay = s.pay :=
  runOp_keeps (fun u => u.pix = s.pix ∧ u.pay = s.pay)
    (fun u v ⟨hpix, hpay⟩ _ hv => (hrule u v hv).imp hpix.subst hpay.subst) ⟨rfl, rfl⟩ h

theorem core_run_reader_memory {k : Nat} {s t : State} {c : CmdWord} (hc : c = 1#2 ∨ c = 2#2) (hm : s.host = [])
    (h : Host.Core.run Sys2Proof.core k (s.start c) = .next t) : t.pix = s.pix ∧ t.pay = s.pay := by
  rcases hc with rfl | rfl
  · exact runOp_memory (s := s.start 1#2) (fun _ _ => detectStep_memory)
      (runOp_of_core_run .detect (fun u ho => by simp only [blockStep, ho]) hm h)
  · exact runOp_memory (s := s.start 2#2) (fun _ _ => getlenStep_memory)
      (runOp_of_core_run .getlen (fun u ho => by simp only [blockStep, ho]) hm h)

/-- Settles O48: `Encoding` and `Decoding` hold at the command start and every step of the operation keeps them; DETECT
and GETLEN have no rule that writes; and the reset event writes registers only. -/
theorem resetInMidOperation : Obligations.ResetInMidOperation := by
  refine ⟨fun s t k hs hm h hb => (core_run_encoding hs hm h).memory hb, fun s t k _ hm h hb => ?_,
    fun s t c k _ hm hc h => core_run_reader_memory hc hm h, fun t rest hm => ⟨_, step_reset hm, rfl, rfl, rfl, rfl⟩⟩
  obtain ⟨⟨hpix, _⟩, hprog⟩ := core_run_decoding hm h
  exact ⟨hpix, hprog.payload_written hb⟩

end Sys2Proof.Machine
end
